-- ==== Sys2Proof/Word.lean ====
section
/-! DEFINITION. The word types of the HT47C06L (R7, R122) and the three plain bit-field helpers used everywhere. -/

namespace Sys2Proof

/-- One data-memory location or register: 8 bits (R7). -/
abbrev Byte := BitVec 8

/-- One program word: 16 bits (R7). -/
abbrev Word := BitVec 16

/-- One program address: 10 bits, 000H to 3FFH (R7, R24). -/
abbrev PAddr := BitVec 10

/-- One direct data-memory address `m`: 7 bits (R80, decision D3). -/
abbrev DAddr := BitVec 7

/-- `{b7, …, b0}`: eight named bits assembled into a byte, most significant first (R9, R92). -/
def packBits (b7 b6 b5 b4 b3 b2 b1 b0 : Bool) : Byte :=
  BitVec.ofBool b7 ++ BitVec.ofBool b6 ++ BitVec.ofBool b5 ++ BitVec.ofBool b4 ++
    BitVec.ofBool b3 ++ BitVec.ofBool b2 ++ BitVec.ofBool b1 ++ BitVec.ofBool b0

/-- `{hi, lo}`: a 16-bit value from its two bytes (R101). -/
def joinBytes (hi lo : Byte) : Word := hi ++ lo

/-- Bits 15:8 of a 16-bit value (R101). -/
def highByte (w : Word) : Byte := w.extractLsb' 8 8

/-- Bits 7:0 of a 16-bit value (R101). -/
def lowByte (w : Word) : Byte := w.extractLsb' 0 8

end Sys2Proof
end

