-- ==== Sys2Proof/Syntax.lean ====
section
/-! DEFINITION. The abstract syntax of the 63 instructions (R125, R129): one constructor per row of the opcode table, in the
table's order, with the operand letters of R10. -/

namespace Sys2Proof

/-- The 63 instructions. `m` is a direct data-memory address, `x` immediate data, `addr` a program address, `i` a bit
number; `i` is a number and is kept in 0 to 7 by `Instr.wf`. -/
inductive Instr where
  -- Arithmetic (40_arithmetic.md)
  /-- row 1, `ADD A,[m]` (R153) -/
  | addAm (m : DAddr)
  /-- row 2, `ADDM A,[m]` (R154) -/
  | addmAm (m : DAddr)
  /-- row 3, `ADD A,x` (R155) -/
  | addAx (x : Byte)
  /-- row 4, `ADC A,[m]` (R156) -/
  | adcAm (m : DAddr)
  /-- row 5, `ADCM A,[m]` (R157) -/
  | adcmAm (m : DAddr)
  /-- row 6, `SUB A,x` (R158) -/
  | subAx (x : Byte)
  /-- row 7, `SUB A,[m]` (R159) -/
  | subAm (m : DAddr)
  /-- row 8, `SUBM A,[m]` (R160) -/
  | submAm (m : DAddr)
  /-- row 9, `SBC A,[m]` (R161) -/
  | sbcAm (m : DAddr)
  /-- row 10, `SBCM A,[m]` (R162) -/
  | sbcmAm (m : DAddr)
  /-- row 11, `DAA [m]` (R163) -/
  | daa (m : DAddr)
  -- Logic (41_logic.md)
  /-- row 12, `AND A,[m]` (R171) -/
  | andAm (m : DAddr)
  /-- row 13, `OR A,[m]` (R172) -/
  | orAm (m : DAddr)
  /-- row 14, `XOR A,[m]` (R173) -/
  | xorAm (m : DAddr)
  /-- row 15, `ANDM A,[m]` (R174) -/
  | andmAm (m : DAddr)
  /-- row 16, `ORM A,[m]` (R175) -/
  | ormAm (m : DAddr)
  /-- row 17, `XORM A,[m]` (R176) -/
  | xormAm (m : DAddr)
  /-- row 18, `AND A,x` (R177) -/
  | andAx (x : Byte)
  /-- row 19, `OR A,x` (R178) -/
  | orAx (x : Byte)
  /-- row 20, `XOR A,x` (R179) -/
  | xorAx (x : Byte)
  /-- row 21, `CPL [m]` (R180) -/
  | cpl (m : DAddr)
  /-- row 22, `CPLA [m]` (R181) -/
  | cpla (m : DAddr)
  -- Increment and decrement (42_incdec.md)
  /-- row 23, `INCA [m]` (R191) -/
  | inca (m : DAddr)
  /-- row 24, `INC [m]` (R192) -/
  | inc (m : DAddr)
  /-- row 25, `DECA [m]` (R193) -/
  | deca (m : DAddr)
  /-- row 26, `DEC [m]` (R194) -/
  | dec (m : DAddr)
  -- Rotate (43_rotate.md)
  /-- row 27, `RRA [m]` (R201) -/
  | rra (m : DAddr)
  /-- row 28, `RR [m]` (R202) -/
  | rr (m : DAddr)
  /-- row 29, `RRCA [m]` (R203) -/
  | rrca (m : DAddr)
  /-- row 30, `RRC [m]` (R204) -/
  | rrc (m : DAddr)
  /-- row 31, `RLA [m]` (R205) -/
  | rla (m : DAddr)
  /-- row 32, `RL [m]` (R206) -/
  | rl (m : DAddr)
  /-- row 33, `RLCA [m]` (R207) -/
  | rlca (m : DAddr)
  /-- row 34, `RLC [m]` (R208) -/
  | rlc (m : DAddr)
  -- Data move (44_datamove.md)
  /-- row 35, `MOV A,[m]` (R215) -/
  | movAm (m : DAddr)
  /-- row 36, `MOV [m],A` (R216) -/
  | movmA (m : DAddr)
  /-- row 37, `MOV A,x` (R217) -/
  | movAx (x : Byte)
  -- Bit operation (45_bitop.md)
  /-- row 38, `CLR [m].i` (R220) -/
  | clrBit (m : DAddr) (i : Nat)
  /-- row 39, `SET [m].i` (R221) -/
  | setBit (m : DAddr) (i : Nat)
  -- Branch, skip, call and return (46_branch.md)
  /-- row 40, `JMP addr` (R226) -/
  | jmp (addr : PAddr)
  /-- row 41, `SZ [m]` (R227) -/
  | sz (m : DAddr)
  /-- row 42, `SZA [m]` (R228) -/
  | sza (m : DAddr)
  /-- row 43, `SZ [m].i` (R229) -/
  | szBit (m : DAddr) (i : Nat)
  /-- row 44, `SNZ [m].i` (R230) -/
  | snzBit (m : DAddr) (i : Nat)
  /-- row 45, `SIZ [m]` (R231) -/
  | siz (m : DAddr)
  /-- row 46, `SDZ [m]` (R232) -/
  | sdz (m : DAddr)
  /-- row 47, `SIZA [m]` (R233) -/
  | siza (m : DAddr)
  /-- row 48, `SDZA [m]` (R234) -/
  | sdza (m : DAddr)
  /-- row 49, `CALL addr` (R235) -/
  | call (addr : PAddr)
  /-- row 50, `RET` (R236) -/
  | ret
  /-- row 51, `RET A,x` (R237) -/
  | retAx (x : Byte)
  /-- row 52, `RETI` (R238) -/
  | reti
  -- Table read (47_tableread.md)
  /-- row 53, `TABRDC [m]` (R251) -/
  | tabrdc (m : DAddr)
  /-- row 54, `TABRDL [m]` (R252) -/
  | tabrdl (m : DAddr)
  -- Miscellaneous (48_misc.md)
  /-- row 55, `NOP` (R255) -/
  | nop
  /-- row 56, `CLR [m]` (R256) -/
  | clrMem (m : DAddr)
  /-- row 57, `SET [m]` (R257) -/
  | setMem (m : DAddr)
  /-- row 58, `CLR WDT` (R258) -/
  | clrWdt
  /-- row 59, `CLR WDT1` (R259) -/
  | clrWdt1
  /-- row 60, `CLR WDT2` (R260) -/
  | clrWdt2
  /-- row 61, `SWAP [m]` (R261) -/
  | swap (m : DAddr)
  /-- row 62, `SWAPA [m]` (R262) -/
  | swapa (m : DAddr)
  /-- row 63, `HALT` (R263) -/
  | halt
deriving DecidableEq, Repr

end Sys2Proof
end

