-- ==== Sys2Proof/Config.lean ====
section
/-! DEFINITION. What an implementation fixes (the mask options of R6, the encoding and the open parameters of R8), what the
environment can do between two instruction boundaries (R8, R430), and the free values: opaque constants, so that no
proof can know what they are. -/

namespace Sys2Proof.Config

/-- Mask option 2, `BZ_FREQ`: the buzzer clock is fSYS divided by this (R6). -/
inductive BuzzerClock where
  | div4 | div8 | div16 | div32
deriving DecidableEq, Repr, Inhabited

/-- Mask option 8, `LCD_CLK`: the LCD driver clock is fSYS divided by this (R6). -/
inductive LcdClock where
  | div8 | div16 | div32 | div64
deriving DecidableEq, Repr, Inhabited

/-- Mask option 7, `LCD_DUTY` (R6): two commons (14 x 2) or three (13 x 3). -/
inductive LcdDuty where
  | half | third
deriving DecidableEq, Repr, Inhabited

/-- The eight mask options of R6, in the source's order. They are fixed when the part is made; no instruction reads or
writes them. -/
structure MaskOptions where
  /-- option 1, `WDT_EN`: the watchdog is enabled. -/
  wdtEn : Bool
  /-- option 2, `BZ_FREQ`. -/
  bzFreq : BuzzerClock
  /-- option 3, `PA01_BZ`: PA0 and PA1 are buzzer outputs in output mode. -/
  pa01Bz : Bool
  /-- option 4, `PA2_EL`: PA2 is the EL carrier output in output mode. -/
  pa2El : Bool
  /-- option 5, `OSC_LCD_ON_AT_HALT`: oscillator and LCD stay on in HALT. -/
  oscOnAtHalt : Bool
  /-- option 6, `PA_PULLHIGH`: input lines of port A have their pull-high resistor. -/
  paPullHigh : Bool
  /-- option 7, `LCD_DUTY`. -/
  lcdDuty : LcdDuty
  /-- option 8, `LCD_CLK`. -/
  lcdClk : LcdClock
deriving DecidableEq, Repr, Inhabited

/-- The parameter `ENC` (R8, R121, decision D1): the default of the spec, or any other encoding, given by the list of its
words and of what each of them stands for. A word that is not listed is illegal. -/
inductive Encoding where
  /-- the default: the table of R125. -/
  | provisional
  /-- another encoding. -/
  | listed (table : List (Word × Instr))
deriving DecidableEq, Repr, Inhabited

/-- The parameters of one run: the mask options (R6) and the questions the spec leaves open as parameters (R8). -/
structure Params where
  mask : MaskOptions
  /-- `ENC`: the encoding the core decodes with (R121, D1). -/
  enc : Encoding
  /-- `INT_SLIP` = 1: one more instruction may run before an interrupt is acknowledged (R306, D12). -/
  intSlip : Bool
  /-- `TF_WAKES_HALT`: a timer/event counter overflow ends HALT (R366, D20). -/
  tfWakesHalt : Bool
  /-- `LVD_SETTLE`: instruction cycles after BON goes to 1 during which BLF is unknown (R352, D31). -/
  lvdSettle : Nat
deriving DecidableEq, Repr, Inhabited

/-- One event outside the system clock that a counter can see (R333, R334, R335). -/
inductive PinEvent where
  /-- a low to high transition on pad RCIN -/
  | rcinRise
  /-- a high to low transition on pad RCIN -/
  | rcinFall
  /-- one cycle of the RC oscillation that clocks timer B in A/D converter mode -/
  | rcCycle
deriving DecidableEq, Repr, Inhabited

/-- What the environment does from one instruction boundary to the next (R8, R319, R430), and the choices that R319,
R321, R306 and R365 leave to it. Nothing relates one sample to another. -/
structure EnvSample where
  /-- `PAD_IN`: the levels on the pads PA0 to PA7 at the end of the period. -/
  pads : Byte
  /-- the RCIN edges and RC oscillation cycles: the n-th list holds those that come before the n-th system clock of the
  period, and what is left after the last clock comes after it. -/
  pins : List (List PinEvent)
  /-- `VDD_LOW`: VDD is below the low voltage detector's threshold. -/
  vddLow : Bool
  /-- `RES_N` is low: the reset pad is pulled low (R401). -/
  resLow : Bool
  /-- VDD was removed and came back: a power-on reset (R400, R430). -/
  powerOn : Bool
  /-- the watchdog times out now, if it is inside its window (R321). -/
  wdtStrike : Bool
  /-- the port stimulus of this period, if a pad level changed, is one that ends HALT (`PA_WAKE`, R365). -/
  paWake : Bool
  /-- the number of system clocks the counter sees in an instruction that starts or stops it or reads TMRAH, before it is
  brought into 0 to 4n (R319, R337). -/
  seen : Nat
  /-- which of the events in `pins` the counter misses in such an instruction: the k-th event of the n-th list is missed where
  the k-th mark of the n-th list here is true, and one without a mark is seen (R337; log entry 21). -/
  missed : List (List Bool)
  /-- with `INT_SLIP` = 1: this boundary lets one more instruction run first (R306). -/
  slip : Bool
deriving DecidableEq, Repr, Inhabited

/-- FREE VALUE. The parameters of the part at hand (R6, R8). -/
opaque part : Params

/-- FREE VALUE. The mask contents of a program word that the run's program does not list (R43; `ROM` of R8). -/
opaque maskRom : PAddr → Word

/-- FREE VALUE. The environment's n-th sample, for a state that carries no sample of its own (R8). -/
opaque environment : Nat → EnvSample

/-- FREE VALUE. `draw(1)`, by the number of the draw (R11). -/
opaque freeBit : Nat → Bool

/-- FREE VALUE. `draw(8)`, by the number of the draw (R11). -/
opaque freeByte : Nat → Byte

/-- FREE VALUE. `draw(10)`, by the number of the draw (R11). -/
opaque freePAddr : Nat → PAddr

/-- FREE VALUE. `draw(15)`, by the number of the draw (R11). -/
opaque freePhase : Nat → BitVec 15

/-- FREE VALUE. `draw(16)`, by the number of the draw (R11). -/
opaque freeWord : Nat → Word

end Sys2Proof.Config
end

