-- ==== Sys2Proof/WellFormed.lean ====
section
/-! DEFINITION. The check of the one operand that is a number and not a bit field: a bit number is 0 to 7 (R10, R123). The
widths of `m`, `x` and `addr` are in their types. -/

namespace Sys2Proof

/-- A bit number is "0~7 number of bits" (R10). -/
def bitNumberOk (i : Nat) : Bool := i < 8

/-- The instruction can be encoded: every bit number is 0 to 7 (R123). -/
def Instr.wf : Instr → Bool
  | .addAm _ => true
  | .addmAm _ => true
  | .addAx _ => true
  | .adcAm _ => true
  | .adcmAm _ => true
  | .subAx _ => true
  | .subAm _ => true
  | .submAm _ => true
  | .sbcAm _ => true
  | .sbcmAm _ => true
  | .daa _ => true
  | .andAm _ => true
  | .orAm _ => true
  | .xorAm _ => true
  | .andmAm _ => true
  | .ormAm _ => true
  | .xormAm _ => true
  | .andAx _ => true
  | .orAx _ => true
  | .xorAx _ => true
  | .cpl _ => true
  | .cpla _ => true
  | .inca _ => true
  | .inc _ => true
  | .deca _ => true
  | .dec _ => true
  | .rra _ => true
  | .rr _ => true
  | .rrca _ => true
  | .rrc _ => true
  | .rla _ => true
  | .rl _ => true
  | .rlca _ => true
  | .rlc _ => true
  | .movAm _ => true
  | .movmA _ => true
  | .movAx _ => true
  | .clrBit _ i => bitNumberOk i
  | .setBit _ i => bitNumberOk i
  | .jmp _ => true
  | .sz _ => true
  | .sza _ => true
  | .szBit _ i => bitNumberOk i
  | .snzBit _ i => bitNumberOk i
  | .siz _ => true
  | .sdz _ => true
  | .siza _ => true
  | .sdza _ => true
  | .call _ => true
  | .ret => true
  | .retAx _ => true
  | .reti => true
  | .tabrdc _ => true
  | .tabrdl _ => true
  | .nop => true
  | .clrMem _ => true
  | .setMem _ => true
  | .clrWdt => true
  | .clrWdt1 => true
  | .clrWdt2 => true
  | .swap _ => true
  | .swapa _ => true
  | .halt => true

end Sys2Proof
end

