-- ==== Sys2Proof/Decode.lean ====
section
/-! DEFINITION. The decoder and the encoder (R122 to R126), written from the table of R125, and the same two for any
value of the parameter `ENC`. The bit patterns of R125 are the spec's own default of that parameter (R121, decision D1; log
entry 1). -/

namespace Sys2Proof

/-- `m = word[6:0]` (R123). -/
def fieldM (w : Word) : DAddr := w.extractLsb' 0 7

/-- `x = word[7:0]` (R123). -/
def fieldX (w : Word) : Byte := w.extractLsb' 0 8

/-- `addr = word[9:0]` (R123). -/
def fieldAddr (w : Word) : PAddr := w.extractLsb' 0 10

/-- `i = word[9:7]` (R123), a number from 0 to 7. -/
def fieldI (w : Word) : Nat := (w.extractLsb' 7 3).toNat

/-- Why a word is not decoded. -/
inductive DecodeError where
  /-- the word matches no row of the opcode map (R126). -/
  | illegalWord (w : Word)
deriving DecidableEq, Repr

/-- One row of the opcode map: a word belongs to it when `word & mask == pattern` (R124), and then stands for `build word`. -/
structure OpcodeRow where
  pattern : Word
  mask : Word
  build : Word → Instr

/-- `word & mask == match` (R124). -/
def OpcodeRow.hits (r : OpcodeRow) (w : Word) : Bool := w &&& r.mask == r.pattern

/-- The rows of 40_arithmetic.md (R125, rows 1 to 11). -/
def arithmeticRows : List OpcodeRow :=
  [ ⟨0x0300#16, 0xFF80#16, fun w => .addAm (fieldM w)⟩,
    ⟨0x0380#16, 0xFF80#16, fun w => .addmAm (fieldM w)⟩,
    ⟨0x0B00#16, 0xFF00#16, fun w => .addAx (fieldX w)⟩,
    ⟨0x1300#16, 0xFF80#16, fun w => .adcAm (fieldM w)⟩,
    ⟨0x1380#16, 0xFF80#16, fun w => .adcmAm (fieldM w)⟩,
    ⟨0x0A00#16, 0xFF00#16, fun w => .subAx (fieldX w)⟩,
    ⟨0x0200#16, 0xFF80#16, fun w => .subAm (fieldM w)⟩,
    ⟨0x0280#16, 0xFF80#16, fun w => .submAm (fieldM w)⟩,
    ⟨0x1200#16, 0xFF80#16, fun w => .sbcAm (fieldM w)⟩,
    ⟨0x1280#16, 0xFF80#16, fun w => .sbcmAm (fieldM w)⟩,
    ⟨0x1E80#16, 0xFF80#16, fun w => .daa (fieldM w)⟩ ]

/-- The rows of 41_logic.md (R125, rows 12 to 22). -/
def logicRows : List OpcodeRow :=
  [ ⟨0x0600#16, 0xFF80#16, fun w => .andAm (fieldM w)⟩,
    ⟨0x0500#16, 0xFF80#16, fun w => .orAm (fieldM w)⟩,
    ⟨0x0400#16, 0xFF80#16, fun w => .xorAm (fieldM w)⟩,
    ⟨0x0680#16, 0xFF80#16, fun w => .andmAm (fieldM w)⟩,
    ⟨0x0580#16, 0xFF80#16, fun w => .ormAm (fieldM w)⟩,
    ⟨0x0480#16, 0xFF80#16, fun w => .xormAm (fieldM w)⟩,
    ⟨0x0E00#16, 0xFF00#16, fun w => .andAx (fieldX w)⟩,
    ⟨0x0D00#16, 0xFF00#16, fun w => .orAx (fieldX w)⟩,
    ⟨0x0C00#16, 0xFF00#16, fun w => .xorAx (fieldX w)⟩,
    ⟨0x0180#16, 0xFF80#16, fun w => .cpl (fieldM w)⟩,
    ⟨0x0100#16, 0xFF80#16, fun w => .cpla (fieldM w)⟩ ]

/-- The rows of 42_incdec.md (R125, rows 23 to 26). -/
def incDecRows : List OpcodeRow :=
  [ ⟨0x1400#16, 0xFF80#16, fun w => .inca (fieldM w)⟩,
    ⟨0x1480#16, 0xFF80#16, fun w => .inc (fieldM w)⟩,
    ⟨0x1500#16, 0xFF80#16, fun w => .deca (fieldM w)⟩,
    ⟨0x1580#16, 0xFF80#16, fun w => .dec (fieldM w)⟩ ]

/-- The rows of 43_rotate.md (R125, rows 27 to 34). -/
def rotateRows : List OpcodeRow :=
  [ ⟨0x1900#16, 0xFF80#16, fun w => .rra (fieldM w)⟩,
    ⟨0x1980#16, 0xFF80#16, fun w => .rr (fieldM w)⟩,
    ⟨0x1B00#16, 0xFF80#16, fun w => .rrca (fieldM w)⟩,
    ⟨0x1B80#16, 0xFF80#16, fun w => .rrc (fieldM w)⟩,
    ⟨0x1800#16, 0xFF80#16, fun w => .rla (fieldM w)⟩,
    ⟨0x1880#16, 0xFF80#16, fun w => .rl (fieldM w)⟩,
    ⟨0x1A00#16, 0xFF80#16, fun w => .rlca (fieldM w)⟩,
    ⟨0x1A80#16, 0xFF80#16, fun w => .rlc (fieldM w)⟩ ]

/-- The rows of 44_datamove.md (R125, rows 35 to 37). -/
def dataMoveRows : List OpcodeRow :=
  [ ⟨0x0700#16, 0xFF80#16, fun w => .movAm (fieldM w)⟩,
    ⟨0x0080#16, 0xFF80#16, fun w => .movmA (fieldM w)⟩,
    ⟨0x0F00#16, 0xFF00#16, fun w => .movAx (fieldX w)⟩ ]

/-- The rows of 45_bitop.md (R125, rows 38 to 39). -/
def bitOpRows : List OpcodeRow :=
  [ ⟨0x3400#16, 0xFC00#16, fun w => .clrBit (fieldM w) (fieldI w)⟩,
    ⟨0x3000#16, 0xFC00#16, fun w => .setBit (fieldM w) (fieldI w)⟩ ]

/-- The rows of 46_branch.md (R125, rows 40 to 52). -/
def branchRows : List OpcodeRow :=
  [ ⟨0x2800#16, 0xFC00#16, fun w => .jmp (fieldAddr w)⟩,
    ⟨0x1080#16, 0xFF80#16, fun w => .sz (fieldM w)⟩,
    ⟨0x1000#16, 0xFF80#16, fun w => .sza (fieldM w)⟩,
    ⟨0x3C00#16, 0xFC00#16, fun w => .szBit (fieldM w) (fieldI w)⟩,
    ⟨0x3800#16, 0xFC00#16, fun w => .snzBit (fieldM w) (fieldI w)⟩,
    ⟨0x1680#16, 0xFF80#16, fun w => .siz (fieldM w)⟩,
    ⟨0x1780#16, 0xFF80#16, fun w => .sdz (fieldM w)⟩,
    ⟨0x1600#16, 0xFF80#16, fun w => .siza (fieldM w)⟩,
    ⟨0x1700#16, 0xFF80#16, fun w => .sdza (fieldM w)⟩,
    ⟨0x2000#16, 0xFC00#16, fun w => .call (fieldAddr w)⟩,
    ⟨0x0003#16, 0xFFFF#16, fun _ => .ret⟩,
    ⟨0x0900#16, 0xFF00#16, fun w => .retAx (fieldX w)⟩,
    ⟨0x0004#16, 0xFFFF#16, fun _ => .reti⟩ ]

/-- The rows of 47_tableread.md (R125, rows 53 to 54). -/
def tableReadRows : List OpcodeRow :=
  [ ⟨0x1D00#16, 0xFF80#16, fun w => .tabrdc (fieldM w)⟩,
    ⟨0x1D80#16, 0xFF80#16, fun w => .tabrdl (fieldM w)⟩ ]

/-- The rows of 48_misc.md (R125, rows 55 to 63). -/
def miscRows : List OpcodeRow :=
  [ ⟨0x0000#16, 0xFFFF#16, fun _ => .nop⟩,
    ⟨0x1F00#16, 0xFF80#16, fun w => .clrMem (fieldM w)⟩,
    ⟨0x1F80#16, 0xFF80#16, fun w => .setMem (fieldM w)⟩,
    ⟨0x0001#16, 0xFFFF#16, fun _ => .clrWdt⟩,
    ⟨0x0006#16, 0xFFFF#16, fun _ => .clrWdt1⟩,
    ⟨0x0005#16, 0xFFFF#16, fun _ => .clrWdt2⟩,
    ⟨0x1180#16, 0xFF80#16, fun w => .swap (fieldM w)⟩,
    ⟨0x1100#16, 0xFF80#16, fun w => .swapa (fieldM w)⟩,
    ⟨0x0002#16, 0xFFFF#16, fun _ => .halt⟩ ]

/-- The opcode map, all 63 rows in the order of R125. -/
def opcodeMap : List OpcodeRow :=
  arithmeticRows ++ logicRows ++ incDecRows ++ rotateRows ++ dataMoveRows ++
    bitOpRows ++ branchRows ++ tableReadRows ++ miscRows

/-- The first row of a list that a word belongs to. -/
def findRow : List OpcodeRow → Word → Option OpcodeRow
  | [], _ => none
  | r :: rs, w => if r.hits w then some r else findRow rs w

/-- The decoder (R124): total on 16-bit words, and an unassigned word is rejected by name (R126). -/
def decode (w : Word) : Except DecodeError Instr :=
  match findRow opcodeMap w with
  | some r => .ok (r.build w)
  | none => .error (.illegalWord w)

/-- A word with a 7-bit memory operand in bits 6:0 (format `M`, R122). -/
def encodeM (pattern : Word) (m : DAddr) : Word := pattern ||| m.setWidth 16

/-- A word with 8-bit immediate data in bits 7:0 (format `I`, R122). -/
def encodeI (pattern : Word) (x : Byte) : Word := pattern ||| x.setWidth 16

/-- A word with a 10-bit program address in bits 9:0 (format `A`, R122). -/
def encodeA (pattern : Word) (addr : PAddr) : Word := pattern ||| addr.setWidth 16

/-- A word with a bit number in bits 9:7 and a memory operand in bits 6:0 (format `B`, R122). -/
def encodeB (pattern : Word) (m : DAddr) (i : Nat) : Word :=
  pattern ||| (BitVec.ofNat 16 (i % 8) <<< 7) ||| m.setWidth 16

/-- The encoder (R121, R125): the one program word of an instruction. -/
def encode : Instr → Word
  | .addAm m => encodeM 0x0300#16 m
  | .addmAm m => encodeM 0x0380#16 m
  | .addAx x => encodeI 0x0B00#16 x
  | .adcAm m => encodeM 0x1300#16 m
  | .adcmAm m => encodeM 0x1380#16 m
  | .subAx x => encodeI 0x0A00#16 x
  | .subAm m => encodeM 0x0200#16 m
  | .submAm m => encodeM 0x0280#16 m
  | .sbcAm m => encodeM 0x1200#16 m
  | .sbcmAm m => encodeM 0x1280#16 m
  | .daa m => encodeM 0x1E80#16 m
  | .andAm m => encodeM 0x0600#16 m
  | .orAm m => encodeM 0x0500#16 m
  | .xorAm m => encodeM 0x0400#16 m
  | .andmAm m => encodeM 0x0680#16 m
  | .ormAm m => encodeM 0x0580#16 m
  | .xormAm m => encodeM 0x0480#16 m
  | .andAx x => encodeI 0x0E00#16 x
  | .orAx x => encodeI 0x0D00#16 x
  | .xorAx x => encodeI 0x0C00#16 x
  | .cpl m => encodeM 0x0180#16 m
  | .cpla m => encodeM 0x0100#16 m
  | .inca m => encodeM 0x1400#16 m
  | .inc m => encodeM 0x1480#16 m
  | .deca m => encodeM 0x1500#16 m
  | .dec m => encodeM 0x1580#16 m
  | .rra m => encodeM 0x1900#16 m
  | .rr m => encodeM 0x1980#16 m
  | .rrca m => encodeM 0x1B00#16 m
  | .rrc m => encodeM 0x1B80#16 m
  | .rla m => encodeM 0x1800#16 m
  | .rl m => encodeM 0x1880#16 m
  | .rlca m => encodeM 0x1A00#16 m
  | .rlc m => encodeM 0x1A80#16 m
  | .movAm m => encodeM 0x0700#16 m
  | .movmA m => encodeM 0x0080#16 m
  | .movAx x => encodeI 0x0F00#16 x
  | .clrBit m i => encodeB 0x3400#16 m i
  | .setBit m i => encodeB 0x3000#16 m i
  | .jmp addr => encodeA 0x2800#16 addr
  | .sz m => encodeM 0x1080#16 m
  | .sza m => encodeM 0x1000#16 m
  | .szBit m i => encodeB 0x3C00#16 m i
  | .snzBit m i => encodeB 0x3800#16 m i
  | .siz m => encodeM 0x1680#16 m
  | .sdz m => encodeM 0x1780#16 m
  | .siza m => encodeM 0x1600#16 m
  | .sdza m => encodeM 0x1700#16 m
  | .call addr => encodeA 0x2000#16 addr
  | .ret => 0x0003#16
  | .retAx x => encodeI 0x0900#16 x
  | .reti => 0x0004#16
  | .tabrdc m => encodeM 0x1D00#16 m
  | .tabrdl m => encodeM 0x1D80#16 m
  | .nop => 0x0000#16
  | .clrMem m => encodeM 0x1F00#16 m
  | .setMem m => encodeM 0x1F80#16 m
  | .clrWdt => 0x0001#16
  | .clrWdt1 => 0x0006#16
  | .clrWdt2 => 0x0005#16
  | .swap m => encodeM 0x1180#16 m
  | .swapa m => encodeM 0x1100#16 m
  | .halt => 0x0002#16

/-! ## The parameter ENC -/

/-- The decoder of an encoding (R121, R124): the default is `decode`; under another one a word stands for the well-formed
instruction that the list gives it, and any other word is illegal (R126). -/
def Config.Encoding.decode : Config.Encoding → Word → Except DecodeError Instr
  | .provisional, w => Sys2Proof.decode w
  | .listed table, w =>
    match table.lookup w with
    | some i => if i.wf then .ok i else .error (.illegalWord w)
    | none => .error (.illegalWord w)

/-- The encoder of an encoding (R121), which gives no word to an instruction that the encoding does not list. -/
def Config.Encoding.encode : Config.Encoding → Instr → Option Word
  | .provisional, i => some (Sys2Proof.encode i)
  | .listed table, i => (table.find? fun row => row.2 == i).map (·.1)

/-- What the decoder reads from an instruction whose bits are `w`, numbered as the opcode table numbers them: one program
word, whose bits above `nbits` are 0. -/
def decodeTableWord (nbits w : Nat) : Option Instr :=
  match decode (BitVec.ofNat 16 (w % 2 ^ nbits)) with
  | .ok i => some i
  | .error _ => none

end Sys2Proof
end

