-- ==== Sys2Proof/Machine/State.lean ====
section
/-! DEFINITION. The state of the machine (`10_state.md`), as plain data, the reasons a step can stop, and the state right
after power-on reset (R60, R61). -/

namespace Sys2Proof.Machine

open Sys2Proof.Config

/-- The six flags of STATUS (0AH; R28). -/
structure Flags where
  /-- bit 0, carry. -/
  c : Bool
  /-- bit 1, auxiliary carry. -/
  ac : Bool
  /-- bit 2, zero. -/
  z : Bool
  /-- bit 3, overflow. -/
  ov : Bool
  /-- bit 4, power down. -/
  pdf : Bool
  /-- bit 5, TO, watchdog time-out. -/
  timeOut : Bool
deriving DecidableEq, Repr

/-- The five bits of INTC (0BH; R35). -/
structure Intc where
  /-- bit 0, master enable. -/
  emi : Bool
  /-- bit 1, timer/event counter interrupt enable. -/
  eti : Bool
  /-- bit 2, time base interrupt enable. -/
  etbi : Bool
  /-- bit 4, timer/event counter request. -/
  tf : Bool
  /-- bit 5, time base request. -/
  tbf : Bool
deriving DecidableEq, Repr

/-- Port A (R36, R37, R47). -/
structure Port where
  /-- `PA_LATCH`, the data register 12H. -/
  latch : Byte
  /-- PAC, the control register 13H; 1 = input. -/
  pac : Byte
  /-- `PAD_IN`, the levels on the pads, an input from the environment. -/
  pads : Byte
deriving DecidableEq, Repr

/-- The four bits of TMRC (22H; R38). -/
structure Tmrc where
  /-- bit 3, active edge. -/
  te : Bool
  /-- bit 4, counting enabled. -/
  ton : Bool
  /-- bit 5. -/
  tm0 : Bool
  /-- bit 6. -/
  tm1 : Bool
deriving DecidableEq, Repr

/-- The five bits of ADCR (25H; R39). -/
structure Adcr where
  /-- bit 0, OVB/OVA: the counter whose overflow sets TF in A/D converter mode (true = timer B). -/
  ovb : Bool
  /-- bit 1, ADC/TM: true = RC type A/D converter. -/
  adc : Bool
  /-- bit 2, MODE: true = RSEN oscillation. -/
  mode : Bool
  /-- bit 3, low voltage detector enable. -/
  bon : Bool
  /-- bit 4, low voltage flag. -/
  blf : Bool
deriving DecidableEq, Repr

/-- `LBUF_SRC`: the use that filled the low byte buffer last (R44, decision D15). -/
inductive BufSource where
  | none | wrA | wrB | rdA | rdB
deriving DecidableEq, Repr

/-- The hidden state of the timer/event counter and A/D converter (R44). -/
structure Timer where
  /-- timer A. -/
  ta : Word
  /-- timer B, or the preload register. -/
  tb : Word
  /-- the low byte buffer. -/
  lbuf : Byte
  /-- the use that filled it. -/
  src : BufSource
  /-- a pulse-width measurement waits for its start edge or runs. -/
  pwArmed : Bool
  /-- a pulse-width measurement runs. -/
  pwRun : Bool
deriving DecidableEq, Repr

/-- The watchdog (R45, R46). -/
structure Wdt where
  /-- `WDT_AGE`, system clocks since the last clear. -/
  age : Nat
  /-- CLR WDT1 has been executed since the last clear. -/
  w1 : Bool
  /-- CLR WDT2 has been executed since the last clear. -/
  w2 : Bool
deriving DecidableEq, Repr

/-- The two interrupt sources (R302). -/
inductive IntSource where
  | timer | timeBase
deriving DecidableEq, Repr

/-- The state of the machine. The fields up to `lvdAge` are the spec's (`lvdAge` counts what R352 counts); the fields after
it are the model's own: the parameters of the run and what one deterministic step needs. -/
structure State where
  /-- the accumulator, location 05H (R21). -/
  acc : Byte
  /-- MP0, location 01H (R22). -/
  mp0 : Byte
  /-- MP1, location 03H (R22). -/
  mp1 : Byte
  /-- the bank pointer, location 04H (R23). -/
  bp : Byte
  /-- the program counter (R24). -/
  pc : PAddr
  /-- stack cell `STK[0]` (R27). -/
  stk0 : PAddr
  /-- stack cell `STK[1]` (R27). -/
  stk1 : PAddr
  /-- `SP`, the number of return addresses held (R27). -/
  sp : Fin 3
  /-- the table pointer, location 07H (R32). -/
  tblp : Byte
  /-- the table higher-order byte register, location 08H (R33). -/
  tblh : Byte
  /-- STATUS, location 0AH (R28). -/
  flags : Flags
  /-- INTC, location 0BH (R35). -/
  intc : Intc
  /-- RT2 to RT0 of TBC, location 09H (R34). -/
  rt : BitVec 3
  /-- port A, locations 12H and 13H (R36, R37, R47). -/
  port : Port
  /-- TMRC, location 22H (R38). -/
  tmrc : Tmrc
  /-- ADCR, location 25H (R39). -/
  adcr : Adcr
  /-- what stands behind locations 20H, 21H, 23H and 24H (R40, R44). -/
  timer : Timer
  /-- the data memory: RAM at keys 60H to 7FH (R41), LCD display memory at keys 140H to 14DH (R42). -/
  mem : List Host.Cell
  /-- `MFT`, the multi-function timer (R45). -/
  mft : BitVec 15
  /-- the watchdog (R45, R46). -/
  wdt : Wdt
  /-- `HALTED` (R48). -/
  halted : Bool
  /-- `TBF_AT_HALT` (R48). -/
  tbfAtHalt : Bool
  /-- instruction cycles since BON went to 1 (R352). -/
  lvdAge : Nat
  /-- MODEL: the interrupt acknowledged at the last boundary, whose entry sequence runs instead of the next fetch (R306). -/
  entering : Option IntSource
  /-- MODEL: an acknowledge, of whichever interrupt, has been put off by one instruction (`INT_SLIP`, R306; log entry 37). -/
  slipped : Bool
  /-- MODEL: the last sample of the RES pad was low (R401). -/
  resLow : Bool
  /-- PARAMETER: the program words the run lists (R43); no step changes them. -/
  rom : List (Nat × Word)
  /-- PARAMETER: the mask options, the encoding and the open parameters of the run (R6, R8); no step changes them. -/
  par : Params
  /-- INPUT: the environment's coming samples (R8), the next one first; after the last one, free values. -/
  env : List EnvSample
  /-- MODEL: how many draws have been made (R11). -/
  draws : Nat
deriving DecidableEq, Repr

/-- The named stops of the spec (R300), which are stops of the model and no event of the chip. Every one is SAFE: the model
stops where the chip goes on, so nothing false can be proved of what follows. -/
inductive Fault where
  /-- raised by `step` for a fetched word that matches no row of the opcode map (R126, U1). Safe. -/
  | illegalWord (a : PAddr) (w : Word)
  /-- raised by RET, RET A,x and RETI with nothing on the stack (R27, U3). Safe. -/
  | stackUnderflow
  /-- raised by an access through `[02H]` with BP neither 00H nor 01H (R81, U4). Safe. -/
  | badBank
  /-- raised by an access through a pointer that holds 80H or more (R89, U2). Safe. -/
  | unmappedData
  /-- raised by an access through `[02H]` with BP = 01H and MP1 outside 40H to 4DH (R99, U7). Safe. -/
  | unmappedBank1
deriving DecidableEq, Repr

/-- The refusals of the spec (`93_implementation_defined.md`), each named after its U entry. Every one is SAFE: the model
stops where the chip goes on. -/
inductive Refusal where
  /-- raised by `exec` for an instruction without a meaning; no arm raises it. Safe. -/
  | notModelled (mnemonic : String)
  /-- U5: raised by an instruction that writes flags of its own and has STATUS as its destination (R30). Safe. -/
  | statusCollision
  /-- U6: raised by SIZ and SDZ with PCL as operand (R85, R231, R232). Safe. -/
  | skipOnPcl
  /-- U9: raised by a read of 23H or 24H or a write of 20H or 21H in timer/event counter mode (R95). Safe. -/
  | timerAccessUndescribed
  /-- U10: raised by an access to 20H, 21H, 23H or 24H while converting, or by another instruction than MOV (R97, R98).
  Safe. -/
  | timerAccessForbidden
  /-- U13: raised when TON would be 1 in a mode the part does not use (R330, R335). Safe. -/
  | unusedCountMode
  /-- U14: raised by a write that changes TM1, TM0, TE or ADC/TM while the counter stays on (R331, R338). Safe. -/
  | modeChangeWhileOn
  /-- U15: raised when the counter that OVB/OVA does not select overflows in A/D converter mode (R335). Safe. -/
  | unselectedOverflow
  /-- U16: raised by HALT with the counter on in event, pulse-width or A/D converter mode (R362). Safe. -/
  | haltWhileCounting
deriving DecidableEq, Repr

/-- What a step or a meaning answers. -/
abbrev Result := Host.Outcome State Fault Refusal

/-- The machine right after power-on: the column POR of R60, and R61. The spec gives no value for what it marks `x` or does
not list; those fields hold the values that log entry 2 names. The parameters are those of any part, with the default of `ENC`
(R121; log entries 1 and 6). -/
def State.reset : State where
  acc := 0
  mp0 := 0
  mp1 := 0
  bp := 0
  pc := 0
  stk0 := 0
  stk1 := 0
  sp := 0
  tblp := 0
  tblh := 0
  flags := { c := false, ac := false, z := false, ov := false, pdf := false, timeOut := false }
  intc := { emi := false, eti := false, etbi := false, tf := false, tbf := false }
  rt := 7
  port := { latch := 0xFF, pac := 0xFF, pads := 0xFF }
  tmrc := { te := true, ton := false, tm0 := false, tm1 := false }
  adcr := { ovb := false, adc := false, mode := false, bon := false, blf := false }
  timer := { ta := 0, tb := 0, lbuf := 0, src := .none, pwArmed := false, pwRun := false }
  mem := []
  mft := 0
  wdt := { age := 0, w1 := false, w2 := false }
  halted := false
  tbfAtHalt := false
  lvdAge := 0
  entering := none
  slipped := false
  resLow := false
  rom := []
  par := { part with enc := .provisional }
  env := []
  draws := 0

end Sys2Proof.Machine
end

