-- ==== Sys2Proof/Machine/Flags.lean ====
section
/-! DEFINITION. Every computation of a result and of the flags: the adder (R151), the zero flag (R170, R190), the rotates
(R209), the decimal adjustment (R163), the nibble swap (R261) and the bit operations (R220, R221). -/

namespace Sys2Proof.Machine

/-- What the adder answers: the 8-bit result and its four flags (R151). -/
structure Sum where
  r : Byte
  c : Bool
  ac : Bool
  ov : Bool
  z : Bool
deriving DecidableEq, Repr

/-- The adder of every addition and subtraction (R151). -/
def add8 (p q : Byte) (cin : Bool) : Sum :=
  let s := p.toNat + q.toNat + cin.toNat
  let r := BitVec.ofNat 8 s
  let c := decide (256 ≤ s)
  let c6 := decide (128 ≤ p.toNat % 128 + q.toNat % 128 + cin.toNat)
  { r := r
    c := c
    ac := decide (16 ≤ p.toNat % 16 + q.toNat % 16 + cin.toNat)
    ov := c6 ^^ c
    z := r == 0 }

/-- Subtraction is addition of the one's complement (R151): `SUB` with carry-in 1, `SBC` with the carry flag. -/
def sub8 (p q : Byte) (cin : Bool) : Sum := add8 p (~~~q) cin

/-- The flags after an addition or subtraction: `Z, C, AC, OV` from the adder, `TO, PDF` unchanged (R29). -/
def Flags.afterSum (f : Flags) (s : Sum) : Flags := { f with c := s.c, ac := s.ac, ov := s.ov, z := s.z }

/-- `setZ(r)`: only `Z` is written (R170, R190). -/
def Flags.withZ (f : Flags) (r : Byte) : Flags := { f with z := r == 0 }

/-- Only `C` is written (R200, R163). -/
def Flags.withC (f : Flags) (c : Bool) : Flags := { f with c := c }

/-- `rol(v)`: bit 7 re-enters at bit 0 (R209). -/
def rol (v : Byte) : Byte := BitVec.ofNat 8 (v.toNat * 2 % 256 + v.toNat / 128)

/-- `ror(v)`: bit 0 re-enters at bit 7 (R209). -/
def ror (v : Byte) : Byte := BitVec.ofNat 8 (v.toNat / 2 + 128 * (v.toNat % 2))

/-- The result of `rolc(v, c)`: the old carry enters at bit 0 (R209). -/
def rolc (v : Byte) (c : Bool) : Byte := BitVec.ofNat 8 (v.toNat * 2 % 256 + c.toNat)

/-- The new carry of `rolc`: the old bit 7 (R209). -/
def rolcCarry (v : Byte) : Bool := v.getLsbD 7

/-- The result of `rorc(v, c)`: the old carry enters at bit 7 (R209). -/
def rorc (v : Byte) (c : Bool) : Byte := BitVec.ofNat 8 (v.toNat / 2 + 128 * c.toNat)

/-- The new carry of `rorc`: the old bit 0 (R209). -/
def rorcCarry (v : Byte) : Bool := v.getLsbD 0

/-- The internal carry `AC1` of the decimal adjustment: the low nibble is above 9 (R163, decision D27). -/
def daaAc1 (a : Byte) : Bool := decide (9 < a.toNat % 16)

/-- The low nibble of the decimal adjustment (R163). -/
def daaLow (a : Byte) (ac : Bool) : Nat :=
  let lo := a.toNat % 16
  if daaAc1 a || ac then (lo + 6) % 16 else lo

/-- The high nibble of the decimal adjustment takes the correction by 6 (R163). -/
def daaHighAdjusts (a : Byte) (c : Bool) : Bool := decide (9 < a.toNat / 16 + (daaAc1 a).toNat) || c

/-- The high nibble of the decimal adjustment (R163). -/
def daaHigh (a : Byte) (c : Bool) : Nat :=
  let hi := a.toNat / 16 + (daaAc1 a).toNat
  if daaHighAdjusts a c then (hi + 6) % 16 else hi % 16

/-- The byte the decimal adjustment writes (R163). -/
def daaResult (a : Byte) (c ac : Bool) : Byte := BitVec.ofNat 8 (16 * daaHigh a c + daaLow a ac)

/-- The carry flag after the decimal adjustment: set where the high nibble is corrected, else unchanged (R163). -/
def daaCarry (a : Byte) (c : Bool) : Bool := if daaHighAdjusts a c then true else c

/-- The two nibbles interchanged (R261). -/
def swapNibbles (v : Byte) : Byte := BitVec.ofNat 8 (v.toNat % 16 * 16 + v.toNat / 16)

/-- The byte with a one at bit `i` alone (R220, R221). -/
def bitMask (i : Nat) : Byte := BitVec.ofNat 8 (2 ^ i)

/-- Bit `i` cleared (R220). -/
def clearBit (v : Byte) (i : Nat) : Byte := v &&& ~~~(bitMask i)

/-- Bit `i` set (R221). -/
def setBit (v : Byte) (i : Nat) : Byte := v ||| bitMask i

end Sys2Proof.Machine
end

