-- ==== Sys2Proof/Machine/Memory.lean ====
section
/-! DEFINITION. The two stores of the machine, data memory (R41, R42) and program words (R43), as lists of address and
content in one canonical form: addresses strictly rising. An unlisted address holds no value of the state's own. -/

namespace Sys2Proof.Machine

/-- The content listed at an address, if any. -/
def lookup {α : Type} : List (Nat × α) → Nat → Option α
  | [], _ => none
  | (k, v) :: rest, a => if k = a then some v else lookup rest a

/-- Write the content of an address, keeping the addresses strictly rising. -/
def update {α : Type} : List (Nat × α) → Nat → α → List (Nat × α)
  | [], a, v => [(a, v)]
  | (k, w) :: rest, a, v =>
    if a < k then (a, v) :: (k, w) :: rest
    else if a = k then (a, v) :: rest
    else (k, w) :: update rest a v

/-- Every listed address is above a bound and the addresses rise strictly. -/
def risingFrom {α : Type} : Nat → List (Nat × α) → Bool
  | _, [] => true
  | b, (k, _) :: rest => decide (b ≤ k) && risingFrom (k + 1) rest

/-- The canonical form of a store. -/
def rising {α : Type} (st : List (Nat × α)) : Bool := risingFrom 0 st

/-- The store's key of RAM location `e` of bank 0 (R41). -/
def ramKey (e : Byte) : Nat := e.toNat

/-- The store's key of LCD display memory location `e` of bank 1 (R42). -/
def lcdKey (e : Byte) : Nat := 256 + e.toNat

/-- The locations that exist as memory: RAM 60H to 7FH of bank 0 (R41) and 40H to 4DH of bank 1 (R42). -/
def memKeyExists (k : Nat) : Bool := (decide (0x60 ≤ k) && decide (k ≤ 0x7F)) || (decide (0x140 ≤ k) && decide (k ≤ 0x14D))

/-- The data memory is in canonical form and lists only locations that exist. -/
def Memory.wf (st : List Host.Cell) : Bool := rising st && st.all fun cell => memKeyExists cell.1

/-- The program words are in canonical form and lie in 000H to 3FFH (R43). -/
def Rom.wf (st : List (Nat × Word)) : Bool := rising st && st.all fun cell => decide (cell.1 < 1024)

end Sys2Proof.Machine
end

