-- ==== Sys2Proof/Machine/Ops.lean ====
section
/-! DEFINITION. The named operations over registers, data memory, program memory and the stack (`10_state.md`,
`20_memory.md`), the watchdog clear (R264), and taking an interrupt and returning from one (R307, R238). -/

namespace Sys2Proof.Machine

open Sys2Proof.Config

/-! ## Program counter, program memory -/

/-- While an instruction executes the PC holds `npc = (a + 1) mod 1024` (R24). -/
def State.advance (s : State) : State := { s with pc := s.pc + 1 }

/-- `RomRead(p)` (R100): the word the run lists, else the mask's own. -/
def romRead (s : State) (p : PAddr) : Word :=
  match lookup s.rom p.toNat with
  | some w => w
  | none => maskRom p

/-- The word an instruction fetch reads, at PC (R43). -/
def fetchWord (s : State) : Word := romRead s s.pc

/-- The target of a load of PCL: bits 9:8 kept, bits 7:0 from the value (R25, R26). -/
def pclTarget (pc : PAddr) (v : Byte) : PAddr := pc.extractLsb' 8 2 ++ v

/-- The table location of TABRDC: the current page and TBLP (R250). `s.pc` is `npc`. -/
def currentPageEntry (s : State) : PAddr := pclTarget s.pc s.tblp

/-- The table location of TABRDL: the last page and TBLP (R250). -/
def lastPageEntry (s : State) : PAddr := 0b11#2 ++ s.tblp

/-- `skip`: `pc <- (a + 2) mod 1024` (R239); `s.pc` is `npc`. -/
def State.skipIf (cond : Bool) (s : State) : State := if cond then { s with pc := s.pc + 1 } else s

/-! ## Stack -/

/-- `Push(v)` (R27): with two entries held the oldest is lost. -/
def push (v : PAddr) (s : State) : State :=
  if s.sp = 0 then { s with stk0 := v, sp := 1 }
  else if s.sp = 1 then { s with stk1 := v, sp := 2 }
  else { s with stk0 := s.stk1, stk1 := v }

/-- `pc <- Pop()` (R27): nothing to pop is the named stop `stackUnderflow`. -/
def popPc (s : State) : Except Fault State :=
  if s.sp = 0 then .error .stackUnderflow
  else if s.sp = 1 then .ok { s with pc := s.stk0, sp := 0 }
  else .ok { s with pc := s.stk1, sp := 1 }

/-! ## Interrupts -/

/-- The vector of an interrupt source (R302). -/
def vector : IntSource → PAddr
  | .timer => 0x004
  | .timeBase => 0x008

/-- INTC after an interrupt is entered: its request flag and EMI are cleared, all else is kept (R307). -/
def Intc.entered (k : IntSource) (i : Intc) : Intc :=
  match k with
  | .timer => { i with tf := false, emi := false }
  | .timeBase => { i with tbf := false, emi := false }

/-- Taking an interrupt: the entry sequence (R307). -/
def takeInterrupt (k : IntSource) (s : State) : State :=
  let s1 := push s.pc s
  { s1 with intc := s1.intc.entered k, pc := vector k, entering := none, slipped := false }

/-- The return from an interrupt: the PC is popped and EMI set, nothing else is restored (R238, R310). -/
def returnFromInterrupt (s : State) : Except Fault State :=
  match popPc s with
  | .error f => .error f
  | .ok s1 => .ok { s1 with intc := { s1.intc with emi := true } }

/-- The interrupt that is acknowledgeable, the timer/event counter first (R305, R308). A core in HALT or held in reset
acknowledges nothing (R48, R401). -/
def pendingInterrupt (s : State) : Option IntSource :=
  if s.halted || s.resLow || !s.intc.emi || s.sp = 2 then none
  else if s.intc.eti && s.intc.tf then some .timer
  else if s.intc.etbi && s.intc.tbf then some .timeBase
  else none

/-! ## Watchdog -/

/-- `ClearWDT()` (R264). -/
def clearWdt (s : State) : State := { s with wdt := { age := 0, w1 := false, w2 := false } }

/-- Where the condition holds, the watchdog is cleared by software: `ClearWDT(); TO <- 0; PDF <- 0` (R258 to R260). -/
def clearWdtIf (c : Bool) (s : State) : State :=
  { s with wdt := if c then (clearWdt s).wdt else s.wdt,
           flags := if c then { s.flags with timeOut := false, pdf := false } else s.flags }

/-! ## Draws -/

/-- `draw(8)` (R11). -/
def drawByte (s : State) : Byte × State := (freeByte s.draws, { s with draws := s.draws + 1 })

/-- `draw(1)` (R11). -/
def drawBit (s : State) : Bool × State := (freeBit s.draws, { s with draws := s.draws + 1 })

/-! ## Resolution of a data-memory operand -/

/-- What an operand `[m]` leads to (R81 to R83): a location of bank 0, a location of the LCD display memory, or an
indirect addressing register reached through a pointer (R88). -/
inductive Target where
  | bank0 (e : Byte)
  | lcd (e : Byte)
  | self
deriving DecidableEq, Repr

/-- A pointer value in bank 0 (R82, R83, R88, R89). -/
def resolveBank0 (e : Byte) : Except Fault Target :=
  if 0x80 ≤ e.toNat then .error .unmappedData
  else if e = 0x00 ∨ e = 0x02 then .ok .self
  else .ok (.bank0 e)

/-- A pointer value in bank 1 (R82, R83, R99). -/
def resolveBank1 (e : Byte) : Except Fault Target :=
  if 0x80 ≤ e.toNat then .error .unmappedData
  else if 0x40 ≤ e.toNat ∧ e.toNat ≤ 0x4D then .ok (.lcd e)
  else .error .unmappedBank1

/-- `Resolve(m)` and the checks of its result (R81 to R83): done once, before the instruction reads anything. -/
def resolve (s : State) (m : DAddr) : Except Fault Target :=
  if m = 0x00 then resolveBank0 s.mp0
  else if m = 0x02 then
    if s.bp = 0x00 then resolveBank0 s.mp1
    else if s.bp = 0x01 then resolveBank1 s.mp1
    else .error .badBank
  else .ok (.bank0 (m.setWidth 8))

/-- The four locations that are ports onto the counters (R40). -/
inductive TimerPort where
  /-- TMRAH, 20H. -/
  | ah
  /-- TMRAL, 21H. -/
  | al
  /-- TMRBH, 23H. -/
  | bh
  /-- TMRBL, 24H. -/
  | bl
deriving DecidableEq, Repr

/-- What stands at an address of bank 0 (R31). -/
inductive Location where
  | mp0 | mp1 | bp | acc | pcl | tblp | tblh | tbc | status | intc | pa | pac
  | timer (p : TimerPort)
  | tmrc | adcr
  /-- general-purpose data memory (R41). -/
  | ram
  /-- reserved (R90), or an indirect addressing register, which never is a target itself (R86, R87). -/
  | reserved
deriving DecidableEq, Repr

/-- The data-memory map of bank 0 (R31). -/
def locate (e : Byte) : Location :=
  match e.toNat with
  | 0x01 => .mp0
  | 0x03 => .mp1
  | 0x04 => .bp
  | 0x05 => .acc
  | 0x06 => .pcl
  | 0x07 => .tblp
  | 0x08 => .tblh
  | 0x09 => .tbc
  | 0x0A => .status
  | 0x0B => .intc
  | 0x12 => .pa
  | 0x13 => .pac
  | 0x20 => .timer .ah
  | 0x21 => .timer .al
  | 0x22 => .tmrc
  | 0x23 => .timer .bh
  | 0x24 => .timer .bl
  | 0x25 => .adcr
  | n => if 0x60 ≤ n then .ram else .reserved

/-- The operand is STATUS (R30). -/
def Target.isStatus (t : Target) : Bool := t = .bank0 0x0A

/-- The operand is PCL (R26). -/
def Target.isPcl (t : Target) : Bool := t = .bank0 0x06

/-- Which instruction makes an access: MOV, or any other (R98). -/
inductive Access where
  | mov | other
deriving DecidableEq, Repr

/-! ## The control registers as bytes (R92) -/

/-- STATUS as a read returns it (R30). -/
def Flags.toByte (f : Flags) : Byte := packBits false false f.timeOut f.pdf f.ov f.z f.ac f.c

/-- A write of STATUS: `C`, `AC`, `Z`, `OV` only (R30). -/
def Flags.written (f : Flags) (v : Byte) : Flags :=
  { f with c := v.getLsbD 0, ac := v.getLsbD 1, z := v.getLsbD 2, ov := v.getLsbD 3 }

/-- INTC as a read returns it (R92). -/
def Intc.toByte (i : Intc) : Byte := packBits false false i.tbf i.tf false i.etbi i.eti i.emi

/-- A write of INTC (R92). -/
def Intc.ofByte (v : Byte) : Intc :=
  { emi := v.getLsbD 0, eti := v.getLsbD 1, etbi := v.getLsbD 2, tf := v.getLsbD 4, tbf := v.getLsbD 5 }

/-- TMRC as a read returns it (R92). -/
def Tmrc.toByte (t : Tmrc) : Byte := packBits false t.tm1 t.tm0 t.ton t.te false false false

/-- A write of TMRC (R92). -/
def Tmrc.ofByte (v : Byte) : Tmrc :=
  { te := v.getLsbD 3, ton := v.getLsbD 4, tm0 := v.getLsbD 5, tm1 := v.getLsbD 6 }

/-- ADCR as a read returns it, with the value BLF reads as (R92). -/
def Adcr.toByte (a : Adcr) (blf : Bool) : Byte := packBits false false false blf a.bon a.mode a.adc a.ovb

/-- A write of ADCR: bits 3:0, BLF kept (R92, decision D31). -/
def Adcr.written (a : Adcr) (v : Byte) : Adcr :=
  { a with ovb := v.getLsbD 0, adc := v.getLsbD 1, mode := v.getLsbD 2, bon := v.getLsbD 3 }

/-- What a read of PA returns: the pad on input lines, the latch on output lines (R93). -/
def Port.read (p : Port) : Byte := (p.pads &&& p.pac) ||| (p.latch &&& ~~~p.pac)

/-! ## The counter's mode -/

/-- What clocks the timer/event counter or A/D converter (R330, R335). -/
inductive CountMode where
  /-- TON = 0. -/
  | off
  /-- TM1, TM0 = 1, 0: fSYS. -/
  | timer
  /-- 0, 1: edges on RCIN. -/
  | event
  /-- 1, 1: fSYS during a pulse on RCIN. -/
  | pulse
  /-- A/D converter, timer A on fSYS. -/
  | adcSys
  /-- A/D converter, timer A on RCIN edges. -/
  | adcExt
  /-- no meaning (R330, R335; U13). -/
  | unused
deriving DecidableEq, Repr

/-- The mode that ADC/TM, TM1 and TM0 select for a running counter (R330, R335). -/
def selectedMode (adc tm1 tm0 : Bool) : CountMode :=
  match adc, tm1, tm0 with
  | false, true, false => .timer
  | false, false, true => .event
  | false, true, true => .pulse
  | false, false, false => .unused
  | true, true, false => .adcSys
  | true, false, true => .adcExt
  | true, true, true => .unused
  | true, false, false => .unused

/-- The mode the counter is in (R330, R335). -/
def countMode (t : Tmrc) (a : Adcr) : CountMode := if t.ton then selectedMode a.adc t.tm1 t.tm0 else .off

/-- The counter is on and is not clocked by fSYS in timer mode: event, pulse-width or A/D converter mode (R362). -/
def countsOutside (s : State) : Bool := s.tmrc.ton && (s.adcr.adc || s.tmrc.tm0)

/-! ## Reads of bank 0 -/

/-- A read of memory: a location the state lists, else a draw (R63, decision D23). -/
def readCell (key : Nat) (s : State) : Byte × State :=
  match lookup s.mem key with
  | some v => (v, s)
  | none => drawByte s

/-- A write of memory (R84, R99). -/
def writeCell (key : Nat) (v : Byte) (s : State) : State := { s with mem := update s.mem key v }

/-- BLF is known: the detector is on and has settled (R352, decision D31). -/
def blfSettled (s : State) : Bool := s.adcr.bon && decide (s.par.lvdSettle ≤ s.lvdAge)

/-- A read of ADCR: BLF is a draw unless the detector is on and settled (R92, R352). -/
def readAdcr (s : State) : Byte × State :=
  if blfSettled s then (s.adcr.toByte s.adcr.blf, s)
  else ((s.adcr.toByte (drawBit s).1), (drawBit s).2)

/-- A read of TMRAH or TMRBH: the high byte is returned and the low byte latched (R95, R96). -/
def latchRead (w : Word) (tag : BufSource) (s : State) : Byte × State :=
  (highByte w, { s with timer := { s.timer with lbuf := lowByte w, src := tag } })

/-- The low byte buffer as the partner of an access: unspecified, hence a draw, when another use filled it (R95, R96; U8). -/
def bufferByte (tag : BufSource) (s : State) : Byte × State :=
  if s.timer.src = tag then (s.timer.lbuf, s) else drawByte s

/-- A read of 20H, 21H, 23H or 24H (R95 to R98). -/
def timerRead (a : Access) (p : TimerPort) (s : State) : Except Refusal (Byte × State) :=
  match a with
  | .other => .error .timerAccessForbidden
  | .mov =>
    if s.adcr.adc then
      if s.tmrc.ton then .error .timerAccessForbidden
      else
        match p with
        | .ah => .ok (latchRead s.timer.ta .rdA s)
        | .al => .ok (bufferByte .rdA s)
        | .bh => .ok (latchRead s.timer.tb .rdB s)
        | .bl => .ok (bufferByte .rdB s)
    else
      match p with
      | .ah => .ok (latchRead s.timer.ta .rdA s)
      | .al => .ok (bufferByte .rdA s)
      | .bh => .error .timerAccessUndescribed
      | .bl => .error .timerAccessUndescribed

/-- `LocRead(e)` (R84 to R98). -/
def locRead (a : Access) (e : Byte) (s : State) : Except Refusal (Byte × State) :=
  match locate e with
  | .mp0 => .ok (s.mp0, s)
  | .mp1 => .ok (s.mp1, s)
  | .bp => .ok (s.bp, s)
  | .acc => .ok (s.acc, s)
  | .pcl => .ok (s.pc.setWidth 8, s)
  | .tblp => .ok (s.tblp, s)
  | .tblh => .ok (s.tblh, s)
  | .tbc => .ok (s.rt.setWidth 8, s)
  | .status => .ok (s.flags.toByte, s)
  | .intc => .ok (s.intc.toByte, s)
  | .pa => .ok (s.port.read, s)
  | .pac => .ok (s.port.pac, s)
  | .timer p => timerRead a p s
  | .tmrc => .ok (s.tmrc.toByte, s)
  | .adcr => .ok (readAdcr s)
  | .ram => .ok (readCell (ramKey e) s)
  | .reserved => .ok (0x00, s)

/-- `MemRead` on a resolved operand (R82). -/
def memRead (a : Access) (t : Target) (s : State) : Except Refusal (Byte × State) :=
  match t with
  | .self => .ok (0x00, s)
  | .lcd e => .ok (readCell (lcdKey e) s)
  | .bank0 e => locRead a e s

/-! ## Writes of bank 0 -/

/-- Start of a pulse-width measurement by a write that changes TON from 0 to 1 (R331, R334). -/
def armPulse (old new : Tmrc) (a : Adcr) (t : Timer) : Timer :=
  if !old.ton && countMode new a = .pulse then { t with pwArmed := true, pwRun := false } else t

/-- A write of TMRC (R92, R330, R331): the mode may not change while the counter stays on (U14), and a mode without meaning
may not count (U13). -/
def writeTmrc (v : Byte) (s : State) : Except Refusal State :=
  let new := Tmrc.ofByte v
  if s.tmrc.ton && new.ton && !(new.tm1 == s.tmrc.tm1 && new.tm0 == s.tmrc.tm0 && new.te == s.tmrc.te) then
    .error .modeChangeWhileOn
  else if countMode new s.adcr = .unused then .error .unusedCountMode
  else .ok { s with tmrc := new, timer := armPulse s.tmrc new s.adcr s.timer }

/-- A write of ADCR (R92, R338): ADC/TM may not change while the counter is on (U14). -/
def writeAdcr (v : Byte) (s : State) : Except Refusal State :=
  let new := s.adcr.written v
  if s.tmrc.ton && !(new.adc == s.adcr.adc) then .error .modeChangeWhileOn
  else .ok { s with adcr := new }

/-- A write of TMRAL or TMRBL: the low byte buffer only (R95, R96). -/
def writeBuffer (v : Byte) (tag : BufSource) (s : State) : State :=
  { s with timer := { s.timer with lbuf := v, src := tag } }

/-- A write of TMRAH in A/D converter mode: timer A from the value and the buffer (R96). -/
def loadTa (v : Byte) (s : State) : State :=
  let low := bufferByte .wrA s
  { low.2 with timer := { low.2.timer with ta := joinBytes v low.1 } }

/-- A write of TMRBH: timer B or the preload register from the value and the buffer (R95, R96). -/
def loadTb (v : Byte) (s : State) : State :=
  let low := bufferByte .wrB s
  { low.2 with timer := { low.2.timer with tb := joinBytes v low.1 } }

/-- A write of TMRBH with the counter off in timer/event counter mode also loads the counter (R95). -/
def loadTbAndTa (v : Byte) (s : State) : State :=
  let low := bufferByte .wrB s
  { low.2 with timer := { low.2.timer with tb := joinBytes v low.1, ta := joinBytes v low.1 } }

/-- A write of 20H, 21H, 23H or 24H (R95 to R98). -/
def timerWrite (a : Access) (p : TimerPort) (v : Byte) (s : State) : Except Refusal State :=
  match a with
  | .other => .error .timerAccessForbidden
  | .mov =>
    if s.adcr.adc then
      if s.tmrc.ton then .error .timerAccessForbidden
      else
        match p with
        | .ah => .ok (loadTa v s)
        | .al => .ok (writeBuffer v .wrA s)
        | .bh => .ok (loadTb v s)
        | .bl => .ok (writeBuffer v .wrB s)
    else
      match p with
      | .ah => .error .timerAccessUndescribed
      | .al => .error .timerAccessUndescribed
      | .bh => .ok (if s.tmrc.ton then loadTb v s else loadTbAndTa v s)
      | .bl => .ok (writeBuffer v .wrB s)

/-- `LocWrite(e, v)` (R84 to R98). TBLH is read only (R91), and a write of a reserved location does nothing (R90, decision
D7). -/
def locWrite (a : Access) (e v : Byte) (s : State) : Except Refusal State :=
  match locate e with
  | .mp0 => .ok { s with mp0 := v }
  | .mp1 => .ok { s with mp1 := v }
  | .bp => .ok { s with bp := v }
  | .acc => .ok { s with acc := v }
  | .pcl => .ok { s with pc := pclTarget s.pc v }
  | .tblp => .ok { s with tblp := v }
  | .tblh => .ok s
  | .tbc => .ok { s with rt := v.setWidth 3 }
  | .status => .ok { s with flags := s.flags.written v }
  | .intc => .ok { s with intc := Intc.ofByte v }
  | .pa => .ok { s with port := { s.port with latch := v } }
  | .pac => .ok { s with port := { s.port with pac := v } }
  | .timer p => timerWrite a p v s
  | .tmrc => writeTmrc v s
  | .adcr => writeAdcr v s
  | .ram => .ok (writeCell (ramKey e) v s)
  | .reserved => .ok s

/-- `MemWrite` on a resolved operand (R83). -/
def memWrite (a : Access) (t : Target) (v : Byte) (s : State) : Except Refusal State :=
  match t with
  | .self => .ok s
  | .lcd e => .ok (writeCell (lcdKey e) v s)
  | .bank0 e => locWrite a e v s

end Sys2Proof.Machine
end

