-- ==== Sys2Proof/Machine/Reset.lean ====
section
/-! DEFINITION. The reset procedures: a chip reset of each kind (R402) and the warm reset (R403). What the spec leaves
unknown after a reset is drawn (R63). -/

namespace Sys2Proof.Machine

open Sys2Proof.Config

/-- The four kinds of chip reset (R400). -/
inductive ChipReset where
  /-- power-on. -/
  | por
  /-- RES low in normal operation. -/
  | resN
  /-- RES low during HALT. -/
  | resH
  /-- watchdog time-out in normal operation. -/
  | wdtN
deriving DecidableEq, Repr

/-- TO and PDF after each kind, and the arithmetic flags, unknown after power-on alone (R62, R402). -/
def Flags.afterReset (k : ChipReset) (d : Nat) (f : Flags) : Flags :=
  match k with
  | .por => { c := freeBit d, ac := freeBit (d + 1), z := freeBit (d + 2), ov := freeBit (d + 3), pdf := false,
              timeOut := false }
  | .resN => f
  | .resH => { f with timeOut := false, pdf := true }
  | .wdtN => { f with timeOut := true }

/-- What every chip reset does (R402, common part); the draws are numbered from the state's counter on. No rule gives TBF_AT_HALT
a value after a chip reset (R48, R60, R61): it is drawn, DESIGN CHOICE (log entry 2), and HALT writes it before anything reads
it. -/
def chipResetCommon (s : State) : State :=
  { s with
    pc := 0
    sp := 0
    intc := { emi := false, eti := false, etbi := false, tf := false, tbf := false }
    rt := 7
    port := { s.port with latch := 0xFF, pac := 0xFF }
    tmrc := { te := true, ton := false, tm0 := false, tm1 := false }
    adcr := { ovb := false, adc := false, mode := false, bon := false, blf := freeBit s.draws }
    timer := { ta := freeWord s.draws, tb := freeWord (s.draws + 1), lbuf := freeByte s.draws, src := .none,
               pwArmed := false, pwRun := false }
    mft := 0
    wdt := { age := 0, w1 := false, w2 := false }
    halted := false
    tbfAtHalt := freeBit (s.draws + 1)
    bp := freeByte (s.draws + 1)
    mem := []
    stk0 := freePAddr s.draws
    stk1 := freePAddr (s.draws + 1)
    lvdAge := 0
    entering := none
    slipped := false
    draws := s.draws + 8 }

/-- What power-on alone makes unknown besides the flags: ACC, MP0, MP1, TBLP and TBLH (R402). -/
def powerOnRegisters (d : Nat) (s : State) : State :=
  { s with acc := freeByte (d + 2), mp0 := freeByte (d + 3), mp1 := freeByte (d + 4), tblp := freeByte (d + 5),
           tblh := freeByte (d + 6) }

/-- `ChipReset(kind)` (R402). -/
def chipReset (k : ChipReset) (s : State) : State :=
  let s1 := chipResetCommon s
  let s2 := { s1 with flags := s.flags.afterReset k (s.draws + 2) }
  match k with
  | .por => powerOnRegisters s.draws s2
  | .resN => s2
  | .resH => s2
  | .wdtN => s2

/-- The warm reset, a watchdog time-out during HALT (R403): the program counter, the stack pointer, TO, HALTED and the
watchdog; the stack cells become unknown, and everything else is unchanged. -/
def warmReset (s : State) : State :=
  { s with
    pc := 0
    sp := 0
    flags := { s.flags with timeOut := true }
    halted := false
    wdt := { age := 0, w1 := false, w2 := false }
    stk0 := freePAddr s.draws
    stk1 := freePAddr (s.draws + 1)
    entering := none
    slipped := false
    draws := s.draws + 2 }

end Sys2Proof.Machine
end

