-- ==== Sys2Proof/Machine/Devices.lean ====
section
/-! DEFINITION. How the devices advance between two instructions (R319): the timer/event counter and A/D converter
(R330 to R337), the multi-function timer and time base (R325 to R327), the watchdog (R320 to R323), the low voltage detector
(R352), and the pads and the reset pad (R365, R401). -/

namespace Sys2Proof.Machine

open Sys2Proof.Config

/-! ## Timer/event counter and RC type A/D converter -/

/-- What a counter sees, in the order it happens: a system clock, or an event outside it. -/
inductive ClockEvent where
  | clk
  | pin (p : PinEvent)
deriving DecidableEq, Repr

/-- The events of a period of `n` system clocks, the outside events before the clock they precede (R319, R333). -/
def clockEvents : Nat → List (List PinEvent) → List ClockEvent
  | 0, rest => rest.flatten.map .pin
  | n + 1, [] => .clk :: clockEvents n []
  | n + 1, now :: later => now.map .pin ++ .clk :: clockEvents n later

/-- One count in timer/event counter mode: an overflow reloads from the preload register and sets TF (R332). -/
def count (s : State) : State :=
  if s.timer.ta = 0xFFFF then
    { s with timer := { s.timer with ta := s.timer.tb }, intc := { s.intc with tf := true } }
  else { s with timer := { s.timer with ta := s.timer.ta + 1 } }

/-- An active edge of the event counter: falling with TE = 1, rising with TE = 0 (R330). -/
def isActiveEdge (te : Bool) (p : PinEvent) : Bool :=
  match p with
  | .rcinRise => !te
  | .rcinFall => te
  | .rcCycle => false

/-- The edge that starts a pulse-width measurement: rising with TE = 1, falling with TE = 0 (R334). -/
def isStartEdge (te : Bool) (p : PinEvent) : Bool :=
  match p with
  | .rcinRise => te
  | .rcinFall => !te
  | .rcCycle => false

/-- The edge that stops it: falling with TE = 1, rising with TE = 0 (R334). -/
def isStopEdge (te : Bool) (p : PinEvent) : Bool := isActiveEdge te p

/-- A pulse-width measurement starts: the start edge arrives while it is armed and does not run (R334). -/
def startPulse (s : State) : State :=
  if s.timer.pwArmed && !s.timer.pwRun then { s with timer := { s.timer with pwRun := true } } else s

/-- A pulse-width measurement stops: the stop edge arrives while it runs, and TON is cleared (R334). -/
def stopPulse (s : State) : State :=
  if s.timer.pwRun then
    { s with timer := { s.timer with pwRun := false, pwArmed := false }, tmrc := { s.tmrc with ton := false } }
  else s

/-- One event of the counter in timer, event counter or pulse-width mode (R332 to R334). -/
def counterEvent (s : State) (e : ClockEvent) : State :=
  match countMode s.tmrc s.adcr, e with
  | .timer, .clk => count s
  | .event, .pin p => if isActiveEdge s.tmrc.te p then count s else s
  | .pulse, .clk => if s.timer.pwRun then count s else s
  | .pulse, .pin p =>
    if isStartEdge s.tmrc.te p then startPulse s
    else if isStopEdge s.tmrc.te p then stopPulse s
    else s
  | _, _ => s

/-- The events of a period, one after the other, in timer/event counter mode. -/
def counterEvents (s : State) : List ClockEvent → State
  | [] => s
  | e :: rest => counterEvents (counterEvent s e) rest

/-- The selected counter overflows in A/D converter mode: TF is set and both counters stop (R335). -/
def endConversion (s : State) : State :=
  { s with intc := { s.intc with tf := true }, tmrc := { s.tmrc with ton := false } }

/-- One clock of timer A in A/D converter mode (R335); the overflow of a counter that is not selected is refused (U15). -/
def clockA (s : State) : Except Refusal State :=
  if s.timer.ta = 0xFFFF then
    if s.adcr.ovb then .error .unselectedOverflow
    else .ok (endConversion { s with timer := { s.timer with ta := 0x0000 } })
  else .ok { s with timer := { s.timer with ta := s.timer.ta + 1 } }

/-- One cycle of the RC oscillation, the clock of timer B in A/D converter mode (R335). -/
def clockB (s : State) : Except Refusal State :=
  if s.timer.tb = 0xFFFF then
    if s.adcr.ovb then .ok (endConversion { s with timer := { s.timer with tb := 0x0000 } })
    else .error .unselectedOverflow
  else .ok { s with timer := { s.timer with tb := s.timer.tb + 1 } }

/-- One event in A/D converter mode (R335). -/
def converterEvent (s : State) (e : ClockEvent) : Except Refusal State :=
  match countMode s.tmrc s.adcr, e with
  | .adcSys, .clk => clockA s
  | .adcSys, .pin .rcCycle => clockB s
  | .adcExt, .pin .rcCycle => clockB s
  | .adcExt, .pin p => if isActiveEdge s.tmrc.te p then clockA s else .ok s
  | _, _ => .ok s

/-- The events of a period, one after the other, in A/D converter mode. -/
def converterEvents (s : State) : List ClockEvent → Except Refusal State
  | [] => .ok s
  | e :: rest =>
    match converterEvent s e with
    | .error r => .error r
    | .ok s1 => converterEvents s1 rest

/-- The counter during a period of `n` clocks, in whatever mode it is in. -/
def runCounter (n : Nat) (pins : List (List PinEvent)) (s : State) : Except Refusal State :=
  match countMode s.tmrc s.adcr with
  | .off => .ok s
  | .timer => .ok (counterEvents s (clockEvents n pins))
  | .event => .ok (counterEvents s (clockEvents n pins))
  | .pulse => .ok (counterEvents s (clockEvents n pins))
  | .adcSys => converterEvents s (clockEvents n pins)
  | .adcExt => converterEvents s (clockEvents n pins)
  | .unused => .error .unusedCountMode

/-- The number of clocks the counter sees in an instruction whose count is drawn: 0 to `n` (R319, R337). -/
def drawnClocks (n : Nat) (e : EnvSample) : Nat := e.seen % (n + 1)

/-- The events among `ps` that are not marked as missed; one without a mark is seen. -/
def keepSeen : List Bool → List PinEvent → List PinEvent
  | [], ps => ps
  | _ :: _, [] => []
  | m :: ms, p :: ps => if m then keepSeen ms ps else p :: keepSeen ms ps

/-- The RCIN edges and RC oscillation cycles the counter sees in an instruction whose count is drawn, in the lists of `pins`.
The rules draw the system clocks (R319) and let edges be lost (R337); that each edge and each cycle, in every mode, may be seen
or missed is the model's choice (log entry 21). -/
def seenPins : List (List Bool) → List (List PinEvent) → List (List PinEvent)
  | [], pins => pins
  | _ :: _, [] => []
  | ms :: missed, ps :: pins => keepSeen ms ps :: seenPins missed pins

/-- The counter during the period of an instruction whose count is drawn (R319, R337): the environment chooses which of the
clocks and of the events outside it sees. -/
def drawnPeriod (n : Nat) (e : EnvSample) (s : State) : Except Refusal State :=
  runCounter (drawnClocks n e) (seenPins e.missed e.pins) s

/-- The counter during the period of an instruction that took the machine from `before` to `s` (R319): in an instruction that
starts or stops it, or reads it while it runs, what it sees is the environment's choice. DESIGN CHOICE (log entry 21): where the
rules speak of the clocks alone this holds for RCIN edges and RC oscillation cycles too, in every mode; and an instruction that
stops the counter lets it run in its old mode, and it is off after it. -/
def timerPeriod (before : State) (n : Nat) (drawn : Bool) (e : EnvSample) (s : State) : Except Refusal State :=
  if before.tmrc.ton && !s.tmrc.ton then
    match drawnPeriod n e { s with tmrc := before.tmrc } with
    | .error r => .error r
    | .ok s1 => .ok { s1 with tmrc := s.tmrc }
  else if !before.tmrc.ton && s.tmrc.ton then drawnPeriod n e s
  else if drawn then drawnPeriod n e s
  else runCounter n e.pins s

/-! ## Wake-up from HALT -/

/-- The system oscillator runs: always outside HALT, and in HALT by mask option 5 (R362). -/
def oscillatorRuns (s : State) : Bool := !s.halted || s.par.mask.oscOnAtHalt

/-- `TF_WAKES_HALT`: an overflow that sets TF during HALT, where TF was 0, ends it (R366, decision D20). DESIGN CHOICE (log entry
23): like the time base (R364) it does so only if the oscillator runs in HALT, so that on a part whose oscillator is off the
overflow that falls into the four clocks of the HALT instruction itself sets TF and does not wake; R366 names no such condition. -/
def timerWake (tfBefore : Bool) (s : State) : State :=
  if s.halted && s.par.mask.oscOnAtHalt && s.par.tfWakesHalt && !tfBefore && s.intc.tf then { s with halted := false }
  else s

/-- A time base time-out during HALT ends it, unless TBF was 1 when HALT was executed (R364, decision D32). -/
def timeBaseWake (s : State) : State :=
  if s.halted && s.par.mask.oscOnAtHalt && !s.tbfAtHalt && s.intc.tbf then { s with halted := false } else s

/-- A port stimulus ends HALT; any change of a pad level may be one and none must be (R365, decision D21). -/
def portWake (e : EnvSample) (s : State) : State :=
  if s.halted && e.paWake && e.pads != s.port.pads then { s with halted := false } else s

/-! ## Multi-function timer and time base -/

/-- The time base's divide factor `2^(8 + RT)` (R34, R327). -/
def timeBaseFactor (rt : BitVec 3) : Nat := 2 ^ (8 + rt.toNat)

/-- One system clock of the multi-function timer: TBF is set when the new count is a multiple of the factor (R327). -/
def clockMft (s : State) : State :=
  { s with mft := s.mft + 1,
           intc := { s.intc with tbf := s.intc.tbf || (s.mft + 1).toNat % timeBaseFactor s.rt == 0 } }

/-- `n` system clocks of the multi-function timer (R325, R327). -/
def runMft : Nat → State → State
  | 0, s => s
  | n + 1, s => runMft n (clockMft s)

/-! ## Watchdog -/

/-- The watchdog times out: it may from 2^15 clocks after the last clear on, and has by 2^16 (R321, decision D19). -/
def wdtTimesOut (e : EnvSample) (s : State) : Bool :=
  decide (0x8000 ≤ s.wdt.age) && s.par.mask.wdtEn && (decide (0x10000 ≤ s.wdt.age) || e.wdtStrike)

/-- The watchdog counts `n` system clocks (R320). -/
def ageWdt (n : Nat) (s : State) : State := { s with wdt := { s.wdt with age := s.wdt.age + n } }

/-- The watchdog during a period of `n` system clocks: a time-out resets the chip in normal operation (R322) and is the warm
reset in HALT (R323); with the oscillator stopped it stands still. -/
def runWdt (n : Nat) (e : EnvSample) (s : State) : State :=
  if n ≠ 0 ∧ wdtTimesOut e (ageWdt n s) then
    if s.halted then warmReset (ageWdt n s) else chipReset .wdtN (ageWdt n s)
  else ageWdt n s

/-! ## Low voltage detector -/

/-- The low voltage detector during a period of `n` instruction cycles (R352): BLF follows the comparator while BON = 1, and
the settling time is counted from the period after the one that set BON. -/
def runLvd (n : Nat) (bonBefore : Bool) (e : EnvSample) (s : State) : State :=
  { s with adcr := { s.adcr with blf := if s.adcr.bon then e.vddLow else s.adcr.blf },
           lvdAge := if bonBefore && s.adcr.bon then s.lvdAge + n else 0 }

/-! ## Power, reset pad, pads -/

/-- Power and the reset pad first, else a port stimulus (R308, R365, R404). -/
def padEvents (e : EnvSample) (s : State) : State :=
  if e.powerOn then chipReset .por s
  else if e.resLow then chipReset (if s.halted then .resH else .resN) s
  else portWake e s

/-- The levels of the pads become those of the sample (R401, R47). -/
def takePads (e : EnvSample) (s : State) : State :=
  { s with resLow := e.resLow, port := { s.port with pads := e.pads } }

/-- The end of a period: what happens at the pads, and then their new levels. -/
def samplePads (e : EnvSample) (s : State) : State := takePads e (padEvents e s)

/-- The next sample of the environment (R8): the state's own, or a free value. -/
def nextSample (s : State) : EnvSample :=
  match s.env with
  | e :: _ => e
  | [] => environment s.draws

/-- The state after the next sample is taken. -/
def dropSample (s : State) : State := { s with env := s.env.tail, draws := s.draws + 1 }

/-- All devices but the counter, in the order of R319: multi-function timer and time base, watchdog, low voltage detector,
and the pads. `clocks` are system clocks, `cyc` instruction cycles. -/
def otherDevices (clocks cyc : Nat) (bonBefore tfBefore : Bool) (e : EnvSample) (s : State) : State :=
  samplePads e (runLvd cyc bonBefore e (runWdt clocks e (timeBaseWake (runMft clocks (timerWake tfBefore s)))))

/-- The interrupt check at an instruction boundary (R306): an acknowledgeable interrupt is entered instead of the next
fetch; with `INT_SLIP` = 1 the environment may let one more instruction run first (log entry 15). DESIGN CHOICE (log entry 37):
`slipped` is one mark for both interrupts, so that if one was put off and the other is the one to acknowledge at the next
boundary, that one is entered at once with no slip of its own; and a boundary with nothing to acknowledge drops the mark, the one
at which a HALT has put the core to sleep among them, so that after the wake-up the acknowledge may be put off by one instruction
again though EMI, enable and flag stayed 1. R306 says neither. -/
def boundary (e : EnvSample) (s : State) : State :=
  match pendingInterrupt s with
  | none => { s with entering := none, slipped := false }
  | some k =>
    if s.par.intSlip && e.slip && !s.slipped then { s with entering := none, slipped := true }
    else { s with entering := some k, slipped := false }

/-- What follows the core's own effect `s1` of one step that began in `before` (R319): the devices advance by `clocks`
system clocks in the order of the rule, and the interrupt check is made. -/
def period (before : State) (clocks cyc : Nat) (drawn : Bool) (s1 : State) : Result :=
  let e := nextSample s1
  let s2 := dropSample s1
  match timerPeriod before clocks drawn e s2 with
  | .error r => .refused r
  | .ok s3 => .next (boundary e (otherDevices clocks cyc before.adcr.bon s1.intc.tf e s3))

/-- The step of a core that executes nothing because the chip is held in reset by RES (R401): only the environment moves. -/
def heldStep (s : State) : State := samplePads (nextSample s) (dropSample s)

/-- The step of a core in HALT (R361, R362): one system clock if the oscillator runs, else none. A counter on outside timer
mode is refused (U16). -/
def haltedStep (s : State) : Result :=
  if countsOutside s then .refused .haltWhileCounting
  else period s (if oscillatorRuns s then 1 else 0) 0 false s

/-- The step that enters an acknowledged interrupt (R307), charged two instruction cycles (R421). -/
def entryStep (k : IntSource) (s : State) : Result := period s 8 2 false (takeInterrupt k s)

end Sys2Proof.Machine
end

