-- ==== Sys2Proof/Machine/Operands.lean ====
section
/-! DEFINITION. The operand forms of the instruction set (R129), as shapes that every meaning is written over: the PC is
advanced, the operand is resolved once (R81), read, and written (R83), in that order, and the flags are written with the
result (R12). -/

namespace Sys2Proof.Machine

/-- `[m]` resolved at the start of the instruction; a resolution that fails is the instruction's named stop (R81). -/
def withTarget (m : DAddr) (s : State) (k : Target → State → Result) : Result :=
  match resolve s.advance m with
  | .error f => .fault f
  | .ok t => k t s.advance

/-- A read of a resolved operand; a read the spec refuses is the instruction's refusal (R95 to R98). -/
def withRead (a : Access) (t : Target) (s : State) (k : Byte → State → Result) : Result :=
  match memRead a t s with
  | .error r => .refused r
  | .ok p => k p.1 p.2

/-- A write of a resolved operand; a write the spec refuses is the instruction's refusal (R95 to R98, R331, R338). -/
def withWrite (a : Access) (t : Target) (v : Byte) (s : State) (k : State → Result) : Result :=
  match memWrite a t v s with
  | .error r => .refused r
  | .ok s1 => k s1

/-- The form `OP A,[m]` or `OP [m]` that only reads `[m]`. -/
def readingOp (m : DAddr) (s : State) (k : Byte → State → Result) : Result :=
  withTarget m s fun t s1 => withRead .other t s1 k

/-- An arithmetic instruction with the result in the accumulator: `Z, C, AC, OV` from the adder (R150, R151). -/
def sumToAcc (m : DAddr) (f : Byte → State → Sum) (s : State) : Result :=
  readingOp m s fun v s1 => .next { s1 with acc := (f v s1).r, flags := s1.flags.afterSum (f v s1) }

/-- An arithmetic instruction with immediate data: result in the accumulator, flags from the adder. -/
def sumImmediate (f : State → Sum) (s : State) : Result :=
  .next { s.advance with acc := (f s).r, flags := s.flags.afterSum (f s) }

/-- A read-modify-write instruction that writes flags of its own (R164, R182, R190, R210): STATUS as operand is refused
(R30, U5); else the operand is read, the result written to the same target, and the flags written. -/
def modifyWithFlags (m : DAddr) (result : Byte → State → Byte) (flags : Byte → State → Flags) (s : State) : Result :=
  withTarget m s fun t s1 =>
    if t.isStatus then .refused .statusCollision
    else withRead .other t s1 fun v s2 =>
      withWrite .other t (result v s2) s2 fun s3 => .next { s3 with flags := flags v s2 }

/-- An arithmetic instruction with the result in data memory (R164). -/
def sumToMem (m : DAddr) (f : Byte → State → Sum) (s : State) : Result :=
  modifyWithFlags m (fun v s1 => (f v s1).r) (fun v s1 => s1.flags.afterSum (f v s1)) s

/-- An instruction whose result goes to the accumulator and which writes `Z` alone (R170, R190). -/
def zToAcc (m : DAddr) (f : Byte → State → Byte) (s : State) : Result :=
  readingOp m s fun v s1 => .next { s1 with acc := f v s1, flags := s1.flags.withZ (f v s1) }

/-- A logic instruction with immediate data: result in the accumulator, `Z` alone (R170). -/
def zImmediate (f : State → Byte) (s : State) : Result :=
  .next { s.advance with acc := f s, flags := s.flags.withZ (f s) }

/-- An instruction whose result goes to data memory and which writes `Z` alone (R182, R190). -/
def zToMem (m : DAddr) (f : Byte → State → Byte) (s : State) : Result :=
  modifyWithFlags m f (fun v s1 => s1.flags.withZ (f v s1)) s

/-- An instruction whose result goes to the accumulator and which writes no flag. -/
def plainToAcc (m : DAddr) (f : Byte → Byte) (s : State) : Result :=
  readingOp m s fun v s1 => .next { s1 with acc := f v }

/-- A read-modify-write instruction that writes no flag, so that STATUS is an ordinary operand (R30, R210, R222). -/
def plainToMem (m : DAddr) (f : Byte → Byte) (s : State) : Result :=
  withTarget m s fun t s1 => withRead .other t s1 fun v s2 => withWrite .other t (f v) s2 .next

/-- A rotate through carry with the result in the accumulator: `C` alone (R200). -/
def carryToAcc (m : DAddr) (result : Byte → Bool → Byte) (carry : Byte → Bool) (s : State) : Result :=
  readingOp m s fun v s1 => .next { s1 with acc := result v s1.flags.c, flags := s1.flags.withC (carry v) }

/-- A rotate through carry with the result in data memory: `C` alone (R200, R210). -/
def carryToMem (m : DAddr) (result : Byte → Bool → Byte) (carry : Byte → Bool) (s : State) : Result :=
  modifyWithFlags m (fun v s1 => result v s1.flags.c) (fun v s1 => s1.flags.withC (carry v)) s

/-- An instruction that writes `[m]` without reading it and writes no flag (R216, R256, R257). -/
def storeOnly (a : Access) (m : DAddr) (v : State → Byte) (s : State) : Result :=
  withTarget m s fun t s1 => withWrite a t (v s1) s1 .next

/-- An instruction that tests the operand and only skips or not (R227, R229, R230). -/
def testAndSkip (m : DAddr) (test : Byte → Bool) (s : State) : Result :=
  readingOp m s fun v s1 => .next (s1.skipIf (test v))

/-- An instruction that puts a value computed from the operand into the accumulator and skips when it is 00H (R228, R233,
R234). -/
def accAndSkip (m : DAddr) (f : Byte → Byte) (s : State) : Result :=
  readingOp m s fun v s1 => .next ({ s1 with acc := f v }.skipIf (f v == 0))

/-- SIZ and SDZ: the operand is modified and the instruction skips when the result is 00H (R231, R232); PCL as operand is
refused (R85, U6). -/
def memAndSkip (m : DAddr) (f : Byte → Byte) (s : State) : Result :=
  withTarget m s fun t s1 =>
    if t.isPcl then .refused .skipOnPcl
    else withRead .other t s1 fun v s2 =>
      withWrite .other t (f v) s2 fun s3 => .next (s3.skipIf (f v == 0))

/-- A return: the PC is popped; an empty stack is the named stop (R27, R236 to R238). -/
def returning (popped : Except Fault State) (k : State → State) : Result :=
  match popped with
  | .error f => .fault f
  | .ok s1 => .next (k s1)

/-- A table read: bits 15:8 of the program word go to TBLH, bits 7:0 to `[m]` (R253). -/
def tableRead (m : DAddr) (entry : State → PAddr) (s : State) : Result :=
  withTarget m s fun t s1 =>
    withWrite .other t (lowByte (romRead s1 (entry s1)))
      { s1 with tblh := highByte (romRead s1 (entry s1)) } .next

end Sys2Proof.Machine
end

