-- ==== Sys2Proof/Machine/Arithmetic.lean ====
section
/-! DEFINITION. The meanings of 40_arithmetic.md (rows 1 to 11 of R125). `s.pc` is the address the instruction was fetched from. -/

namespace Sys2Proof.Machine

/-- `ADD A,[m]` (R153): `ACC <- ACC + [m]`. -/
def execAddAm (m : DAddr) (s : State) : Result :=
  sumToAcc m (fun v s1 => add8 s1.acc v false) s

/-- `ADDM A,[m]` (R154): `[m] <- ACC + [m]`. -/
def execAddmAm (m : DAddr) (s : State) : Result :=
  sumToMem m (fun v s1 => add8 s1.acc v false) s

/-- `ADD A,x` (R155): `ACC <- ACC + x`. -/
def execAddAx (x : Byte) (s : State) : Result :=
  sumImmediate (fun s1 => add8 s1.acc x false) s

/-- `ADC A,[m]` (R156): `ACC <- ACC + [m] + C`. -/
def execAdcAm (m : DAddr) (s : State) : Result :=
  sumToAcc m (fun v s1 => add8 s1.acc v s1.flags.c) s

/-- `ADCM A,[m]` (R157): `[m] <- ACC + [m] + C`. -/
def execAdcmAm (m : DAddr) (s : State) : Result :=
  sumToMem m (fun v s1 => add8 s1.acc v s1.flags.c) s

/-- `SUB A,x` (R158): `ACC <- ACC - x`. -/
def execSubAx (x : Byte) (s : State) : Result :=
  sumImmediate (fun s1 => sub8 s1.acc x true) s

/-- `SUB A,[m]` (R159): `ACC <- ACC - [m]`. -/
def execSubAm (m : DAddr) (s : State) : Result :=
  sumToAcc m (fun v s1 => sub8 s1.acc v true) s

/-- `SUBM A,[m]` (R160): `[m] <- ACC - [m]`. -/
def execSubmAm (m : DAddr) (s : State) : Result :=
  sumToMem m (fun v s1 => sub8 s1.acc v true) s

/-- `SBC A,[m]` (R161): `ACC <- ACC - [m] - (1 - C)`. -/
def execSbcAm (m : DAddr) (s : State) : Result :=
  sumToAcc m (fun v s1 => sub8 s1.acc v s1.flags.c) s

/-- `SBCM A,[m]` (R162): `[m] <- ACC - [m] - (1 - C)`. -/
def execSbcmAm (m : DAddr) (s : State) : Result :=
  sumToMem m (fun v s1 => sub8 s1.acc v s1.flags.c) s

/-- `DAA [m]` (R163): the decimal adjustment of ACC goes to `[m]`, which is not read; `C` alone is written, and STATUS as operand is refused. -/
def execDaa (m : DAddr) (s : State) : Result :=
  withTarget m s fun t s1 =>
    if t.isStatus then .refused .statusCollision
    else withWrite .other t (daaResult s1.acc s1.flags.c s1.flags.ac) s1 fun s2 =>
      .next { s2 with flags := s2.flags.withC (daaCarry s1.acc s1.flags.c) }

end Sys2Proof.Machine
end

