-- ==== Sys2Proof/Machine/BitOp.lean ====
section
/-! DEFINITION. The meanings of 45_bitop.md (rows 38 to 39 of R125). `s.pc` is the address the instruction was fetched from. -/

namespace Sys2Proof.Machine

/-- `CLR [m].i` (R220): bit `i` of `[m]` is cleared by a read and a write of the whole byte (R222). -/
def execClrBit (m : DAddr) (i : Nat) (s : State) : Result :=
  plainToMem m (fun v => clearBit v i) s

/-- `SET [m].i` (R221): bit `i` of `[m]` is set by a read and a write of the whole byte (R222). -/
def execSetBit (m : DAddr) (i : Nat) (s : State) : Result :=
  plainToMem m (fun v => setBit v i) s

end Sys2Proof.Machine
end

