-- ==== Sys2Proof/Machine/Branch.lean ====
section
/-! DEFINITION. The meanings of 46_branch.md (rows 40 to 52 of R125). `s.pc` is the address the instruction was fetched from. -/

namespace Sys2Proof.Machine

/-- `JMP addr` (R226): `pc <- addr`. -/
def execJmp (addr : PAddr) (s : State) : Result :=
  .next { s with pc := addr }

/-- `SZ [m]` (R227): skip if `[m]` is 0. -/
def execSz (m : DAddr) (s : State) : Result :=
  testAndSkip m (fun v => v == 0) s

/-- `SZA [m]` (R228): `ACC <- [m]`; skip if it is 0. -/
def execSza (m : DAddr) (s : State) : Result :=
  accAndSkip m id s

/-- `SZ [m].i` (R229): skip if bit `i` of `[m]` is 0. -/
def execSzBit (m : DAddr) (i : Nat) (s : State) : Result :=
  testAndSkip m (fun v => !v.getLsbD i) s

/-- `SNZ [m].i` (R230): skip if bit `i` of `[m]` is not 0. -/
def execSnzBit (m : DAddr) (i : Nat) (s : State) : Result :=
  testAndSkip m (fun v => v.getLsbD i) s

/-- `SIZ [m]` (R231): `[m] <- [m] + 1`; skip if the result is 0. -/
def execSiz (m : DAddr) (s : State) : Result :=
  memAndSkip m (fun v => v + 1) s

/-- `SDZ [m]` (R232): `[m] <- [m] - 1`; skip if the result is 0. -/
def execSdz (m : DAddr) (s : State) : Result :=
  memAndSkip m (fun v => v - 1) s

/-- `SIZA [m]` (R233): `ACC <- [m] + 1`; skip if the result is 0. -/
def execSiza (m : DAddr) (s : State) : Result :=
  accAndSkip m (fun v => v + 1) s

/-- `SDZA [m]` (R234): `ACC <- [m] - 1`; skip if the result is 0. -/
def execSdza (m : DAddr) (s : State) : Result :=
  accAndSkip m (fun v => v - 1) s

/-- `CALL addr` (R235): `Push(npc); pc <- addr`; a full stack loses its oldest entry and nothing stops (R27). -/
def execCall (addr : PAddr) (s : State) : Result :=
  .next { push s.advance.pc s with pc := addr }

/-- `RET` (R236): `pc <- Pop()`; EMI is not changed. -/
def execRet (s : State) : Result :=
  returning (popPc s) id

/-- `RET A,x` (R237): `pc <- Pop(); ACC <- x`. -/
def execRetAx (x : Byte) (s : State) : Result :=
  returning (popPc s) (fun s1 => { s1 with acc := x })

/-- `RETI` (R238): `pc <- Pop(); EMI <- 1`. -/
def execReti (s : State) : Result :=
  returning (returnFromInterrupt s) id

end Sys2Proof.Machine
end

