-- ==== Sys2Proof/Machine/DataMove.lean ====
section
/-! DEFINITION. The meanings of 44_datamove.md (rows 35 to 37 of R125). `s.pc` is the address the instruction was fetched from. -/

namespace Sys2Proof.Machine

/-- `MOV A,[m]` (R215): `ACC <- [m]`; MOV alone may read the timer locations (R98). -/
def execMovAm (m : DAddr) (s : State) : Result :=
  withTarget m s fun t s1 => withRead .mov t s1 fun v s2 => .next { s2 with acc := v }

/-- `MOV [m],A` (R216): `[m] <- ACC`; MOV alone may write the timer locations (R98). -/
def execMovmA (m : DAddr) (s : State) : Result :=
  storeOnly .mov m (fun s1 => s1.acc) s

/-- `MOV A,x` (R217): `ACC <- x`. -/
def execMovAx (x : Byte) (s : State) : Result :=
  .next { s.advance with acc := x }

end Sys2Proof.Machine
end

