-- ==== Sys2Proof/Machine/IncDec.lean ====
section
/-! DEFINITION. The meanings of 42_incdec.md (rows 23 to 26 of R125). `s.pc` is the address the instruction was fetched from. -/

namespace Sys2Proof.Machine

/-- `INCA [m]` (R191): `ACC <- [m] + 1`. -/
def execInca (m : DAddr) (s : State) : Result :=
  zToAcc m (fun v _ => v + 1) s

/-- `INC [m]` (R192): `[m] <- [m] + 1`. -/
def execInc (m : DAddr) (s : State) : Result :=
  zToMem m (fun v _ => v + 1) s

/-- `DECA [m]` (R193): `ACC <- [m] - 1`. -/
def execDeca (m : DAddr) (s : State) : Result :=
  zToAcc m (fun v _ => v - 1) s

/-- `DEC [m]` (R194): `[m] <- [m] - 1`. -/
def execDec (m : DAddr) (s : State) : Result :=
  zToMem m (fun v _ => v - 1) s

end Sys2Proof.Machine
end

