-- ==== Sys2Proof/Machine/Logic.lean ====
section
/-! DEFINITION. The meanings of 41_logic.md (rows 12 to 22 of R125). `s.pc` is the address the instruction was fetched from. -/

namespace Sys2Proof.Machine

/-- `AND A,[m]` (R171): `ACC <- ACC and [m]`. -/
def execAndAm (m : DAddr) (s : State) : Result :=
  zToAcc m (fun v s1 => s1.acc &&& v) s

/-- `OR A,[m]` (R172): `ACC <- ACC or [m]`. -/
def execOrAm (m : DAddr) (s : State) : Result :=
  zToAcc m (fun v s1 => s1.acc ||| v) s

/-- `XOR A,[m]` (R173): `ACC <- ACC xor [m]`. -/
def execXorAm (m : DAddr) (s : State) : Result :=
  zToAcc m (fun v s1 => s1.acc ^^^ v) s

/-- `ANDM A,[m]` (R174): `[m] <- ACC and [m]`. -/
def execAndmAm (m : DAddr) (s : State) : Result :=
  zToMem m (fun v s1 => s1.acc &&& v) s

/-- `ORM A,[m]` (R175): `[m] <- ACC or [m]`. -/
def execOrmAm (m : DAddr) (s : State) : Result :=
  zToMem m (fun v s1 => s1.acc ||| v) s

/-- `XORM A,[m]` (R176): `[m] <- ACC xor [m]`. -/
def execXormAm (m : DAddr) (s : State) : Result :=
  zToMem m (fun v s1 => s1.acc ^^^ v) s

/-- `AND A,x` (R177): `ACC <- ACC and x`. -/
def execAndAx (x : Byte) (s : State) : Result :=
  zImmediate (fun s1 => s1.acc &&& x) s

/-- `OR A,x` (R178): `ACC <- ACC or x`. -/
def execOrAx (x : Byte) (s : State) : Result :=
  zImmediate (fun s1 => s1.acc ||| x) s

/-- `XOR A,x` (R179): `ACC <- ACC xor x`. -/
def execXorAx (x : Byte) (s : State) : Result :=
  zImmediate (fun s1 => s1.acc ^^^ x) s

/-- `CPL [m]` (R180): `[m]` is complemented. -/
def execCpl (m : DAddr) (s : State) : Result :=
  zToMem m (fun v _ => ~~~v) s

/-- `CPLA [m]` (R181): `ACC` receives the complement of `[m]`. -/
def execCpla (m : DAddr) (s : State) : Result :=
  zToAcc m (fun v _ => ~~~v) s

end Sys2Proof.Machine
end

