-- ==== Sys2Proof/Machine/Misc.lean ====
section
/-! DEFINITION. The meanings of 48_misc.md (rows 55 to 63 of R125). `s.pc` is the address the instruction was fetched from. -/

namespace Sys2Proof.Machine

/-- `NOP` (R255): nothing but the next address. -/
def execNop (s : State) : Result :=
  .next s.advance

/-- `CLR [m]` (R256): `[m] <- 00H`, without a read. -/
def execClrMem (m : DAddr) (s : State) : Result :=
  storeOnly .other m (fun _ => 0x00) s

/-- `SET [m]` (R257): `[m] <- FFH`, without a read. -/
def execSetMem (m : DAddr) (s : State) : Result :=
  storeOnly .other m (fun _ => 0xFF) s

/-- `CLR WDT` (R258): the watchdog, TO and PDF are cleared; no operation where the mask option disables the watchdog (R264). -/
def execClrWdt (s : State) : Result :=
  .next (clearWdtIf s.par.mask.wdtEn s.advance)

/-- `CLR WDT1` (R259): the first of the pair leaves its mark, the second clears the watchdog, TO and PDF (decision D24). -/
def execClrWdt1 (s : State) : Result :=
  let s1 := clearWdtIf (s.par.mask.wdtEn && s.wdt.w2) s.advance
  .next { s1 with wdt := { s1.wdt with w1 := s1.wdt.w1 || s.par.mask.wdtEn && !s.wdt.w2 } }

/-- `CLR WDT2` (R260): the mirror image of CLR WDT1 (decision D24). -/
def execClrWdt2 (s : State) : Result :=
  let s1 := clearWdtIf (s.par.mask.wdtEn && s.wdt.w1) s.advance
  .next { s1 with wdt := { s1.wdt with w2 := s1.wdt.w2 || s.par.mask.wdtEn && !s.wdt.w1 } }

/-- `SWAP [m]` (R261): the nibbles of `[m]` are interchanged. -/
def execSwap (m : DAddr) (s : State) : Result :=
  plainToMem m swapNibbles s

/-- `SWAPA [m]` (R262): `ACC` receives `[m]` with its nibbles interchanged. -/
def execSwapa (m : DAddr) (s : State) : Result :=
  plainToAcc m swapNibbles s

/-- `HALT` (R263): PDF is set, TO and the watchdog cleared, the time base phase becomes unknown (R326, decision D28) and the core halts; a counter on in event, pulse-width or A/D converter mode is refused (R362, U16). -/
def execHalt (s : State) : Result :=
  if countsOutside s then .refused .haltWhileCounting
  else
    let s1 := clearWdt s.advance
    .next { s1 with
      flags := { s1.flags with pdf := true, timeOut := false }
      tbfAtHalt := s.intc.tbf
      mft := Config.freePhase s.draws
      draws := s.draws + 1
      halted := true }

end Sys2Proof.Machine
end

