-- ==== Sys2Proof/Machine/Rotate.lean ====
section
/-! DEFINITION. The meanings of 43_rotate.md (rows 27 to 34 of R125). `s.pc` is the address the instruction was fetched from. -/

namespace Sys2Proof.Machine

/-- `RRA [m]` (R201): `ACC <- ror([m])`. -/
def execRra (m : DAddr) (s : State) : Result :=
  plainToAcc m ror s

/-- `RR [m]` (R202): `[m] <- ror([m])`. -/
def execRr (m : DAddr) (s : State) : Result :=
  plainToMem m ror s

/-- `RRCA [m]` (R203): `ACC, C <- rorc([m], C)`. -/
def execRrca (m : DAddr) (s : State) : Result :=
  carryToAcc m rorc rorcCarry s

/-- `RRC [m]` (R204): `[m], C <- rorc([m], C)`. -/
def execRrc (m : DAddr) (s : State) : Result :=
  carryToMem m rorc rorcCarry s

/-- `RLA [m]` (R205): `ACC <- rol([m])`. -/
def execRla (m : DAddr) (s : State) : Result :=
  plainToAcc m rol s

/-- `RL [m]` (R206): `[m] <- rol([m])`. -/
def execRl (m : DAddr) (s : State) : Result :=
  plainToMem m rol s

/-- `RLCA [m]` (R207): `ACC, C <- rolc([m], C)`. -/
def execRlca (m : DAddr) (s : State) : Result :=
  carryToAcc m rolc rolcCarry s

/-- `RLC [m]` (R208): `[m], C <- rolc([m], C)`. -/
def execRlc (m : DAddr) (s : State) : Result :=
  carryToMem m rolc rolcCarry s

end Sys2Proof.Machine
end

