-- ==== Sys2Proof/Machine/TableRead.lean ====
section
/-! DEFINITION. The meanings of 47_tableread.md (rows 53 to 54 of R125). `s.pc` is the address the instruction was fetched from. -/

namespace Sys2Proof.Machine

/-- `TABRDC [m]` (R251): the word of the current page at TBLP goes to TBLH and `[m]` (R250). -/
def execTabrdc (m : DAddr) (s : State) : Result :=
  tableRead m currentPageEntry s

/-- `TABRDL [m]` (R252): the word of the last page at TBLP goes to TBLH and `[m]` (R250). -/
def execTabrdl (m : DAddr) (s : State) : Result :=
  tableRead m lastPageEntry s

end Sys2Proof.Machine
end

