-- ==== Sys2Proof/Machine/Timing.lean ====
section
/-! DEFINITION. How long an instruction takes (R420), in instruction cycles of four system clocks, and for which
instruction the count of the timer is drawn (R337). -/

namespace Sys2Proof.Machine

/-- The lines of the cycle table (R420). -/
inductive TimingClass where
  /-- one cycle. -/
  | one
  /-- one cycle: MOV A,[m], which may read a running counter (R337). -/
  | moving (m : DAddr)
  /-- writes `[m]`: one cycle, and two when the target is PCL. -/
  | storing (m : DAddr)
  /-- one cycle, and two when the skip is taken. -/
  | skipping
  /-- two cycles. -/
  | two
  /-- two cycles, and three when the target is PCL. -/
  | table (m : DAddr)
deriving DecidableEq, Repr

/-- The line of the cycle table an instruction stands in (R420). -/
def timingClass : Instr → TimingClass
  | .addAm _ => .one
  | .addmAm m => .storing m
  | .addAx _ => .one
  | .adcAm _ => .one
  | .adcmAm m => .storing m
  | .subAx _ => .one
  | .subAm _ => .one
  | .submAm m => .storing m
  | .sbcAm _ => .one
  | .sbcmAm m => .storing m
  | .daa m => .storing m
  | .andAm _ => .one
  | .orAm _ => .one
  | .xorAm _ => .one
  | .andmAm m => .storing m
  | .ormAm m => .storing m
  | .xormAm m => .storing m
  | .andAx _ => .one
  | .orAx _ => .one
  | .xorAx _ => .one
  | .cpl m => .storing m
  | .cpla _ => .one
  | .inca _ => .one
  | .inc m => .storing m
  | .deca _ => .one
  | .dec m => .storing m
  | .rra _ => .one
  | .rr m => .storing m
  | .rrca _ => .one
  | .rrc m => .storing m
  | .rla _ => .one
  | .rl m => .storing m
  | .rlca _ => .one
  | .rlc m => .storing m
  | .movAm m => .moving m
  | .movmA m => .storing m
  | .movAx _ => .one
  | .clrBit m _ => .storing m
  | .setBit m _ => .storing m
  | .jmp _ => .two
  | .sz _ => .skipping
  | .sza _ => .skipping
  | .szBit _ _ => .skipping
  | .snzBit _ _ => .skipping
  | .siz _ => .skipping
  | .sdz _ => .skipping
  | .siza _ => .skipping
  | .sdza _ => .skipping
  | .call _ => .two
  | .ret => .two
  | .retAx _ => .two
  | .reti => .two
  | .tabrdc m => .table m
  | .tabrdl m => .table m
  | .nop => .one
  | .clrMem m => .storing m
  | .setMem m => .storing m
  | .clrWdt => .one
  | .clrWdt1 => .one
  | .clrWdt2 => .one
  | .swap m => .storing m
  | .swapa _ => .one
  | .halt => .one

/-- The resolved target of an operand is PCL (R420: an indirect write that lands on 06H counts too). -/
def targetsPcl (m : DAddr) (s : State) : Bool :=
  match resolve s m with
  | .ok t => t.isPcl
  | .error _ => false

/-- The resolved target of an operand is TMRAH (R337). -/
def targetsTmrah (m : DAddr) (s : State) : Bool :=
  match resolve s m with
  | .ok t => t = .bank0 0x20
  | .error _ => false

/-- The instruction cycles of an instruction that took state `s` to state `s1` (R420). -/
def cycles (i : Instr) (s s1 : State) : Nat :=
  match timingClass i with
  | .one => 1
  | .moving _ => 1
  | .storing m => if targetsPcl m s then 2 else 1
  | .skipping => if s1.pc = s.pc + 2 then 2 else 1
  | .two => 2
  | .table m => if targetsPcl m s then 3 else 2

/-- The instruction reads TMRAH while the counter runs in timer/event counter mode, so that the counts of this instruction
are drawn (R337). -/
def readsRunningCounter (i : Instr) (s : State) : Bool :=
  match timingClass i with
  | .moving m => s.tmrc.ton && !s.adcr.adc && targetsTmrah m s
  | .one => false
  | .storing _ => false
  | .skipping => false
  | .two => false
  | .table _ => false

end Sys2Proof.Machine
end

