-- ==== Sys2Proof/Machine/Step.lean ====
section
/-! DEFINITION. One step of the machine (R319): the core does one thing (it is held in reset, it sleeps, it enters an
interrupt, or it executes one instruction), the devices advance for the time that took, and the interrupt check is made. -/

namespace Sys2Proof.Machine

/-- An instruction that took the machine from `s` to `s1`, and the devices for its duration (R319, R420). -/
def afterInstr (i : Instr) (s s1 : State) : Host.Outcome State Fault Refusal :=
  period s (4 * cycles i s s1) (cycles i s s1) (readsRunningCounter i s) s1

/-- One step (R319). The fetched word is decoded under the run's encoding (R121). -/
def step (s : State) : Host.Outcome State Fault Refusal :=
  if s.resLow then .next (heldStep s)
  else if s.halted then haltedStep s
  else
    match s.entering with
    | some k => entryStep k s
    | none =>
      match s.par.enc.decode (fetchWord s) with
      | .error _ => .fault (.illegalWord s.pc (fetchWord s))
      | .ok i =>
        match exec i s with
        | .next s1 => afterInstr i s s1
        | .fault f => .fault f
        | .refused r => .refused r

/-- `s` with the program word whose bits are `w` placed where the next step fetches, and with the core neither in HALT, nor
held in reset, nor about to enter an interrupt (log entry 3). -/
def State.withFetchWord (s : State) (nbits w : Nat) : State :=
  { s with
    rom := update s.rom s.pc.toNat (BitVec.ofNat 16 (w % 2 ^ nbits))
    halted := false
    resLow := false
    entering := none }

end Sys2Proof.Machine
end

