-- ==== Sys2Proof/Machine/Pads.lean ====
section
/-! DEFINITION. What the outside can observe of the running chip (R430): what each pad of port A does (R340, R342, R343),
which clocks the buzzer and the LCD driver get (R6, R325), whether the LCD is driven (R347), and which RC oscillation runs
(R335). Nothing here is read by the core. -/

namespace Sys2Proof.Machine

open Sys2Proof.Config

/-- What a pad of port A does. -/
inductive PadFunction where
  /-- an input line, with or without its pull-high resistor. -/
  | input (pullHigh : Bool)
  /-- an output line that drives a level. -/
  | level (high : Bool)
  /-- the buzzer signal. -/
  | buzzer
  /-- the inverted buzzer signal. -/
  | buzzerBar
  /-- the EL carrier, whose frequency the spec does not give. -/
  | elCarrier
deriving DecidableEq, Repr

/-- PA0 in output mode under the buzzer option (R342). -/
def buzzerPad0 (latch : Byte) : PadFunction := if latch.getLsbD 0 then .level false else .buzzer

/-- PA1 in output mode under the buzzer option (R342). -/
def buzzerPad1 (latch : Byte) : PadFunction :=
  if latch.getLsbD 0 then .level false
  else if latch.getLsbD 1 then .level false
  else .buzzerBar

/-- PA2 in output mode under the EL carrier option (R343). -/
def carrierPad2 (latch : Byte) : PadFunction := if latch.getLsbD 2 then .elCarrier else .level false

/-- An output line of port A (R340, R342, R343). -/
def outputPad (mask : MaskOptions) (latch : Byte) (k : Nat) : PadFunction :=
  if mask.pa01Bz ∧ k = 0 then buzzerPad0 latch
  else if mask.pa01Bz ∧ k = 1 then buzzerPad1 latch
  else if mask.pa2El ∧ k = 2 then carrierPad2 latch
  else .level (latch.getLsbD k)

/-- What pad `k` of port A does (R340). -/
def padFunction (s : State) (k : Nat) : PadFunction :=
  if s.port.pac.getLsbD k then .input s.par.mask.paPullHigh else outputPad s.par.mask s.port.latch k

/-- The buzzer clock is fSYS divided by this (R6, R342). -/
def buzzerDivisor : BuzzerClock → Nat
  | .div4 => 4
  | .div8 => 8
  | .div16 => 16
  | .div32 => 32

/-- The LCD driver clock is fSYS divided by this (R6, R347). -/
def lcdClockDivisor : LcdClock → Nat
  | .div8 => 8
  | .div16 => 16
  | .div32 => 32
  | .div64 => 64

/-- The number of LCD commons (R6, R347). -/
def lcdCommons : LcdDuty → Nat
  | .half => 2
  | .third => 3

/-- The number of LCD segments: SEG13 is a common when three commons are selected (R347). -/
def lcdSegments : LcdDuty → Nat
  | .half => 14
  | .third => 13

/-- The LCD outputs are driven: not during reset, and in HALT only if the mask option leaves the LCD on (R347, R360). -/
def lcdDriven (s : State) : Bool := !s.resLow && (!s.halted || s.par.mask.oscOnAtHalt)

/-- The two RC oscillations of the A/D converter (R39, R335). -/
inductive RcOscillation where
  /-- MODE = 0: the reference resistor. -/
  | reference
  /-- MODE = 1: the resistor sensor. -/
  | sensor
deriving DecidableEq, Repr

/-- The RC oscillation that MODE selects while the A/D converter counts (R39, R335). DESIGN CHOICE (log entry 22): that neither of the
two runs with ADC/TM = 0 or TON = 0 is in no rule, and R333 lets an event counter count the on-chip oscillation. Nothing that is
counted depends on it: the cycles and the edges are the sample's. -/
def rcOscillation (s : State) : Option RcOscillation :=
  if s.adcr.adc && s.tmrc.ton then some (if s.adcr.mode then .sensor else .reference) else none

end Sys2Proof.Machine
end

