-- ==== Sys2Proof/Safety.lean ====
section
/-! DEFINITION. The words the claims are stated in: which accesses the spec gives an effect, what a write leaves at its
location and what it leaves alone, the flags of an addition and of a subtraction as the spec's prose gives them (R28, R152),
the invariant of the machine, and the ends of a run (R431). -/

namespace Sys2Proof.Machine

/-! ## Which accesses have an effect -/

/-- Of the four timer locations, those a MOV may read (R95, R96): in A/D converter mode all of them with the counter off, in
timer/event counter mode 20H and 21H. -/
def TimerReadable (s : State) (e : Byte) : Prop :=
  if s.adcr.adc then s.tmrc.ton = false else e = 0x20 ∨ e = 0x21

/-- Of the four timer locations, those a MOV may write (R95, R96): in A/D converter mode all of them with the counter off, in
timer/event counter mode 23H and 24H. -/
def TimerWritable (s : State) (e : Byte) : Prop :=
  if s.adcr.adc then s.tmrc.ton = false else e = 0x23 ∨ e = 0x24

/-- One of the four locations of the timer's counters (R40). -/
def TimerLocation (t : Target) : Prop := t = .bank0 0x20 ∨ t = .bank0 0x21 ∨ t = .bank0 0x23 ∨ t = .bank0 0x24

/-- A read of the target has an effect (R84 to R98): every location may be read by every instruction, but the timer
locations by MOV alone and only where R95 and R96 describe it. -/
def ReadAccepted (a : Access) (t : Target) (s : State) : Prop :=
  ∀ e, t = .bank0 e → TimerLocation t → a = .mov ∧ TimerReadable s e

/-- A value that TMRC may be given (R330, R331, R335): the mode does not change while the counter stays on, and the counter
is not on in a mode without meaning. -/
def TmrcAccepts (s : State) (v : Byte) : Prop :=
  (s.tmrc.ton = true → v.getLsbD 4 = true →
    v.getLsbD 6 = s.tmrc.tm1 ∧ v.getLsbD 5 = s.tmrc.tm0 ∧ v.getLsbD 3 = s.tmrc.te) ∧
  (v.getLsbD 4 = true → ¬(v.getLsbD 6 = false ∧ v.getLsbD 5 = false) ∧
    (s.adcr.adc = true → ¬(v.getLsbD 6 = true ∧ v.getLsbD 5 = true)))

/-- A value that ADCR may be given (R338): the personality does not change while the counter is on. -/
def AdcrAccepts (s : State) (v : Byte) : Prop := s.tmrc.ton = true → v.getLsbD 1 = s.adcr.adc

/-- A write of the target has an effect (R84 to R98, R331, R338). -/
def WriteAccepted (a : Access) (t : Target) (v : Byte) (s : State) : Prop :=
  (∀ e, t = .bank0 e → TimerLocation t → a = .mov ∧ TimerWritable s e) ∧
  (t = .bank0 0x22 → TmrcAccepts s v) ∧
  (t = .bank0 0x25 → AdcrAccepts s v)

/-- `[m]` of the instruction fetched at `s.pc` leads to the target `t` and reads as `v` (R81, R82). PCL reads as the next
address, so that the state is the one with the PC advanced (R24). -/
def Operand (a : Access) (m : DAddr) (s : State) (t : Target) (v : Byte) : Prop :=
  resolve s m = .ok t ∧ ∃ s1, memRead a t s.advance = .ok (v, s1)

/-! ## What a write leaves, and what it leaves alone -/

/-- The byte of data memory a target is, if it is memory and not a register (R41, R42). -/
def Target.memKey : Target → Option Nat
  | .self => none
  | .lcd e => some (lcdKey e)
  | .bank0 e => if 0x60 ≤ e.toNat then some (ramKey e) else none

/-- Every byte of data memory is as before, the one at the given key aside. -/
def MemKeptBut (k : Option Nat) (s s' : State) : Prop := ∀ a, k ≠ some a → lookup s'.mem a = lookup s.mem a

/-- Between a state and the one after an instruction whose destination is the target `t`, nothing has changed but the
destination, the PC, the flags, and the number of draws. The PC is the next address unless PCL is the destination. -/
structure KeptBut (t : Target) (s s' : State) : Prop where
  acc : t ≠ .bank0 0x05 → s'.acc = s.acc
  mp0 : t ≠ .bank0 0x01 → s'.mp0 = s.mp0
  mp1 : t ≠ .bank0 0x03 → s'.mp1 = s.mp1
  bp : t ≠ .bank0 0x04 → s'.bp = s.bp
  pc : t ≠ .bank0 0x06 → s'.pc = s.pc + 1
  tblp : t ≠ .bank0 0x07 → s'.tblp = s.tblp
  tblh : s'.tblh = s.tblh
  rt : t ≠ .bank0 0x09 → s'.rt = s.rt
  intc : t ≠ .bank0 0x0B → s'.intc = s.intc
  latch : t ≠ .bank0 0x12 → s'.port.latch = s.port.latch
  pac : t ≠ .bank0 0x13 → s'.port.pac = s.port.pac
  pads : s'.port.pads = s.port.pads
  tmrc : t ≠ .bank0 0x22 → s'.tmrc = s.tmrc
  adcr : t ≠ .bank0 0x25 → s'.adcr = s.adcr
  timer : t ≠ .bank0 0x22 → ¬TimerLocation t → s'.timer = s.timer
  mem : MemKeptBut t.memKey s s'
  stack : s'.stk0 = s.stk0 ∧ s'.stk1 = s.stk1 ∧ s'.sp = s.sp
  devices : s'.mft = s.mft ∧ s'.wdt = s.wdt ∧ s'.halted = s.halted ∧ s'.tbfAtHalt = s.tbfAtHalt ∧ s'.lvdAge = s.lvdAge
  model : s'.entering = s.entering ∧ s'.slipped = s.slipped ∧ s'.resLow = s.resLow ∧ s'.rom = s.rom ∧ s'.par = s.par ∧
    s'.env = s.env

/-- After a write of `v`, the location holds what the spec says it stores of `v` (R26, R30, R84 to R94, R99). The timer
locations are stated apart. -/
structure Written (t : Target) (v : Byte) (s s' : State) : Prop where
  mem : ∀ k, t.memKey = some k → lookup s'.mem k = some v
  acc : t = .bank0 0x05 → s'.acc = v
  mp0 : t = .bank0 0x01 → s'.mp0 = v
  mp1 : t = .bank0 0x03 → s'.mp1 = v
  bp : t = .bank0 0x04 → s'.bp = v
  pcl : t = .bank0 0x06 → s'.pc = (s.pc + 1).extractLsb' 8 2 ++ v
  tblp : t = .bank0 0x07 → s'.tblp = v
  rt : t = .bank0 0x09 → s'.rt = v.extractLsb' 0 3
  intc : t = .bank0 0x0B →
    s'.intc = { emi := v.getLsbD 0, eti := v.getLsbD 1, etbi := v.getLsbD 2, tf := v.getLsbD 4, tbf := v.getLsbD 5 }
  latch : t = .bank0 0x12 → s'.port.latch = v
  pac : t = .bank0 0x13 → s'.port.pac = v
  tmrc : t = .bank0 0x22 →
    s'.tmrc = { te := v.getLsbD 3, ton := v.getLsbD 4, tm0 := v.getLsbD 5, tm1 := v.getLsbD 6 }
  adcr : t = .bank0 0x25 →
    s'.adcr = { s.adcr with ovb := v.getLsbD 0, adc := v.getLsbD 1, mode := v.getLsbD 2, bon := v.getLsbD 3 }
  pulse : t = .bank0 0x22 →
    s'.timer = if s.tmrc.ton = false ∧ v.getLsbD 4 = true ∧ v.getLsbD 5 = true ∧ v.getLsbD 6 = true ∧ s.adcr.adc = false
      then { s.timer with pwArmed := true, pwRun := false } else s.timer

/-- The flags after a write that the instruction makes without writing flags of its own: C, AC, Z and OV follow the value
where STATUS is the destination, and TO and PDF never do (R30). -/
def StatusWritten (t : Target) (v : Byte) (f f' : Flags) : Prop :=
  if t = .bank0 0x0A then
    f' = { f with c := v.getLsbD 0, ac := v.getLsbD 1, z := v.getLsbD 2, ov := v.getLsbD 3 }
  else f' = f

/-! ## Results and flags of the arithmetic instructions -/

/-- `p + q + cin` modulo 256 (R152). -/
def sumByte (p q : Byte) (cin : Bool) : Byte := BitVec.ofNat 8 (p.toNat + q.toNat + cin.toNat)

/-- `p - q - (1 - c)` modulo 256 (R152): the carry `c` is the complement of a borrow, and is 1 for SUB. -/
def differenceByte (p q : Byte) (c : Bool) : Byte := BitVec.ofInt 8 ((p.toNat : Int) - q.toNat - (!c).toNat)

/-- The flags after an addition `p + q + cin`, as R28 and R152 put them: the carries out of bit 7 and bit 3, two's complement
overflow, and zero; TO and PDF are not touched. -/
structure AdditionFlags (p q : Byte) (cin : Bool) (f f' : Flags) : Prop where
  c : f'.c = true ↔ 256 ≤ p.toNat + q.toNat + cin.toNat
  ac : f'.ac = true ↔ 16 ≤ p.toNat % 16 + q.toNat % 16 + cin.toNat
  z : f'.z = true ↔ sumByte p q cin = 0
  ov : f'.ov = true ↔ p.toInt + q.toInt + (cin.toNat : Int) < -128 ∨ 127 < p.toInt + q.toInt + (cin.toNat : Int)
  rest : f'.timeOut = f.timeOut ∧ f'.pdf = f.pdf

/-- The flags after a subtraction `p - q - (1 - cin)`: C and AC say that no borrow took place, out of the byte and out of the low
nibble (R28, R152). -/
structure SubtractionFlags (p q : Byte) (cin : Bool) (f f' : Flags) : Prop where
  c : f'.c = true ↔ q.toNat + (!cin).toNat ≤ p.toNat
  ac : f'.ac = true ↔ q.toNat % 16 + (!cin).toNat ≤ p.toNat % 16
  z : f'.z = true ↔ differenceByte p q cin = 0
  ov : f'.ov = true ↔ p.toInt - q.toInt - ((!cin).toNat : Int) < -128 ∨ 127 < p.toInt - q.toInt - ((!cin).toNat : Int)
  rest : f'.timeOut = f.timeOut ∧ f'.pdf = f.pdf

/-! ## The two shapes of a result -/

/-- The instruction answers a next state that has the byte `r` in ACC, flags that satisfy `P`, and the next address in PC; all
else is as before (the number of draws aside). -/
def LeavesInAcc (i : Instr) (s : State) (r : Byte) (P : Flags → Prop) : Prop :=
  ∃ f d, P f ∧ exec i s = .next { s with pc := s.pc + 1, acc := r, flags := f, draws := d }

/-- The instruction answers a next state that has stored the byte `r` at the target, with flags that satisfy `P`; all else is
as before. -/
def LeavesAt (i : Instr) (s : State) (t : Target) (r : Byte) (P : Flags → Prop) : Prop :=
  ∃ s', exec i s = .next s' ∧ Written t r s s' ∧ KeptBut t s s' ∧ P s'.flags

/-- `SKIP`: the address after the next instruction if the condition holds, else the next address (R239). -/
def skipAddress (s : State) (c : Bool) : PAddr := if c then s.pc + 2 else s.pc + 1

/-! ## The instructions by what they may name -/

/-- The operand `[m]` of an instruction that has one (R129). -/
def memoryOperand : Instr → Option DAddr
  | .addAm m => some m
  | .addmAm m => some m
  | .addAx _ => none
  | .adcAm m => some m
  | .adcmAm m => some m
  | .subAx _ => none
  | .subAm m => some m
  | .submAm m => some m
  | .sbcAm m => some m
  | .sbcmAm m => some m
  | .daa m => some m
  | .andAm m => some m
  | .orAm m => some m
  | .xorAm m => some m
  | .andmAm m => some m
  | .ormAm m => some m
  | .xormAm m => some m
  | .andAx _ => none
  | .orAx _ => none
  | .xorAx _ => none
  | .cpl m => some m
  | .cpla m => some m
  | .inca m => some m
  | .inc m => some m
  | .deca m => some m
  | .dec m => some m
  | .rra m => some m
  | .rr m => some m
  | .rrca m => some m
  | .rrc m => some m
  | .rla m => some m
  | .rl m => some m
  | .rlca m => some m
  | .rlc m => some m
  | .movAm m => some m
  | .movmA m => some m
  | .movAx _ => none
  | .clrBit m _ => some m
  | .setBit m _ => some m
  | .jmp _ => none
  | .sz m => some m
  | .sza m => some m
  | .szBit m _ => some m
  | .snzBit m _ => some m
  | .siz m => some m
  | .sdz m => some m
  | .siza m => some m
  | .sdza m => some m
  | .call _ => none
  | .ret => none
  | .retAx _ => none
  | .reti => none
  | .tabrdc m => some m
  | .tabrdl m => some m
  | .nop => none
  | .clrMem m => some m
  | .setMem m => some m
  | .clrWdt => none
  | .clrWdt1 => none
  | .clrWdt2 => none
  | .swap m => some m
  | .swapa m => some m
  | .halt => none

/-- The instructions that may not have STATUS as their destination, because they write flags of their own (R30, U5). -/
def statusForbidden (m : DAddr) : List Instr :=
  [.addmAm m, .adcmAm m, .submAm m, .sbcmAm m, .daa m, .andmAm m, .ormAm m, .xormAm m, .cpl m, .inc m, .dec m, .rrc m, .rlc m]

/-- The instructions that write `[m]`, in the words of the cycle table, but for those that also skip or read a table (R420). -/
def storingForms (m : DAddr) (b : Nat) : List Instr :=
  [.addmAm m, .adcmAm m, .submAm m, .sbcmAm m, .daa m, .andmAm m, .ormAm m, .xormAm m, .cpl m, .inc m, .dec m, .rr m, .rrc m,
    .rl m, .rlc m, .movmA m, .clrBit m b, .setBit m b, .clrMem m, .setMem m, .swap m]

/-- The instructions that may skip, each with the operand values on which it does (R227 to R234). -/
def skippingForms (m : DAddr) (b : Nat) (v : Byte) : List (Instr × Prop) :=
  [(.sz m, v = 0x00), (.sza m, v = 0x00), (.szBit m b, v.getLsbD b = false), (.snzBit m b, v.getLsbD b = true),
    (.siz m, v = 0xFF), (.sdz m, v = 0x01), (.siza m, v = 0xFF), (.sdza m, v = 0x01)]

/-- The byte that an instruction other than MOV stores at its destination `[m]`, of the operand `v` it reads there (R129). -/
def storedByte (s : State) (v : Byte) : Instr → Option Byte
  | .addmAm _ => some (sumByte s.acc v false)
  | .adcmAm _ => some (sumByte s.acc v s.flags.c)
  | .submAm _ => some (differenceByte s.acc v true)
  | .sbcmAm _ => some (differenceByte s.acc v s.flags.c)
  | .daa _ => some (daaResult s.acc s.flags.c s.flags.ac)
  | .andmAm _ => some (s.acc &&& v)
  | .ormAm _ => some (s.acc ||| v)
  | .xormAm _ => some (s.acc ^^^ v)
  | .cpl _ => some (255 - v)
  | .inc _ | .siz _ => some (v + 1)
  | .dec _ | .sdz _ => some (v - 1)
  | .rr _ => some (ror v)
  | .rl _ => some (rol v)
  | .rrc _ => some (rorc v s.flags.c)
  | .rlc _ => some (rolc v s.flags.c)
  | .swap _ => some (swapNibbles v)
  | .clrBit _ b => some (clearBit v b)
  | .setBit _ b => some (setBit v b)
  | .clrMem _ => some 0x00
  | .setMem _ => some 0xFF
  | .tabrdc _ => some ((romRead s ((s.pc + 1).extractLsb' 8 2 ++ s.tblp)).extractLsb' 0 8)
  | .tabrdl _ => some ((romRead s (0x300 + s.tblp.setWidth 10)).extractLsb' 0 8)
  | .movmA _ => none
  | .addAm _ | .adcAm _ | .subAm _ | .sbcAm _ | .andAm _ | .orAm _ | .xorAm _ | .cpla _ | .inca _ | .deca _ => none
  | .rra _ | .rla _ | .rrca _ | .rlca _ | .swapa _ | .movAm _ => none
  | .sz _ | .sza _ | .szBit _ _ | .snzBit _ _ | .siza _ | .sdza _ => none
  | .addAx _ | .subAx _ | .andAx _ | .orAx _ | .xorAx _ | .movAx _ => none
  | .jmp _ | .call _ | .ret | .retAx _ | .reti | .nop | .clrWdt | .clrWdt1 | .clrWdt2 | .halt => none

/-! ## The devices and the program -/

/-- The watchdog does not strike in a period of `clocks` system clocks that ends with the sample `e` (R321); without a clock it
stands still. -/
def WatchdogSilent (clocks : Nat) (e : Config.EnvSample) (s : State) : Prop :=
  s.par.mask.wdtEn = true → 0 < clocks →
    s.wdt.age + clocks < 0x10000 ∧ (0x8000 ≤ s.wdt.age + clocks → e.wdtStrike = false)

/-- No reset of any kind happens in a period of `clocks` system clocks that ends with the sample `e` (R400). -/
def NoReset (clocks : Nat) (e : Config.EnvSample) (s : State) : Prop :=
  e.powerOn = false ∧ e.resLow = false ∧ WatchdogSilent clocks e s

/-- The state that instructions alone change: everything but the counters, the flags and bits that devices write (R103), the
pads and the model's own fields. -/
structure SameProgramState (s s' : State) : Prop where
  registers : s'.acc = s.acc ∧ s'.mp0 = s.mp0 ∧ s'.mp1 = s.mp1 ∧ s'.bp = s.bp ∧ s'.tblp = s.tblp ∧ s'.tblh = s.tblh
  control : s'.pc = s.pc ∧ s'.stk0 = s.stk0 ∧ s'.stk1 = s.stk1 ∧ s'.sp = s.sp ∧ s'.flags = s.flags
  interrupts : s'.intc.emi = s.intc.emi ∧ s'.intc.eti = s.intc.eti ∧ s'.intc.etbi = s.intc.etbi ∧ s'.rt = s.rt
  port : s'.port.latch = s.port.latch ∧ s'.port.pac = s.port.pac
  modes : s'.tmrc.te = s.tmrc.te ∧ s'.tmrc.tm0 = s.tmrc.tm0 ∧ s'.tmrc.tm1 = s.tmrc.tm1 ∧ s'.adcr.ovb = s.adcr.ovb ∧
    s'.adcr.adc = s.adcr.adc ∧ s'.adcr.mode = s.adcr.mode ∧ s'.adcr.bon = s.adcr.bon
  buffer : s'.timer.lbuf = s.timer.lbuf ∧ s'.timer.src = s.timer.src
  mem : ∀ a, lookup s'.mem a = lookup s.mem a
  watchdog : s'.wdt.w1 = s.wdt.w1 ∧ s'.wdt.w2 = s.wdt.w2 ∧ s'.tbfAtHalt = s.tbfAtHalt
  parameters : s'.rom = s.rom ∧ s'.par = s.par

/-- Nothing that the chip does of its own ends HALT in a period of `clocks` system clocks without a watchdog time-out: no time
base time-out wakes (R364), and no overflow (R366), because TF_WAKES_HALT is false, TF was 1 already, or the counter does not
overflow within the clocks: it is off before and after, or in timer mode and not near enough to FFFFH. With the oscillator off in
HALT nothing does. -/
def SleepsOn (clocks : Nat) (before s : State) : Prop :=
  s.par.mask.oscOnAtHalt = true →
    (s.tbfAtHalt = true ∨ s.intc.tbf = false ∧ ∀ j, 1 ≤ j → j ≤ clocks → (s.mft.toNat + j) % 2 ^ (8 + s.rt.toNat) ≠ 0) ∧
    (s.par.tfWakesHalt = false ∨ s.intc.tf = true ∨ before.tmrc.ton = false ∧ s.tmrc.ton = false ∨
      countMode s.tmrc s.adcr = .timer ∧ s.timer.ta.toNat + clocks ≤ 0xFFFF)

/-! ## Interrupts -/

/-- Interrupt `k` is acknowledgeable (R305): EMI, its enable bit and its request flag are 1, and the stack is not full. -/
def Acknowledgeable (k : IntSource) (s : State) : Prop :=
  s.intc.emi = true ∧ s.sp.val < 2 ∧
    match k with
    | .timer => s.intc.eti = true ∧ s.intc.tf = true
    | .timeBase => s.intc.etbi = true ∧ s.intc.tbf = true

/-! ## Counting -/

/-- How many of the events are clocks. -/
def clocksIn (es : List ClockEvent) : Nat := es.count .clk

/-- How many of the events are cycles of the RC oscillation. -/
def rcCyclesIn (es : List ClockEvent) : Nat := es.count (.pin .rcCycle)

/-- How many of the events are falling, or rising, edges on RCIN. -/
def edgesIn (falling : Bool) (es : List ClockEvent) : Nat :=
  es.count (.pin (if falling then .rcinFall else .rcinRise))

/-- From `s1` to `s'` the counter has counted `k` in timer/event counter mode: it stands `k` higher, or has overflowed and set TF
(R332). -/
def Counted (k : Nat) (s1 s' : State) : Prop :=
  if s1.timer.ta.toNat + k ≤ 0xFFFF then
    s'.timer.ta = BitVec.ofNat 16 (s1.timer.ta.toNat + k) ∧ s'.intc.tf = s1.intc.tf
  else s'.intc.tf = true

/-- From `s1` to `s'` timer A has counted `k` and timer B `j` in A/D converter mode, neither past FFFFH (R335). -/
def Converted (k j : Nat) (s1 s' : State) : Prop :=
  s1.timer.ta.toNat + k ≤ 0xFFFF → s1.timer.tb.toNat + j ≤ 0xFFFF →
    s'.timer.ta = BitVec.ofNat 16 (s1.timer.ta.toNat + k) ∧ s'.timer.tb = BitVec.ofNat 16 (s1.timer.tb.toNat + j) ∧
      s'.intc.tf = s1.intc.tf

/-- From `s1` to `s'` a pulse-width measurement has counted `k` and is armed and running as given; it clears TON when it ends
(R334). -/
structure Measured (k : Nat) (armed run ended : Bool) (s1 s' : State) : Prop where
  counted : Counted k s1 s'
  marks : s'.timer.pwArmed = armed ∧ s'.timer.pwRun = run
  ton : s'.tmrc.ton = (s1.tmrc.ton && !ended)

/-- From `s1` to `s'` a pulse-width measurement has seen the events `es`, with TE as given (R334): one that waits counts from its
first start edge on, one that runs counts the clocks up to its first stop edge, which ends it and clears TON, and after that, or
if it is not armed, nothing counts. -/
structure PulseSeen (te : Bool) (es : List ClockEvent) (s1 s' : State) : Prop where
  /-- nothing is armed. -/
  unarmed : s1.timer.pwArmed = false → s1.timer.pwRun = false → Measured 0 false false false s1 s'
  /-- armed, and no start edge comes. -/
  waits : s1.timer.pwArmed = true → s1.timer.pwRun = false → edgesIn (!te) es = 0 → Measured 0 true false false s1 s'
  /-- armed, and the start edge comes, but no stop edge after it. -/
  starts : ∀ wait pulse, s1.timer.pwArmed = true → s1.timer.pwRun = false →
    es = wait ++ .pin (if te then .rcinRise else .rcinFall) :: pulse → edgesIn (!te) wait = 0 → edgesIn te pulse = 0 →
    Measured (clocksIn pulse) true true false s1 s'
  /-- armed, and both edges come. -/
  whole : ∀ wait pulse after, s1.timer.pwArmed = true → s1.timer.pwRun = false →
    es = wait ++ .pin (if te then .rcinRise else .rcinFall) :: (pulse ++ .pin (if te then .rcinFall else .rcinRise) :: after) →
    edgesIn (!te) wait = 0 → edgesIn te pulse = 0 → Measured (clocksIn pulse) false false true s1 s'
  /-- running, and no stop edge comes. -/
  runs : s1.timer.pwRun = true → edgesIn te es = 0 → Measured (clocksIn es) s1.timer.pwArmed true false s1 s'
  /-- running, and the stop edge comes. -/
  stops : ∀ pulse after, s1.timer.pwRun = true → es = pulse ++ .pin (if te then .rcinFall else .rcinRise) :: after →
    edgesIn te pulse = 0 → Measured (clocksIn pulse) false false true s1 s'

/-- How many of the sample's events are falling, or rising, edges on RCIN. -/
def edgesArriving (falling : Bool) (e : Config.EnvSample) : Nat :=
  e.pins.flatten.count (if falling then .rcinFall else .rcinRise)

/-! ## The invariant -/

/-- What every step keeps: the two stores are in canonical form; the counter is never in a mode without meaning (R330, R335)
and does not count outside timer mode in HALT (R362); a pulse-width measurement that runs was armed (R334); an enabled
watchdog has not outlived its window (R321); a chip held in reset stands at 000H with an empty stack, interrupts disabled and
not requested, the counter off and port A as inputs (R401, R402); and an
interrupt about to be entered is acknowledgeable (R305, R306). A core in HALT shows PDF = 1 and TO = 0 (R263), and one whose
oscillator runs in HALT has TBF = 0 if it had at the HALT, since a time-out would have ended HALT (R364). -/
structure State.Inv (s : State) : Prop where
  memory : Memory.wf s.mem = true
  program : Rom.wf s.rom = true
  mode : countMode s.tmrc s.adcr ≠ .unused
  haltMode : s.halted = true → countsOutside s = false
  haltFlags : s.halted = true → s.flags.pdf = true ∧ s.flags.timeOut = false
  haltTimeBase : s.halted = true → s.par.mask.oscOnAtHalt = true → s.tbfAtHalt = false → s.intc.tbf = false
  pulse : s.timer.pwRun = true → s.timer.pwArmed = true
  watchdog : s.par.mask.wdtEn = true → s.wdt.age < 0x10000
  held : s.resLow = true → s.pc = 0 ∧ s.sp = 0 ∧ s.halted = false ∧
    s.intc = { emi := false, eti := false, etbi := false, tf := false, tbf := false } ∧ s.tmrc.ton = false ∧
    s.port.latch = 0xFF ∧ s.port.pac = 0xFF
  entry : s.entering = none ∨ s.entering = pendingInterrupt s

/-! ## Ends of a run -/

/-- The core runs, and `s.pc` holds the given instruction under the run's encoding. -/
def RunsAt (i : Instr) (s : State) : Prop :=
  s.par.enc.decode (fetchWord s) = .ok i ∧ s.halted = false ∧ s.resLow = false

/-- The loop of R431 (a): the PC has reached a JMP to itself. -/
def AtSelfJump (s : State) : Prop := RunsAt (.jmp s.pc) s

/-- The loop of R431 (a) for a part whose watchdog is enabled, `L: CLR WDT / JMP L` at address `l`: the PC is at the CLR WDT, or at
the JMP with the watchdog cleared by the CLR WDT before it. -/
def AtClearingLoop (l : PAddr) (s : State) : Prop :=
  s.par.enc.decode (romRead s l) = .ok .clrWdt ∧ s.par.enc.decode (romRead s (l + 1)) = .ok (.jmp l) ∧
    (RunsAt .clrWdt s ∧ s.pc = l ∨ RunsAt (.jmp l) s ∧ s.pc = l + 1 ∧ (s.par.mask.wdtEn = true → s.wdt.age ≤ 4))

/-- The core is in one of the two loops of R431 (a). -/
def AtLoop (s : State) : Prop := AtSelfJump s ∨ ∃ l, AtClearingLoop l s

/-- Idle loop (R431 (a)): the PC is in such a loop with interrupts disabled. -/
def IdleLoop (s : State) : Prop := AtLoop s ∧ s.intc.emi = false ∧ s.entering = none

/-- Idle loop with interrupts enabled (R431 (a)), for claims that quantify over interrupts. -/
def OpenIdleLoop (s : State) : Prop := AtLoop s ∧ s.intc.emi = true ∧ s.entering = none

/-- Permanent HALT (R431 (b)): the core is in HALT and nothing the chip does on its own can end it. -/
def PermanentHalt (s : State) : Prop :=
  s.halted = true ∧ s.resLow = false ∧ countsOutside s = false ∧
    (s.par.mask.oscOnAtHalt = true →
      s.par.mask.wdtEn = false ∧ s.tbfAtHalt = true ∧ (s.tmrc.ton = false ∨ s.par.tfWakesHalt = false))

/-- The sample brings no pad stimulus that ends HALT (R365). -/
def NoStimulus (e : Config.EnvSample) (s : State) : Prop := e.paWake = false ∨ e.pads = s.port.pads

end Sys2Proof.Machine
end

