-- ==== Sys2Proof/Certificates/Slice0/Obligations.lean ====
section
/-! DEFINITION. The statements for the provers: what each instruction does and leaves alone, what an interrupt, a reset and
each device do, and what every step keeps. `d` stands for the number of draws after the instruction, which no register
shows. -/

section Statements

open Sys2Proof Sys2Proof.Machine

/-! ## Encoding -/

/-- Decoding the encoded form of a well-formed instruction gives the instruction back, with every operand: under the default
encoding (R122 to R125), and under any other value of the parameter ENC that lists no word twice (R121). -/
def Obligations.DecodeOfEncodeIsIdentity : Prop :=
  (∀ i : Instr, i.wf = true → decode (encode i) = .ok i) ∧
    ∀ (table : List (Word × Instr)) (i : Instr) (w : Word), (table.map Prod.fst).Nodup → i.wf = true →
      (Config.Encoding.listed table).encode i = some w → (Config.Encoding.listed table).decode w = .ok i

/-- A word that decodes is the encoding of what it decodes to, which is well formed: no word has two meanings, and no bit of
an assigned word is ignored; under the default encoding (R124, R125), and under any other value of the parameter ENC that lists
no instruction twice (R121). -/
def Obligations.EncodeOfDecodeIsIdentity : Prop :=
  (∀ (w : Word) (i : Instr), decode w = .ok i → i.wf = true ∧ encode i = w) ∧
    ∀ (table : List (Word × Instr)) (i : Instr) (w : Word), (table.map Prod.snd).Nodup →
      (Config.Encoding.listed table).decode w = .ok i → i.wf = true ∧ (Config.Encoding.listed table).encode i = some w

/-- The unassigned words of R126, and no others, do not decode under the default encoding; and a core that fetches a word that
does not decode under the run's encoding, any of these words among them, stops by name. The default encoding, and the stop, are
the spec's own choice (decisions D1 and D2; log entries 1 and 9). -/
def Obligations.UnassignedWordsAreIllegal : Prop :=
  ∀ w : Word,
    (Config.Encoding.provisional.decode w = .error (.illegalWord w) ↔
      (0x0007 ≤ w.toNat ∧ w.toNat ≤ 0x007F) ∨ (0x0780 ≤ w.toNat ∧ w.toNat ≤ 0x08FF) ∨
      (0x1C00 ≤ w.toNat ∧ w.toNat ≤ 0x1CFF) ∨ (0x1E00 ≤ w.toNat ∧ w.toNat ≤ 0x1E7F) ∨
      (0x2400 ≤ w.toNat ∧ w.toNat ≤ 0x27FF) ∨ (0x2C00 ≤ w.toNat ∧ w.toNat ≤ 0x2FFF) ∨ 0x4000 ≤ w.toNat) ∧
    ∀ s : State, s.resLow = false → s.halted = false → s.entering = none → fetchWord s = w →
      s.par.enc.decode w = .error (.illegalWord w) → step s = .fault (.illegalWord s.pc w)

/-- A few words written out from R125, one of every format and more, decode to the instructions they stand for. These bit patterns
are the spec's own provisional default of the parameter ENC and not known of the chip (R121, decision D1; log entry 1). -/
def Obligations.WordsOfTheSpecDecode : Prop :=
  decode 0b0000001101100000#16 = .ok (.addAm 0x60) ∧ decode 0b0000101110100101#16 = .ok (.addAx 0xA5) ∧
    decode 0b0000011110000101#16 = .error (.illegalWord 0b0000011110000101#16) ∧
    decode 0b0000011100000101#16 = .ok (.movAm 0x05) ∧ decode 0b0000000010100000#16 = .ok (.movmA 0x20) ∧
    decode 0b0011010111100000#16 = .ok (.clrBit 0x60 3) ∧ decode 0b0011101110010010#16 = .ok (.snzBit 0x12 7) ∧
    decode 0b0010100100100011#16 = .ok (.jmp 0x123) ∧ decode 0b0010001111111111#16 = .ok (.call 0x3FF) ∧
    decode 0b0001111010000110#16 = .ok (.daa 0x06) ∧ decode 0b0001101011100001#16 = .ok (.rlc 0x61) ∧
    decode 0b0001010000000000#16 = .ok (.inca 0x00) ∧ decode 0b0001110111100001#16 = .ok (.tabrdl 0x61) ∧
    decode 0b0000000000000100#16 = .ok .reti ∧ decode 0b0000000000000010#16 = .ok .halt

/-! ## Arithmetic -/

/-- ADD A,[m] and ADC A,[m]: the sum in ACC and the four flags of an addition. -/
def Obligations.AdditionToAccumulator : Prop :=
  ∀ (s : State) (m : DAddr) (t : Target) (v : Byte), Operand .other m s t v →
    LeavesInAcc (.addAm m) s (sumByte s.acc v false) (AdditionFlags s.acc v false s.flags) ∧
    LeavesInAcc (.adcAm m) s (sumByte s.acc v s.flags.c) (AdditionFlags s.acc v s.flags.c s.flags)

/-- SUB A,[m] and SBC A,[m]: the difference in ACC and the four flags of a subtraction. -/
def Obligations.SubtractionToAccumulator : Prop :=
  ∀ (s : State) (m : DAddr) (t : Target) (v : Byte), Operand .other m s t v →
    LeavesInAcc (.subAm m) s (differenceByte s.acc v true) (SubtractionFlags s.acc v true s.flags) ∧
    LeavesInAcc (.sbcAm m) s (differenceByte s.acc v s.flags.c) (SubtractionFlags s.acc v s.flags.c s.flags)

/-- The instructions with immediate data: ADD and SUB A,x leave the sum or difference in ACC with its four flags, AND, OR and XOR
A,x write Z alone, and MOV A,x writes no flag. -/
def Obligations.ImmediateOperations : Prop :=
  ∀ (s : State) (x : Byte),
    LeavesInAcc (.addAx x) s (sumByte s.acc x false) (AdditionFlags s.acc x false s.flags) ∧
    LeavesInAcc (.subAx x) s (differenceByte s.acc x true) (SubtractionFlags s.acc x true s.flags) ∧
    LeavesInAcc (.andAx x) s (s.acc &&& x) (· = { s.flags with z := decide (s.acc &&& x = 0) }) ∧
    LeavesInAcc (.orAx x) s (s.acc ||| x) (· = { s.flags with z := decide (s.acc = 0 ∧ x = 0) }) ∧
    LeavesInAcc (.xorAx x) s (s.acc ^^^ x) (· = { s.flags with z := decide (s.acc = x) }) ∧
    LeavesInAcc (.movAx x) s x (· = s.flags)

/-- ADDM A,[m] and ADCM A,[m] with any destination but STATUS: the sum at the destination and the four flags of an
addition. -/
def Obligations.AdditionToMemory : Prop :=
  ∀ (s : State) (m : DAddr) (t : Target) (v : Byte), Operand .other m s t v → t ≠ .bank0 0x0A →
    (WriteAccepted .other t (sumByte s.acc v false) s →
      LeavesAt (.addmAm m) s t (sumByte s.acc v false) (AdditionFlags s.acc v false s.flags)) ∧
    (WriteAccepted .other t (sumByte s.acc v s.flags.c) s →
      LeavesAt (.adcmAm m) s t (sumByte s.acc v s.flags.c) (AdditionFlags s.acc v s.flags.c s.flags))

/-- SUBM A,[m] and SBCM A,[m] with any destination but STATUS: ACC minus the operand at the destination and the four flags of
a subtraction. -/
def Obligations.SubtractionToMemory : Prop :=
  ∀ (s : State) (m : DAddr) (t : Target) (v : Byte), Operand .other m s t v → t ≠ .bank0 0x0A →
    (WriteAccepted .other t (differenceByte s.acc v true) s →
      LeavesAt (.submAm m) s t (differenceByte s.acc v true) (SubtractionFlags s.acc v true s.flags)) ∧
    (WriteAccepted .other t (differenceByte s.acc v s.flags.c) s →
      LeavesAt (.sbcmAm m) s t (differenceByte s.acc v s.flags.c) (SubtractionFlags s.acc v s.flags.c s.flags))

/-- DAA [m] with any destination but STATUS: the two nibbles of R163 at the destination, C alone of the flags, whatever ACC
holds. That the carry into the high nibble is 1 exactly when the low nibble of ACC is above 9, and the high nibble without an
adjustment, are a choice, in part from general knowledge (decision D27, GK3; log entry 32). -/
def Obligations.DecimalAdjustment : Prop :=
  ∀ (s : State) (m : DAddr) (t : Target) (r : Byte), resolve s m = .ok t → t ≠ .bank0 0x0A →
    (∀ lo hi ac1 : Nat, lo = s.acc.toNat % 16 → hi = s.acc.toNat / 16 → (ac1 = if 9 < lo then 1 else 0) →
      r.toNat % 16 = (if 9 < lo ∨ s.flags.ac = true then (lo + 6) % 16 else lo) ∧
      r.toNat / 16 = (if 9 < hi + ac1 ∨ s.flags.c = true then (hi + 6 + ac1) % 16 else (hi + ac1) % 16)) →
    WriteAccepted .other t r s →
    LeavesAt (.daa m) s t r fun f =>
      f = { s.flags with
        c := s.flags.c || decide (9 < s.acc.toNat / 16 + if 9 < s.acc.toNat % 16 then 1 else 0) }

/-- ADD A,x and then DAA to a RAM location add two packed decimal numbers of two digits: the location holds the two digits of
the sum, and C says that the sum is 100 or more. It rests on the reading of DAA that decision D27 chooses (GK3; log entry 32). -/
def Obligations.DecimalAdditionIsCorrect : Prop :=
  ∀ (s : State) (x : Byte) (m : DAddr) (e : Byte) (a b c d : Nat), a ≤ 9 → b ≤ 9 → c ≤ 9 → d ≤ 9 →
    s.acc.toNat = 16 * a + b → x.toNat = 16 * c + d → resolve s m = .ok (.bank0 e) → 0x60 ≤ e.toNat →
    ∃ s1 s2 r, exec (.addAx x) s = .next s1 ∧ exec (.daa m) s1 = .next s2 ∧ lookup s2.mem e.toNat = some r ∧
      10 * (r.toNat / 16) + r.toNat % 16 = (10 * a + b + (10 * c + d)) % 100 ∧
      (s2.flags.c = true ↔ 100 ≤ 10 * a + b + (10 * c + d))

/-! ## Logic, increment, decrement -/

/-- AND, OR, XOR A,[m], CPLA, INCA and DECA: the result in ACC, Z alone of the flags. -/
def Obligations.LogicAndStepToAccumulator : Prop :=
  ∀ (s : State) (m : DAddr) (t : Target) (v : Byte), Operand .other m s t v →
    LeavesInAcc (.andAm m) s (s.acc &&& v) (· = { s.flags with z := decide (s.acc &&& v = 0) }) ∧
    LeavesInAcc (.orAm m) s (s.acc ||| v) (· = { s.flags with z := decide (s.acc ||| v = 0) }) ∧
    LeavesInAcc (.xorAm m) s (s.acc ^^^ v) (· = { s.flags with z := decide (s.acc = v) }) ∧
    LeavesInAcc (.cpla m) s (255 - v) (· = { s.flags with z := decide (v = 0xFF) }) ∧
    LeavesInAcc (.inca m) s (v + 1) (· = { s.flags with z := decide (v = 0xFF) }) ∧
    LeavesInAcc (.deca m) s (v - 1) (· = { s.flags with z := decide (v = 0x01) })

/-- ANDM, ORM, XORM, CPL, INC and DEC with any destination but STATUS: the result at the destination, Z alone of the flags. -/
def Obligations.LogicAndStepToMemory : Prop :=
  ∀ (s : State) (m : DAddr) (t : Target) (v : Byte), Operand .other m s t v → t ≠ .bank0 0x0A →
    (WriteAccepted .other t (s.acc &&& v) s →
      LeavesAt (.andmAm m) s t (s.acc &&& v) (· = { s.flags with z := decide (s.acc &&& v = 0) })) ∧
    (WriteAccepted .other t (s.acc ||| v) s →
      LeavesAt (.ormAm m) s t (s.acc ||| v) (· = { s.flags with z := decide (s.acc ||| v = 0) })) ∧
    (WriteAccepted .other t (s.acc ^^^ v) s →
      LeavesAt (.xormAm m) s t (s.acc ^^^ v) (· = { s.flags with z := decide (s.acc = v) })) ∧
    (WriteAccepted .other t (255 - v) s →
      LeavesAt (.cpl m) s t (255 - v) (· = { s.flags with z := decide (v = 0xFF) })) ∧
    (WriteAccepted .other t (v + 1) s →
      LeavesAt (.inc m) s t (v + 1) (· = { s.flags with z := decide (v = 0xFF) })) ∧
    (WriteAccepted .other t (v - 1) s →
      LeavesAt (.dec m) s t (v - 1) (· = { s.flags with z := decide (v = 0x01) }))

/-! ## Rotates, swaps, single bits -/

/-- RRA, RLA and SWAPA: the bits of the operand turned by one, by one, and by four places in ACC; no flag. -/
def Obligations.PlainRotateToAccumulator : Prop :=
  ∀ (s : State) (m : DAddr) (t : Target) (v r : Byte), Operand .other m s t v →
    ((∀ k : Fin 8, r.getLsbD k = v.getLsbD ((k + 1) % 8)) → LeavesInAcc (.rra m) s r (· = s.flags)) ∧
    ((∀ k : Fin 8, r.getLsbD ((k + 1) % 8) = v.getLsbD k) → LeavesInAcc (.rla m) s r (· = s.flags)) ∧
    ((∀ k : Fin 8, r.getLsbD ((k + 4) % 8) = v.getLsbD k) → LeavesInAcc (.swapa m) s r (· = s.flags))

/-- RR, RL and SWAP with any destination: the bits turned in place; the flags change only where STATUS is the destination. -/
def Obligations.PlainRotateInMemory : Prop :=
  ∀ (s : State) (m : DAddr) (t : Target) (v r : Byte), Operand .other m s t v → WriteAccepted .other t r s →
    ((∀ k : Fin 8, r.getLsbD k = v.getLsbD ((k + 1) % 8)) → LeavesAt (.rr m) s t r (StatusWritten t r s.flags)) ∧
    ((∀ k : Fin 8, r.getLsbD ((k + 1) % 8) = v.getLsbD k) → LeavesAt (.rl m) s t r (StatusWritten t r s.flags)) ∧
    ((∀ k : Fin 8, r.getLsbD ((k + 4) % 8) = v.getLsbD k) → LeavesAt (.swap m) s t r (StatusWritten t r s.flags))

/-- RRCA and RLCA: the ring of nine bits that C completes, turned by one place in ACC and C; no other flag. -/
def Obligations.CarryRotateToAccumulator : Prop :=
  ∀ (s : State) (m : DAddr) (t : Target) (v r : Byte), Operand .other m s t v →
    ((∀ k : Fin 7, r.getLsbD k = v.getLsbD (k + 1)) → r.getLsbD 7 = s.flags.c →
      LeavesInAcc (.rrca m) s r (· = { s.flags with c := v.getLsbD 0 })) ∧
    ((∀ k : Fin 7, r.getLsbD (k + 1) = v.getLsbD k) → r.getLsbD 0 = s.flags.c →
      LeavesInAcc (.rlca m) s r (· = { s.flags with c := v.getLsbD 7 }))

/-- RRC and RLC with any destination but STATUS: the ring of nine bits turned in place; C alone of the flags. -/
def Obligations.CarryRotateInMemory : Prop :=
  ∀ (s : State) (m : DAddr) (t : Target) (v r : Byte), Operand .other m s t v → t ≠ .bank0 0x0A →
    WriteAccepted .other t r s →
    ((∀ k : Fin 7, r.getLsbD k = v.getLsbD (k + 1)) → r.getLsbD 7 = s.flags.c →
      LeavesAt (.rrc m) s t r (· = { s.flags with c := v.getLsbD 0 })) ∧
    ((∀ k : Fin 7, r.getLsbD (k + 1) = v.getLsbD k) → r.getLsbD 0 = s.flags.c →
      LeavesAt (.rlc m) s t r (· = { s.flags with c := v.getLsbD 7 }))

/-- CLR [m].i and SET [m].i with any destination: the byte written back differs from the byte read in bit i alone. -/
def Obligations.SingleBitWrite : Prop :=
  ∀ (s : State) (m : DAddr) (t : Target) (v r : Byte) (i : Fin 8), Operand .other m s t v → WriteAccepted .other t r s →
    (∀ k : Fin 8, k ≠ i → r.getLsbD k = v.getLsbD k) →
    (r.getLsbD i = false → LeavesAt (.clrBit m i) s t r (StatusWritten t r s.flags)) ∧
    (r.getLsbD i = true → LeavesAt (.setBit m i) s t r (StatusWritten t r s.flags))

/-! ## Data move, clear and set, table read -/

/-- MOV A,[m] from anywhere but TMRAH and TMRBH: the operand in ACC, no flag. -/
def Obligations.LoadAccumulator : Prop :=
  ∀ (s : State) (m : DAddr) (t : Target) (v : Byte), Operand .mov m s t v → t ≠ .bank0 0x20 → t ≠ .bank0 0x23 →
    LeavesInAcc (.movAm m) s v (· = s.flags)

/-- MOV A,[m] from the timer locations that R95 and R96 describe: the high byte with the low byte latched, or the latched low
byte; in A/D converter mode with the counter off also those of timer B. -/
def Obligations.LoadFromTimer : Prop :=
  ∀ (s : State) (m : DAddr), (s.adcr.adc = true → s.tmrc.ton = false) →
    (resolve s m = .ok (.bank0 0x20) →
      exec (.movAm m) s = .next { s with
        pc := s.pc + 1, acc := s.timer.ta.extractLsb' 8 8,
        timer := { s.timer with lbuf := s.timer.ta.extractLsb' 0 8, src := .rdA } }) ∧
    (resolve s m = .ok (.bank0 0x21) → s.timer.src = .rdA →
      exec (.movAm m) s = .next { s with pc := s.pc + 1, acc := s.timer.lbuf }) ∧
    (resolve s m = .ok (.bank0 0x23) → s.adcr.adc = true →
      exec (.movAm m) s = .next { s with
        pc := s.pc + 1, acc := s.timer.tb.extractLsb' 8 8,
        timer := { s.timer with lbuf := s.timer.tb.extractLsb' 0 8, src := .rdB } }) ∧
    (resolve s m = .ok (.bank0 0x24) → s.adcr.adc = true → s.timer.src = .rdB →
      exec (.movAm m) s = .next { s with pc := s.pc + 1, acc := s.timer.lbuf })

/-- The instructions that store without reading, to any location: MOV [m],A leaves ACC at the destination, CLR [m] 00H and SET [m]
FFH; the flags change only where STATUS is the destination. -/
def Obligations.StoreWithoutRead : Prop :=
  ∀ (s : State) (m : DAddr) (t : Target), resolve s m = .ok t →
    (WriteAccepted .mov t s.acc s → LeavesAt (.movmA m) s t s.acc (StatusWritten t s.acc s.flags)) ∧
    (WriteAccepted .other t 0x00 s → LeavesAt (.clrMem m) s t 0x00 (StatusWritten t 0x00 s.flags)) ∧
    (WriteAccepted .other t 0xFF s → LeavesAt (.setMem m) s t 0xFF (StatusWritten t 0xFF s.flags))

/-- MOV [m],A to the timer locations that R95 and R96 describe: a low byte goes to the buffer alone; a high byte loads the 16-bit
register together with the buffered low byte, and in timer/event counter mode with the counter off the counter as well. Where
another use filled the buffer, the low byte of the load is a free value (U8; the model's choice, log entry 13). -/
def Obligations.StoreToTimer : Prop :=
  ∀ (s : State) (m : DAddr), (s.adcr.adc = true → s.tmrc.ton = false) →
    (resolve s m = .ok (.bank0 0x24) →
      exec (.movmA m) s = .next { s with pc := s.pc + 1, timer := { s.timer with lbuf := s.acc, src := .wrB } }) ∧
    (resolve s m = .ok (.bank0 0x23) → ∃ (low : Byte) (d : Nat), (s.timer.src = .wrB → low = s.timer.lbuf) ∧
      exec (.movmA m) s = .next { s with
        pc := s.pc + 1, draws := d,
        timer := { s.timer with
          tb := s.acc ++ low,
          ta := if s.adcr.adc = false ∧ s.tmrc.ton = false then s.acc ++ low else s.timer.ta } }) ∧
    (resolve s m = .ok (.bank0 0x21) → s.adcr.adc = true →
      exec (.movmA m) s = .next { s with pc := s.pc + 1, timer := { s.timer with lbuf := s.acc, src := .wrA } }) ∧
    (resolve s m = .ok (.bank0 0x20) → s.adcr.adc = true →
      ∃ (low : Byte) (d : Nat), (s.timer.src = .wrA → low = s.timer.lbuf) ∧
        exec (.movmA m) s = .next { s with
          pc := s.pc + 1, draws := d, timer := { s.timer with ta := s.acc ++ low } })

/-- TABRDC [m] and TABRDL [m]: the low byte of the table word at the destination, its high byte in TBLH, whatever the
destination is; the flags change only where STATUS is the destination. That the page of TABRDC is that of the address after
the instruction is a choice, which matters at an address ending in FFH (decision D9; log entry 26). -/
def Obligations.TableReads : Prop :=
  ∀ (s : State) (m : DAddr) (t : Target) (w : Word), resolve s m = .ok t →
    WriteAccepted .other t (w.extractLsb' 0 8) s →
    (w = romRead s ((s.pc + 1).extractLsb' 8 2 ++ s.tblp) →
      ∃ s', exec (.tabrdc m) s = .next { s' with tblh := w.extractLsb' 8 8 } ∧ Written t (w.extractLsb' 0 8) s s' ∧
        KeptBut t s s' ∧ StatusWritten t (w.extractLsb' 0 8) s.flags s'.flags) ∧
    (w = romRead s (0x300 + s.tblp.setWidth 10) →
      ∃ s', exec (.tabrdl m) s = .next { s' with tblh := w.extractLsb' 8 8 } ∧ Written t (w.extractLsb' 0 8) s s' ∧
        KeptBut t s s' ∧ StatusWritten t (w.extractLsb' 0 8) s.flags s'.flags)

/-! ## Control flow -/

/-- JMP loads the PC; CALL also pushes the address after it, and with two entries held drops the oldest. RET, RET A,x and RETI with a
return address held take the youngest one into the PC, and the depth falls by one; RET A,x also loads ACC, and RETI sets EMI.
Nothing else changes. -/
def Obligations.JumpsCallsAndReturns : Prop :=
  ∀ (s : State) (a : PAddr),
    exec (.jmp a) s = .next { s with pc := a } ∧
    (s.sp = 0 → exec (.call a) s = .next { s with pc := a, stk0 := s.pc + 1, sp := 1 }) ∧
    (s.sp = 1 → exec (.call a) s = .next { s with pc := a, stk1 := s.pc + 1, sp := 2 }) ∧
    (s.sp = 2 → exec (.call a) s = .next { s with pc := a, stk0 := s.stk1, stk1 := s.pc + 1 }) ∧
    ∀ (x : Byte) (ret : PAddr) (depth : Fin 3),
      (s.sp = 1 ∧ ret = s.stk0 ∧ depth = 0) ∨ (s.sp = 2 ∧ ret = s.stk1 ∧ depth = 1) →
      exec .ret s = .next { s with pc := ret, sp := depth } ∧
      exec (.retAx x) s = .next { s with pc := ret, sp := depth, acc := x } ∧
      exec .reti s = .next { s with pc := ret, sp := depth, intc := { s.intc with emi := true } }

/-- SZ [m], SZ [m].i and SNZ [m].i skip one instruction or not and change nothing else; SZA, SIZA and SDZA also put the operand,
the operand plus one, or minus one, into ACC, and skip when that is 00H; no flag changes. -/
def Obligations.SkipTests : Prop :=
  ∀ (s : State) (m : DAddr) (t : Target) (v : Byte) (i : Fin 8), Operand .other m s t v →
    ∃ d, exec (.sz m) s = .next { s with pc := skipAddress s (decide (v = 0)), draws := d } ∧
      exec (.szBit m i) s = .next { s with pc := skipAddress s (!v.getLsbD i), draws := d } ∧
      exec (.snzBit m i) s = .next { s with pc := skipAddress s (v.getLsbD i), draws := d } ∧
      exec (.sza m) s = .next { s with pc := skipAddress s (decide (v = 0)), acc := v, draws := d } ∧
      exec (.siza m) s = .next { s with pc := skipAddress s (decide (v = 0xFF)), acc := v + 1, draws := d } ∧
      exec (.sdza m) s = .next { s with pc := skipAddress s (decide (v = 0x01)), acc := v - 1, draws := d }

/-- SIZ and SDZ with any operand but PCL: the operand is stepped in place and one instruction skipped when the result is 00H;
the flags change only where STATUS is the operand. -/
def Obligations.SkipAfterStep : Prop :=
  ∀ (s : State) (m : DAddr) (t : Target) (v : Byte), Operand .other m s t v → t ≠ .bank0 0x06 →
    (WriteAccepted .other t (v + 1) s →
      ∃ s', exec (.siz m) s = .next { s' with pc := skipAddress s (decide (v = 0xFF)) } ∧ Written t (v + 1) s s' ∧
        KeptBut t s s' ∧ StatusWritten t (v + 1) s.flags s'.flags) ∧
    (WriteAccepted .other t (v - 1) s →
      ∃ s', exec (.sdz m) s = .next { s' with pc := skipAddress s (decide (v = 0x01)) } ∧ Written t (v - 1) s s' ∧
        KeptBut t s s' ∧ StatusWritten t (v - 1) s.flags s'.flags)

/-! ## System instructions -/

/-- With the watchdog enabled CLR WDT clears it, TO and PDF, and so does the second of CLR WDT1 and CLR WDT2; the first of the
pair leaves its mark alone. With the watchdog disabled by mask option the three change nothing but the PC. NOP never does. The handshake
of CLR WDT1 and CLR WDT2 is a choice, in part from general knowledge (decision D24, GK2; log entry 31). -/
def Obligations.WatchdogClearsAndNop : Prop :=
  ∀ s cleared : State,
    cleared = { s with
      pc := s.pc + 1, wdt := { age := 0, w1 := false, w2 := false },
      flags := { s.flags with timeOut := false, pdf := false } } →
    exec .nop s = .next { s with pc := s.pc + 1 } ∧
    (s.par.mask.wdtEn = true →
      exec .clrWdt s = .next cleared ∧
      (s.wdt.w2 = true → exec .clrWdt1 s = .next cleared) ∧
      (s.wdt.w1 = true → exec .clrWdt2 s = .next cleared) ∧
      (s.wdt.w2 = false → exec .clrWdt1 s = .next { s with pc := s.pc + 1, wdt := { s.wdt with w1 := true } }) ∧
      (s.wdt.w1 = false → exec .clrWdt2 s = .next { s with pc := s.pc + 1, wdt := { s.wdt with w2 := true } })) ∧
    (s.par.mask.wdtEn = false →
      ∀ i ∈ [Instr.clrWdt, .clrWdt1, .clrWdt2], exec i s = .next { s with pc := s.pc + 1 })

/-- HALT with the counter off, or on in timer mode: PDF is set and TO cleared, the watchdog cleared and TBF remembered, also
where the watchdog is disabled; the time base phase becomes a free value and nothing else changes. -/
def Obligations.HaltEntersPowerDown : Prop :=
  ∀ s : State, (s.tmrc.ton = true → s.adcr.adc = false ∧ s.tmrc.tm1 = true ∧ s.tmrc.tm0 = false) →
    ∃ phase d, exec .halt s = .next { s with
      pc := s.pc + 1, flags := { s.flags with pdf := true, timeOut := false },
      wdt := { age := 0, w1 := false, w2 := false }, tbfAtHalt := s.intc.tbf, mft := phase, halted := true, draws := d }

/-! ## Where an instruction stops -/

/-- An operand that does not resolve is the named stop of every instruction that has one, and these are the cases: a bank
other than 0 and 1, a pointer of 80H or more, and a pointer outside 40H to 4DH in bank 1. -/
def Obligations.UnresolvedOperandStops : Prop :=
  ∀ (s : State) (i : Instr) (m : DAddr), memoryOperand i = some m →
    (m = 0x00 → 0x80 ≤ s.mp0.toNat → exec i s = .fault .unmappedData) ∧
    (m = 0x02 → s.bp = 0x00 ∨ s.bp = 0x01 → 0x80 ≤ s.mp1.toNat → exec i s = .fault .unmappedData) ∧
    (m = 0x02 → s.bp = 0x01 → s.mp1.toNat < 0x40 ∨ 0x4D < s.mp1.toNat → s.mp1.toNat < 0x80 →
      exec i s = .fault .unmappedBank1) ∧
    (m = 0x02 → s.bp ≠ 0x00 → s.bp ≠ 0x01 → exec i s = .fault .badBank)

/-- The forms the spec refuses by name: a flag-writing instruction with STATUS as destination (U5), SIZ and SDZ on PCL (U6), a
timer location named by anything but MOV (U10), and a return with nothing on the stack (U3). -/
def Obligations.RefusedForms : Prop :=
  ∀ (s : State) (m : DAddr) (t : Target), resolve s m = .ok t →
    (t = .bank0 0x0A → ∀ i ∈ statusForbidden m, exec i s = .refused .statusCollision) ∧
    (t = .bank0 0x06 → exec (.siz m) s = .refused .skipOnPcl ∧ exec (.sdz m) s = .refused .skipOnPcl) ∧
    (TimerLocation t → ∀ i, memoryOperand i = some m → i ≠ .movAm m → i ≠ .movmA m →
      exec i s = .refused .timerAccessForbidden) ∧
    (s.sp = 0 → ∀ x, exec .ret s = .fault .stackUnderflow ∧ exec (.retAx x) s = .fault .stackUnderflow ∧
      exec .reti s = .fault .stackUnderflow)

/-- The accesses to the counter that the spec refuses by name: its registers while a conversion runs (U10), those of the other
mode in timer/event counter mode (U9); any instruction that writes TMRC or ADCR, if what it writes changes the mode of a running
counter (U14) or starts it in a mode without meaning (U13); and HALT with the counter on outside timer mode (U16). -/
def Obligations.RefusedCounterForms : Prop :=
  ∀ (s : State) (m : DAddr) (t : Target), resolve s m = .ok t →
    (TimerLocation t → s.adcr.adc = true → s.tmrc.ton = true →
      exec (.movAm m) s = .refused .timerAccessForbidden ∧ exec (.movmA m) s = .refused .timerAccessForbidden) ∧
    (s.adcr.adc = false → t = .bank0 0x23 ∨ t = .bank0 0x24 → exec (.movAm m) s = .refused .timerAccessUndescribed) ∧
    (s.adcr.adc = false → t = .bank0 0x20 ∨ t = .bank0 0x21 → exec (.movmA m) s = .refused .timerAccessUndescribed) ∧
    (∀ (i : Instr) (v r : Byte), memoryOperand i = some m → Operand .other m s t v →
      storedByte s v i = some r ∨ (i = .movmA m ∧ r = s.acc) →
      (t = .bank0 0x22 → s.tmrc.ton = false → r.getLsbD 4 = true → r.getLsbD 5 = r.getLsbD 6 →
        r.getLsbD 5 = false ∨ s.adcr.adc = true → exec i s = .refused .unusedCountMode) ∧
      (t = .bank0 0x22 → s.tmrc.ton = true → r.getLsbD 4 = true →
        r.getLsbD 3 ≠ s.tmrc.te ∨ r.getLsbD 5 ≠ s.tmrc.tm0 ∨ r.getLsbD 6 ≠ s.tmrc.tm1 →
        exec i s = .refused .modeChangeWhileOn) ∧
      (t = .bank0 0x25 → s.tmrc.ton = true → r.getLsbD 1 ≠ s.adcr.adc → exec i s = .refused .modeChangeWhileOn)) ∧
    (s.tmrc.ton = true → s.tmrc.tm0 = true ∨ s.adcr.adc = true → exec .halt s = .refused .haltWhileCounting)

/-! ## Locations and addressing -/

/-- Where an operand leads (R80, R81, R86 to R88, R99): a direct address other than 00H and 02H to its own location of bank 0,
whatever BP, MP0 and MP1 hold; `[00H]` and `[02H]` to the location the pointer names, in the bank BP selects; and a pointer at an
indirect addressing register reads 00H and writes nothing. -/
def Obligations.OperandAddressing : Prop :=
  ∀ (s : State) (a : Access) (v : Byte),
    (∀ m : DAddr, m ≠ 0x00 → m ≠ 0x02 → resolve s m = .ok (.bank0 (BitVec.ofNat 8 m.toNat))) ∧
    (s.mp0.toNat < 0x80 → s.mp0 ≠ 0x00 → s.mp0 ≠ 0x02 → resolve s 0x00 = .ok (.bank0 s.mp0)) ∧
    (s.bp = 0x00 → s.mp1.toNat < 0x80 → s.mp1 ≠ 0x00 → s.mp1 ≠ 0x02 → resolve s 0x02 = .ok (.bank0 s.mp1)) ∧
    (s.bp = 0x01 → 0x40 ≤ s.mp1.toNat → s.mp1.toNat ≤ 0x4D → resolve s 0x02 = .ok (.lcd s.mp1)) ∧
    (s.mp0 = 0x00 ∨ s.mp0 = 0x02 → resolve s 0x00 = .ok .self) ∧
    (s.bp = 0x00 → s.mp1 = 0x00 ∨ s.mp1 = 0x02 → resolve s 0x02 = .ok .self) ∧
    memRead a .self s = .ok (0x00, s) ∧ memWrite a .self v s = .ok s

/-- What a location reads as (R84, R85, R90 to R94, R99), but for ADCR and the timer locations, which have statements of their own:
MP0, MP1, BP, ACC, TBLP, TBLH and PAC as they stand; each bit of STATUS, INTC, TMRC, TBC and PA; PCL; 00H at every reserved
location; and RAM and LCD display memory the byte stored there, or, where none is, a free value (R63; log entry 5). But for the
draw none of these reads changes anything. That TBC reads 0 in bits 7:3 is a choice (decision D8; log entry 27), and so is that
PCL reads as the address after the instruction (decision D9; log entry 26), and that a display location returns all 8 bits of
the byte stored there, where U12 says that a proof must treat bits 7:3 (7:2 with two commons) as any value (R42, R346; log entry
24). -/
def Obligations.LocationReads : Prop :=
  ∀ (s : State) (a : Access) (e : Byte),
    (∃ v, memRead a (.bank0 0x0A) s = .ok (v, s) ∧ v.getLsbD 0 = s.flags.c ∧ v.getLsbD 1 = s.flags.ac ∧
      v.getLsbD 2 = s.flags.z ∧ v.getLsbD 3 = s.flags.ov ∧ v.getLsbD 4 = s.flags.pdf ∧ v.getLsbD 5 = s.flags.timeOut ∧
      v.getLsbD 6 = false ∧ v.getLsbD 7 = false) ∧
    (∃ v, memRead a (.bank0 0x0B) s = .ok (v, s) ∧ v.getLsbD 0 = s.intc.emi ∧ v.getLsbD 1 = s.intc.eti ∧
      v.getLsbD 2 = s.intc.etbi ∧ v.getLsbD 3 = false ∧ v.getLsbD 4 = s.intc.tf ∧ v.getLsbD 5 = s.intc.tbf ∧
      v.getLsbD 6 = false ∧ v.getLsbD 7 = false) ∧
    (∃ v, memRead a (.bank0 0x22) s = .ok (v, s) ∧ v.toNat % 8 = 0 ∧ v.getLsbD 3 = s.tmrc.te ∧ v.getLsbD 4 = s.tmrc.ton ∧
      v.getLsbD 5 = s.tmrc.tm0 ∧ v.getLsbD 6 = s.tmrc.tm1 ∧ v.getLsbD 7 = false) ∧
    (∃ v, memRead a (.bank0 0x12) s = .ok (v, s) ∧
      ∀ k : Fin 8, v.getLsbD k = if s.port.pac.getLsbD k then s.port.pads.getLsbD k else s.port.latch.getLsbD k) ∧
    (∃ v, memRead a (.bank0 0x09) s = .ok (v, s) ∧ v.toNat = s.rt.toNat) ∧
    (∃ v, memRead a (.bank0 0x06) s = .ok (v, s) ∧ v.toNat = s.pc.toNat % 256) ∧
    memRead a (.bank0 0x08) s = .ok (s.tblh, s) ∧ memRead a (.bank0 0x01) s = .ok (s.mp0, s) ∧
    memRead a (.bank0 0x03) s = .ok (s.mp1, s) ∧ memRead a (.bank0 0x04) s = .ok (s.bp, s) ∧
    memRead a (.bank0 0x05) s = .ok (s.acc, s) ∧ memRead a (.bank0 0x07) s = .ok (s.tblp, s) ∧
    memRead a (.bank0 0x13) s = .ok (s.port.pac, s) ∧
    (∀ v, 0x60 ≤ e.toNat → lookup s.mem e.toNat = some v → memRead a (.bank0 e) s = .ok (v, s)) ∧
    (∀ v, lookup s.mem (256 + e.toNat) = some v → memRead a (.lcd e) s = .ok (v, s)) ∧
    (0x60 ≤ e.toNat → lookup s.mem e.toNat = none →
      memRead a (.bank0 e) s = .ok (Config.freeByte s.draws, { s with draws := s.draws + 1 })) ∧
    (lookup s.mem (256 + e.toNat) = none →
      memRead a (.lcd e) s = .ok (Config.freeByte s.draws, { s with draws := s.draws + 1 })) ∧
    ((0x0C ≤ e.toNat ∧ e.toNat ≤ 0x11) ∨ (0x14 ≤ e.toNat ∧ e.toNat ≤ 0x1F) ∨ (0x26 ≤ e.toNat ∧ e.toNat ≤ 0x5F) →
      memRead a (.bank0 e) s = .ok (0x00, s))

/-- ADCR and the low voltage detector (R92, R352). A read of ADCR returns OVB/OVA, ADC/TM, MODE and BON in bits 0 to 3 and 0 in bits 7
to 5; bit 4 is BLF where BON is 1 and LVD_SETTLE instruction cycles have passed, and else a free value. At the end of a period
without a reset BLF is the comparator's output if BON is 1, and is kept if BON is 0. That BLF follows the comparator down and up,
and from when the settling time is counted, are a choice (decision D31; log entry 20). -/
def Obligations.LowVoltageDetector : Prop :=
  (∀ (s : State) (a : Access), ∃ v s1, memRead a (.bank0 0x25) s = .ok (v, s1) ∧ v.getLsbD 0 = s.adcr.ovb ∧
    v.getLsbD 1 = s.adcr.adc ∧ v.getLsbD 2 = s.adcr.mode ∧ v.getLsbD 3 = s.adcr.bon ∧ v.toNat < 0x20 ∧
    (s.adcr.bon = true ∧ s.par.lvdSettle ≤ s.lvdAge → v.getLsbD 4 = s.adcr.blf ∧ s1 = s) ∧
    (¬(s.adcr.bon = true ∧ s.par.lvdSettle ≤ s.lvdAge) →
      v.getLsbD 4 = Config.freeBit s.draws ∧ s1 = { s with draws := s.draws + 1 })) ∧
  ∀ (before s1 s' : State) (clocks cyc : Nat) (drawn : Bool), period before clocks cyc drawn s1 = .next s' →
    NoReset clocks (nextSample s1) s1 →
    s'.adcr.bon = s1.adcr.bon ∧ s'.adcr.blf = (if s1.adcr.bon then (nextSample s1).vddLow else s1.adcr.blf) ∧
      s'.lvdAge = if before.adcr.bon = true ∧ s1.adcr.bon = true then s1.lvdAge + cyc else 0

/-- The pads of port A (R342, R343): an input line keeps its input function, with its pull-high by option; an output line drives
its latch, or the buzzer pair by the three-row table at fSYS divided by 4, 8, 16 or 32, or the EL carrier; and a read of PA
returns the latch of an output line, whatever its pad carries. -/
def Obligations.PadFunctions : Prop :=
  ∀ (s : State) (k : Fin 8), let latch := s.port.latch; let mask := s.par.mask
    (s.port.pac.getLsbD k = true → padFunction s k = .input mask.paPullHigh) ∧
    (s.port.pac.getLsbD k = false →
      (k = 0 → mask.pa01Bz = true → padFunction s k = if latch.getLsbD 0 then .level false else .buzzer) ∧
      (k = 1 → mask.pa01Bz = true →
        padFunction s k = if latch.getLsbD 0 = false ∧ latch.getLsbD 1 = false then .buzzerBar else .level false) ∧
      (k = 2 → mask.pa2El = true → padFunction s k = if latch.getLsbD 2 then .elCarrier else .level false) ∧
      ((k.val < 2 → mask.pa01Bz = false) → (k = 2 → mask.pa2El = false) → padFunction s k = .level (latch.getLsbD k)) ∧
      ∀ a, ∃ v, memRead a (.bank0 0x12) s = .ok (v, s) ∧ v.getLsbD k = latch.getLsbD k) ∧
    [Config.BuzzerClock.div4, .div8, .div16, .div32].map buzzerDivisor = [2 ^ 2, 2 ^ 3, 2 ^ 4, 2 ^ 5]

/-! ## The whole machine -/

/-- What an instruction other than its own few cannot change: TO and PDF (CLR WDT, CLR WDT1, CLR WDT2, HALT), the stack (CALL and
the returns), TBLH (the table reads), INTC (RETI, or an operand that leads to it), HALTED and the time base counter (HALT);
and no instruction changes the program, the parameters, the pads or what the environment will do. -/
def Obligations.EffectsReservedToTheirInstructions : Prop :=
  ∀ (i : Instr) (s s' : State), exec i s = .next s' →
    (i ∉ [Instr.clrWdt, .clrWdt1, .clrWdt2, .halt] →
      s'.flags.timeOut = s.flags.timeOut ∧ s'.flags.pdf = s.flags.pdf ∧ s'.wdt = s.wdt) ∧
    ((∀ a, i ≠ .call a) → i ≠ .ret → (∀ x, i ≠ .retAx x) → i ≠ .reti →
      s'.stk0 = s.stk0 ∧ s'.stk1 = s.stk1 ∧ s'.sp = s.sp) ∧
    ((∀ m, i ≠ .tabrdc m ∧ i ≠ .tabrdl m) → s'.tblh = s.tblh) ∧
    (i ≠ .reti → (∀ m, memoryOperand i = some m → resolve s m ≠ .ok (.bank0 0x0B)) → s'.intc = s.intc) ∧
    (i ≠ .halt → s'.halted = s.halted ∧ s'.mft = s.mft ∧ s'.tbfAtHalt = s.tbfAtHalt) ∧
    s'.rom = s.rom ∧ s'.par = s.par ∧ s'.port.pads = s.port.pads ∧ s'.env = s.env

/-- The cycle table (R420), for every instruction: one cycle, or two when the target is PCL, for those that write [m]; one, or two
when the skip is taken, for those that skip; two for JMP, CALL and the returns; two, or three when the target is PCL, for the
table reads; and one for every other instruction. -/
def Obligations.InstructionCycles : Prop :=
  ∀ (s s1 : State) (m : DAddr) (b : Nat) (a : PAddr) (x : Byte),
    (∀ i ∈ storingForms m b,
      (resolve s m = .ok (.bank0 0x06) → cycles i s s1 = 2) ∧ (resolve s m ≠ .ok (.bank0 0x06) → cycles i s s1 = 1)) ∧
    (∀ (t : Target) (v : Byte), Operand .other m s t v → b < 8 → ∀ p ∈ skippingForms m b v, exec p.1 s = .next s1 →
      (p.2 → cycles p.1 s s1 = 2) ∧ (¬p.2 → cycles p.1 s s1 = 1)) ∧
    (∀ i ∈ [Instr.jmp a, .call a, .ret, .retAx x, .reti], cycles i s s1 = 2) ∧
    (∀ i ∈ [Instr.tabrdc m, .tabrdl m],
      (resolve s m = .ok (.bank0 0x06) → cycles i s s1 = 3) ∧ (resolve s m ≠ .ok (.bank0 0x06) → cycles i s s1 = 2)) ∧
    ∀ i : Instr, (∀ m b v, i ∉ storingForms m b ∧ i ∉ (skippingForms m b v).map Prod.fst ∧ i ≠ .tabrdc m ∧ i ≠ .tabrdl m) →
      (∀ a x, i ∉ [Instr.jmp a, .call a, .ret, .retAx x, .reti]) → cycles i s s1 = 1

/-- A step of a core that runs executes the instruction at the PC, as the run's encoding decodes it: what `exec` answers, and after
a next state the devices for the instruction's cycles, four system clocks each (R319, R420). -/
def Obligations.StepRunsDecodedInstruction : Prop :=
  ∀ (s : State) (i : Instr), s.resLow = false → s.halted = false → s.entering = none →
    s.par.enc.decode (fetchWord s) = .ok i →
    step s = match exec i s with
      | .next s1 => period s (4 * cycles i s s1) (cycles i s s1) (readsRunningCounter i s) s1
      | .fault f => .fault f
      | .refused r => .refused r

/-- In timer/event counter mode, and in A/D converter mode with no conversion running before or after, with no reset in its time,
an instruction that answers a next state is a step that answers a next state, and the devices leave alone all that they do not
own: the program finds its registers, flags, stack, memory and modes as the instruction left them, a request flag once set stays
set, and a core that runs goes on running. -/
def Obligations.StepKeepsWhatTheInstructionDid : Prop :=
  ∀ (s s1 : State) (i : Instr), s.Inv → s.resLow = false → s.halted = false → s.entering = none →
    s.par.enc.decode (fetchWord s) = .ok i → exec i s = .next s1 →
    (s.adcr.adc = true → s.tmrc.ton = false ∧ s1.tmrc.ton = false) →
    NoReset (4 * cycles i s s1) (nextSample s1) s1 →
    ∃ s', step s = .next s' ∧ SameProgramState s1 s' ∧ (s1.halted = false → s'.halted = false) ∧
      (s1.intc.tf = true → s'.intc.tf = true) ∧ (s1.intc.tbf = true → s'.intc.tbf = true) ∧
      s'.port.pads = (nextSample s1).pads

/-- Every step keeps the invariant of the machine, from every state that has it, and never changes the program or the
parameters of the run. -/
def Obligations.EveryStepKeepsTheInvariant : Prop :=
  ∀ s s' : State, s.Inv → step s = .next s' → s'.Inv ∧ s'.rom = s.rom ∧ s'.par = s.par

/-- The state after power-on has the invariant. -/
def Obligations.ResetHasTheInvariant : Prop := State.reset.Inv

/-! ## Interrupts -/

/-- Which interrupt is acknowledged at a boundary (R305, R308): the timer/event counter's if it is acknowledgeable, else the
time base's if that is; none while RES is low (R401), and none in HALT. That a core in HALT acknowledges nothing, and a wake-up
comes first, is the model's choice (R48, R364; log entry 16), and that one held in reset does not is read from R401 (log entry
18). -/
def Obligations.AcknowledgeCondition : Prop :=
  ∀ s : State,
    (s.halted = false → s.resLow = false →
      (pendingInterrupt s = some .timer ↔ Acknowledgeable .timer s) ∧
      (pendingInterrupt s = some .timeBase ↔ Acknowledgeable .timeBase s ∧ ¬Acknowledgeable .timer s)) ∧
    (s.halted = true ∨ s.resLow = true → pendingInterrupt s = none)

/-- The entry sequence (R307), with the stack empty and with one address held: the PC is pushed, the request flag and EMI are
cleared, the PC takes the vector, and nothing else changes. -/
def Obligations.InterruptEntrySequence : Prop :=
  ∀ (s entered : State) (k : IntSource),
    entered = { s with
      pc := (match k with | .timer => 0x004 | .timeBase => 0x008),
      intc := { s.intc with
        emi := false, tf := s.intc.tf && k != .timer, tbf := s.intc.tbf && k != .timeBase },
      entering := none, slipped := false } →
    (s.sp = 0 → takeInterrupt k s = { entered with stk0 := s.pc, sp := 1 }) ∧
    (s.sp = 1 → takeInterrupt k s = { entered with stk1 := s.pc, sp := 2 })

/-- An interrupt that is acknowledgeable after a step is entered by the next step, for two instruction cycles, when INT_SLIP is
0. When INT_SLIP is 1 the boundary may let one more instruction run first, and the boundary after that instruction may not
(R306, R421). The entry as a step of its own and its two cycles are a choice (decision D26; log entry 14), and so is INT_SLIP
(decision D12; log entry 15), and that one mark counts for both interrupts, so that the boundary after a slip enters whichever is to
be acknowledged there (log entry 37). -/
def Obligations.InterruptIsEnteredAtTheBoundary : Prop :=
  ∀ (s s1 : State) (k : IntSource), s.resLow = false → step s = .next s1 → pendingInterrupt s1 = some k →
    (s1.par.intSlip = false → s1.entering = some k) ∧
    (s1.entering = some k → step s1 = period s1 8 2 false (takeInterrupt k s1)) ∧
    (s1.entering ≠ some k → s1.entering = none ∧ s1.slipped = true) ∧
    (s.slipped = true → s.halted = false → s.entering = none → s1.entering = some k)

/-- RETI at the end of any handler that leaves the stack as the entry left it, whatever else it changed: the interrupted address is
back in the PC, the stack is as deep as before, with the address that lay below, EMI is 1, and nothing else changes. If the
handler left INTC alone too, all that the interrupt changed in it is that the request that was served is gone and EMI is 1
(R307, R310, R238). -/
def Obligations.InterruptAndReturn : Prop :=
  ∀ (s h : State) (k : IntSource), s.sp.val < 2 →
    h.sp = (takeInterrupt k s).sp → h.stk0 = (takeInterrupt k s).stk0 → h.stk1 = (takeInterrupt k s).stk1 →
    ∃ s2, exec .reti h = .next s2 ∧ s2 = { h with pc := s.pc, sp := s.sp, intc := { h.intc with emi := true } } ∧
      (s.sp = 1 → s2.stk0 = s.stk0) ∧
      (h.intc = (takeInterrupt k s).intc → s2.intc = { s.intc with
        emi := true, tf := s.intc.tf && k != .timer, tbf := s.intc.tbf && k != .timeBase }) ∧
      (h = takeInterrupt k s →
        s2.flags = s.flags ∧ s2.acc = s.acc ∧ s2.mem = s.mem ∧ s2.tblh = s.tblh)

/-! ## Reset -/

/-- What the state after power-on holds where the spec gives a value (R60, R61, R405). -/
def Obligations.ResetState : Prop :=
  State.reset.pc = 0x000 ∧ State.reset.sp = 0 ∧ State.reset.rt = 7 ∧ State.reset.port.latch = 0xFF ∧
    State.reset.port.pac = 0xFF ∧ State.reset.flags.timeOut = false ∧ State.reset.flags.pdf = false ∧
    State.reset.intc = { emi := false, eti := false, etbi := false, tf := false, tbf := false } ∧
    State.reset.tmrc = { te := true, ton := false, tm0 := false, tm1 := false } ∧
    State.reset.adcr.ovb = false ∧ State.reset.adcr.adc = false ∧ State.reset.adcr.mode = false ∧
    State.reset.adcr.bon = false ∧ State.reset.mft = 0 ∧ State.reset.wdt = { age := 0, w1 := false, w2 := false } ∧
    State.reset.halted = false ∧ State.reset.timer.src = .none ∧ State.reset.timer.pwArmed = false ∧
    State.reset.timer.pwRun = false ∧ State.reset.mem = []

/-- What every chip reset leaves (R402): the registers of the reset table, and ACC, the pointers, the table registers and the
arithmetic flags unchanged but by power-on. -/
def Obligations.ChipResetProcedure : Prop :=
  ∀ (k : ChipReset) (s s' : State), s' = chipReset k s →
    s'.pc = 0x000 ∧ s'.sp = 0 ∧ s'.intc = { emi := false, eti := false, etbi := false, tf := false, tbf := false } ∧
    s'.rt = 7 ∧ s'.port.latch = 0xFF ∧ s'.port.pac = 0xFF ∧
    s'.tmrc = { te := true, ton := false, tm0 := false, tm1 := false } ∧
    s'.adcr.ovb = false ∧ s'.adcr.adc = false ∧ s'.adcr.mode = false ∧ s'.adcr.bon = false ∧ s'.mft = 0 ∧
    s'.wdt = { age := 0, w1 := false, w2 := false } ∧ s'.halted = false ∧ s'.timer.src = .none ∧
    s'.timer.pwArmed = false ∧ s'.timer.pwRun = false ∧ (∀ a, lookup s'.mem a = none) ∧
    (k ≠ .por → s'.acc = s.acc ∧ s'.mp0 = s.mp0 ∧ s'.mp1 = s.mp1 ∧ s'.tblp = s.tblp ∧ s'.tblh = s.tblh ∧
      s'.flags.c = s.flags.c ∧ s'.flags.ac = s.flags.ac ∧ s'.flags.z = s.flags.z ∧ s'.flags.ov = s.flags.ov) ∧
    s'.rom = s.rom ∧ s'.par = s.par ∧ s'.port.pads = s.port.pads

/-- TO and PDF after each of the five resets (R62), the warm reset in a machine that is in HALT. -/
def Obligations.ResetFlagTable : Prop :=
  ∀ s : State,
    ((chipReset .por s).flags.timeOut = false ∧ (chipReset .por s).flags.pdf = false) ∧
    ((chipReset .resN s).flags.timeOut = s.flags.timeOut ∧ (chipReset .resN s).flags.pdf = s.flags.pdf) ∧
    ((chipReset .resH s).flags.timeOut = false ∧ (chipReset .resH s).flags.pdf = true) ∧
    ((chipReset .wdtN s).flags.timeOut = true ∧ (chipReset .wdtN s).flags.pdf = s.flags.pdf) ∧
    (s.Inv → s.halted = true → (warmReset s).flags.timeOut = true ∧ (warmReset s).flags.pdf = true)

/-- The warm reset (R403): the program counter, the depth of the stack, TO, HALTED and the watchdog; the two stack cells become
free values and everything else is unchanged. -/
def Obligations.WarmResetProcedure : Prop :=
  ∀ s : State, ∃ c0 c1 d, warmReset s = { s with
    pc := 0x000, sp := 0, flags := { s.flags with timeOut := true }, halted := false,
    wdt := { age := 0, w1 := false, w2 := false }, stk0 := c0, stk1 := c1, entering := none, slipped := false, draws := d }

/-- While RES is low the chip stays in reset and executes nothing, and execution starts at 000H when it is released (R401): a
step that ends with RES low, and one that begins with it low, leaves the PC at 000H, the stack empty, interrupts disabled and not
requested, the counter off and port A as inputs; and one that begins with it low, without a power-on, leaves the registers that
such a reset does not touch. Which reset a sample brings shows in TO and PDF (R62, R400): power-on clears both; RES low leaves
both in a core that runs, or that is held already, and gives TO = 0 and PDF = 1 in a core that is in HALT to the end of the
period. That a wake-up in the same period comes before RES is the model's order (log entry 17). -/
def Obligations.ResetPadHoldsTheChip : Prop :=
  (∀ s s' : State, s.Inv → step s = .next s' →
    (s.resLow = true ∨ s'.resLow = true →
      s'.pc = 0x000 ∧ s'.sp = 0 ∧ s'.halted = false ∧
      s'.intc = { emi := false, eti := false, etbi := false, tf := false, tbf := false } ∧ s'.tmrc.ton = false ∧
      s'.port.latch = 0xFF ∧ s'.port.pac = 0xFF) ∧
    (s.resLow = true → (nextSample s).powerOn = false → s'.acc = s.acc ∧ s'.mp0 = s.mp0 ∧ s'.mp1 = s.mp1 ∧
      s'.tblp = s.tblp ∧ s'.tblh = s.tblh ∧ s'.flags = s.flags) ∧
    (s.resLow = true → (nextSample s).powerOn = true → s'.flags.timeOut = false ∧ s'.flags.pdf = false)) ∧
  ∀ (before s1 s' : State) (clocks cyc : Nat) (drawn : Bool) (e : Config.EnvSample), e = nextSample s1 →
    period before clocks cyc drawn s1 = .next s' →
    (e.powerOn = true → s'.pc = 0x000 ∧ s'.flags.timeOut = false ∧ s'.flags.pdf = false) ∧
    (e.powerOn = false → e.resLow = true → WatchdogSilent clocks e s1 →
      (s1.halted = false → s'.pc = 0x000 ∧ s'.flags = s1.flags) ∧
      (s1.halted = true → SleepsOn clocks before s1 →
        s'.pc = 0x000 ∧ s'.flags = { s1.flags with timeOut := false, pdf := true }))

/-! ## Watchdog, time base -/

/-- The watchdog (R321 to R323): a period that ends inside 2^15 clocks of the last clear, or with the watchdog disabled, brings
no time-out; one that ends at 2^16 clocks or more brings one for certain, which in normal operation is a chip reset that
sets TO and leaves PDF, and in HALT the warm reset; between the two the environment decides. -/
def Obligations.WatchdogWindow : Prop :=
  ∀ (n : Nat) (e : Config.EnvSample) (s aged : State), 0 < n →
    aged = { s with wdt := { s.wdt with age := s.wdt.age + n } } →
    (s.par.mask.wdtEn = false ∨ s.wdt.age + n < 0x8000 → runWdt n e s = aged) ∧
    (s.par.mask.wdtEn = true → 0x10000 ≤ s.wdt.age + n →
      runWdt n e s = if s.halted then warmReset aged else chipReset .wdtN aged) ∧
    (s.par.mask.wdtEn = true → 0x8000 ≤ s.wdt.age + n → s.wdt.age + n < 0x10000 →
      runWdt n e s = if e.wdtStrike then (if s.halted then warmReset aged else chipReset .wdtN aged) else aged)

/-- A core that runs, with the watchdog enabled and 2^16 clocks or more since the last clear at the end of the period, is at
000H after it with TO = 1 and PDF as it was (R321, R322). -/
def Obligations.UnclearedWatchdogResetsTheChip : Prop :=
  ∀ (before s s' : State) (clocks cyc : Nat) (drawn : Bool), s.par.mask.wdtEn = true → s.halted = false → 0 < clocks →
    0x10000 ≤ s.wdt.age + clocks → (nextSample s).powerOn = false → (nextSample s).resLow = false →
    period before clocks cyc drawn s = .next s' →
    s'.pc = 0x000 ∧ s'.sp = 0 ∧ s'.flags.timeOut = true ∧ s'.flags.pdf = s.flags.pdf ∧ s'.acc = s.acc ∧
      s'.wdt = { age := 0, w1 := false, w2 := false } ∧ s'.entering = none

/-- The multi-function timer and time base (R325, R327): `n` clocks add `n` modulo 2^15, and TBF is set by them exactly when the
count passes a multiple of the factor 2^(8 + RT); nothing else changes. -/
def Obligations.TimeBaseTimeOuts : Prop :=
  ∀ (n : Nat) (s : State), ∃ tbf : Bool,
    runMft n s = { s with mft := BitVec.ofNat 15 (s.mft.toNat + n), intc := { s.intc with tbf := tbf } } ∧
    (tbf = true ↔ s.intc.tbf = true ∨ ∃ j, 1 ≤ j ∧ j ≤ n ∧ (s.mft.toNat + j) % 2 ^ (8 + s.rt.toNat) = 0)

/-! ## Timer/event counter and A/D converter -/

/-- The counter in a whole step without a reset (R319, R331, R333, R335, R337). `on` is the mode it runs in. It counts every system clock
of the step in timer mode and every active edge on RCIN in event counter mode, and in A/D converter mode timer B counts every
cycle of the RC oscillation and timer A the clocks or the edges; in pulse-width mode it counts the clocks from the start edge to
the stop edge, which clears TON (R334); a counter that is off counts nothing. In a step that changes TON, or that reads TMRAH
while the counter runs, it sees a number that the environment chooses, any from 0 to all. That edges and cycles too may be missed
there, in any mode, is the model's choice (log entry 21). -/
def Obligations.CounterInAStep : Prop :=
  (∀ (i : Instr) (s : State), readsRunningCounter i s = true ↔
    s.tmrc.ton = true ∧ s.adcr.adc = false ∧ ∃ m, i = .movAm m ∧ resolve s m = .ok (.bank0 0x20)) ∧
  ∀ (before s1 s' : State) (clocks cyc : Nat) (drawn : Bool) (e : Config.EnvSample) (on : Tmrc) (free : Prop),
    e = nextSample s1 → on = (if s1.tmrc.ton then s1.tmrc else before.tmrc) →
    (free ↔ before.tmrc.ton ≠ s1.tmrc.ton ∨ drawn = true) →
    period before clocks cyc drawn s1 = .next s' → NoReset clocks e s1 →
    (before.tmrc.ton = false → s1.tmrc.ton = false →
      s'.timer.ta = s1.timer.ta ∧ s'.timer.tb = s1.timer.tb ∧ s'.intc.tf = s1.intc.tf) ∧
    (on.ton = true →
      (s1.adcr.adc = false → on.tm1 = true → on.tm0 = false →
        ∃ k ≤ clocks, (¬free → k = clocks) ∧ (free → e.seen ≤ clocks → k = e.seen) ∧ Counted k s1 s') ∧
      (s1.adcr.adc = false → on.tm1 = false → on.tm0 = true →
        ∃ k ≤ edgesArriving on.te e,
          (¬free ∨ e.missed = [] → k = edgesArriving on.te e) ∧ Counted k s1 s') ∧
      (s1.adcr.adc = false → on.tm1 = true → on.tm0 = true →
        ∃ k ≤ clocks, ∃ pins : List (List Config.PinEvent), (¬free → k = clocks) ∧ (free → e.seen ≤ clocks → k = e.seen) ∧
          pins.flatten.Sublist e.pins.flatten ∧ (¬free ∨ e.missed = [] → pins = e.pins) ∧
          PulseSeen on.te (clockEvents k pins) s1 s') ∧
      (s1.adcr.adc = true → on.tm1 = true → on.tm0 = false →
        ∃ k ≤ clocks, ∃ j ≤ e.pins.flatten.count .rcCycle, (¬free → k = clocks) ∧ (free → e.seen ≤ clocks → k = e.seen) ∧
          (¬free ∨ e.missed = [] → j = e.pins.flatten.count .rcCycle) ∧ Converted k j s1 s') ∧
      (s1.adcr.adc = true → on.tm1 = false → on.tm0 = true →
        ∃ k ≤ edgesArriving on.te e, ∃ j ≤ e.pins.flatten.count .rcCycle,
          (¬free ∨ e.missed = [] → k = edgesArriving on.te e ∧ j = e.pins.flatten.count .rcCycle) ∧ Converted k j s1 s'))

/-- The counter (R332) in timer mode, in event counter mode and in a running pulse-width measurement: it advances by the system
clocks, by the active edges on RCIN, or by the clocks of the pulse, up to FFFFH; the count after that reloads it from the
preload register and sets TF, and counting goes on with TON as it was. -/
def Obligations.CounterCountsAndOverflows : Prop :=
  ∀ (s : State) (es : List ClockEvent) (e : ClockEvent) (n : Nat),
    (countMode s.tmrc s.adcr = .timer ∧ n = clocksIn es ∧ e = .clk) ∨
      (countMode s.tmrc s.adcr = .event ∧ n = edgesIn s.tmrc.te es ∧
        e = .pin (if s.tmrc.te then .rcinFall else .rcinRise)) ∨
      (countMode s.tmrc s.adcr = .pulse ∧ s.timer.pwRun = true ∧ es = List.replicate n .clk ∧ e = .clk) →
    (s.timer.ta.toNat + n ≤ 0xFFFF →
      counterEvents s es = { s with timer := { s.timer with ta := BitVec.ofNat 16 (s.timer.ta.toNat + n) } }) ∧
    (s.timer.ta.toNat + n = 0xFFFF →
      counterEvents s (es ++ [e]) = { s with
        timer := { s.timer with ta := s.timer.tb }, intc := { s.intc with tf := true } })

/-- Pulse width measurement (R334): an armed measurement counts the clocks between its start edge and its stop edge and none
before; the stop edge clears TON and does not set TF. -/
def Obligations.PulseWidthMeasurement : Prop :=
  ∀ (s : State) (idle n : Nat) (start stop : Config.PinEvent), countMode s.tmrc s.adcr = .pulse →
    s.timer.pwArmed = true → s.timer.pwRun = false → s.timer.ta.toNat + n ≤ 0xFFFF →
    (start = if s.tmrc.te then .rcinRise else .rcinFall) → (stop = if s.tmrc.te then .rcinFall else .rcinRise) →
    counterEvents s (List.replicate idle .clk ++ .pin start :: List.replicate n .clk ++ [.pin stop]) = { s with
      timer := { s.timer with
        ta := BitVec.ofNat 16 (s.timer.ta.toNat + n), pwArmed := false, pwRun := false },
      tmrc := { s.tmrc with ton := false } }

/-- A conversion with timer A on the system clock, or on the edges on RCIN that TE selects, and timer B on the RC oscillation (R335):
both count until the event that makes the counter overflow that OVB/OVA selects; then that counter stands at 0000H, TF is set,
TON cleared, and what comes after counts no more. The overflow of the other counter is refused (U15). That TE selects the edge in
this mode is read from the table of TMRC (log entry 22). -/
def Obligations.ConversionEndsAtTheSelectedOverflow : Prop :=
  ∀ (s : State) (es after : List ClockEvent) (n : Nat) (e : ClockEvent),
    (countMode s.tmrc s.adcr = .adcSys ∧ n = clocksIn es ∧ e = .clk) ∨
      (countMode s.tmrc s.adcr = .adcExt ∧ n = edgesIn s.tmrc.te es ∧
        e = .pin (if s.tmrc.te then .rcinFall else .rcinRise)) →
    (s.timer.ta.toNat + n = 0xFFFF → s.timer.tb.toNat + rcCyclesIn es ≤ 0xFFFF →
      converterEvents s (es ++ e :: after) =
        if s.adcr.ovb then .error .unselectedOverflow
        else .ok { s with
          timer := { s.timer with ta := 0x0000, tb := BitVec.ofNat 16 (s.timer.tb.toNat + rcCyclesIn es) },
          intc := { s.intc with tf := true }, tmrc := { s.tmrc with ton := false } }) ∧
    (s.timer.tb.toNat + rcCyclesIn es = 0xFFFF → s.timer.ta.toNat + n ≤ 0xFFFF →
      converterEvents s (es ++ .pin .rcCycle :: after) =
        if s.adcr.ovb then .ok { s with
          timer := { s.timer with ta := BitVec.ofNat 16 (s.timer.ta.toNat + n), tb := 0x0000 },
          intc := { s.intc with tf := true }, tmrc := { s.tmrc with ton := false } }
        else .error .unselectedOverflow)

/-! ## HALT -/

/-- With the oscillator off in HALT (mask option 5), and neither reset nor port stimulus, a step changes nothing but the
levels on the pads and the comparator's flag (R361, R362), and the settling time of a low voltage detector that is off stays at
its start. That BLF follows the comparator is a choice (decision D31; log entry 20). -/
def Obligations.StoppedOscillatorFreezesTheChip : Prop :=
  ∀ s : State, s.Inv → s.halted = true → s.resLow = false → s.par.mask.oscOnAtHalt = false →
    (nextSample s).powerOn = false → (nextSample s).resLow = false → NoStimulus (nextSample s) s →
    step s = .next { s with
      port := { s.port with pads := (nextSample s).pads },
      adcr := { s.adcr with blf := if s.adcr.bon then (nextSample s).vddLow else s.adcr.blf },
      lvdAge := if s.adcr.bon then s.lvdAge else 0,
      env := s.env.tail, draws := s.draws + 1, entering := none, slipped := false }

/-- The two ends of a run last (R431). A core in permanent HALT, without reset and port stimulus, stays in it. A core in an idle loop
(a JMP to itself, or CLR WDT and a JMP back to it), without power-on and RES, with no conversion running, and at a JMP to itself
without a watchdog time-out, takes its next instruction and is in the loop again; the program's state is as it was, but for the PC
and what CLR WDT clears in the loop of two. With interrupts disabled that lasts; with interrupts enabled it lasts until an
interrupt that is acknowledgeable is entered from the loop. -/
def Obligations.EndsOfARunLast : Prop :=
  ∀ s : State, s.Inv → (nextSample s).powerOn = false → (nextSample s).resLow = false →
    (PermanentHalt s → NoStimulus (nextSample s) s →
      ∃ s', step s = .next s' ∧ PermanentHalt s' ∧ SameProgramState s s') ∧
    (IdleLoop s ∨ OpenIdleLoop s → (AtSelfJump s → WatchdogSilent 8 (nextSample s) s) →
      (s.adcr.adc = true → s.tmrc.ton = false) →
      ∃ s', step s = .next s' ∧ AtLoop s' ∧ (AtSelfJump s → SameProgramState s s') ∧
        SameProgramState { s with
          pc := s'.pc, flags := { s.flags with timeOut := s'.flags.timeOut, pdf := s'.flags.pdf }, wdt := s'.wdt } s' ∧
        (IdleLoop s → IdleLoop s') ∧
        (OpenIdleLoop s → OpenIdleLoop s' ∨ ∃ k, s'.entering = some k ∧ Acknowledgeable k s'))

/-- The ways out of HALT in a step without a reset are these three and no other (R363 to R366): a time base time-out with the
oscillator on, if TBF was 0 at the HALT; a port stimulus; and, where TF_WAKES_HALT is true and the oscillator is on, an overflow of
the counter that sets TF. The core resumes at the address after the HALT with its state as it was. In every other case it sleeps
on: on a count that does not overflow, and on an overflow with TF_WAKES_HALT false or with TF at 1 before, which sets TF and does
not wake. That the counter goes on counting in HALT is derived (R362), TF_WAKES_HALT is open (decision D20; log entry 23), and
what counts as a port stimulus is the environment's choice (decision D21; log entry 35). -/
def Obligations.WakeUpFromHalt : Prop :=
  ∀ (s : State) (timeOut overflow : Prop), s.Inv → s.halted = true → s.resLow = false → NoReset 1 (nextSample s) s →
    (timeOut ↔ s.par.mask.oscOnAtHalt = true ∧ (s.mft.toNat + 1) % 2 ^ (8 + s.rt.toNat) = 0) →
    (overflow ↔ s.par.mask.oscOnAtHalt = true ∧ s.tmrc.ton = true ∧ s.timer.ta = 0xFFFF) →
    ∃ s', step s = .next s' ∧ SameProgramState s s' ∧
      (s'.halted = false ↔
        timeOut ∧ s.tbfAtHalt = false ∨ (nextSample s).paWake = true ∧ (nextSample s).pads ≠ s.port.pads ∨
        overflow ∧ s.intc.tf = false ∧ s.par.tfWakesHalt = true) ∧
      (timeOut → s'.intc.tbf = true) ∧ (overflow → s'.intc.tf = true ∧ s'.timer.ta = s.timer.tb)

end Statements
end

