-- ==== Sys2Proof/Laws/Decode.lean ====
section
/-! SUPPORT. The opcode map: no two rows share a word, what finding a row says, the fields of an encoded word, and the other values of
the parameter ENC. -/

namespace Sys2Proof

/-! ## Rows -/

/-- Two rows that no word belongs to at once: they ask for different values of some bit. -/
def OpcodeRow.disjoint (r q : OpcodeRow) : Bool := r.pattern &&& q.mask != q.pattern &&& r.mask

/-- No two rows of the opcode map share a word (R124). -/
theorem opcodeMap_disjoint : opcodeMap.Pairwise fun r q => r.disjoint q = true := by decide +kernel

/-- A word belongs to at most one of two disjoint rows. -/
theorem hits_disjoint {r q : OpcodeRow} {w : Word} (h : r.disjoint q = true) (hr : r.hits w = true) : q.hits w = false := by
  by_contra hq
  have hr : w &&& r.mask = r.pattern := by simpa [OpcodeRow.hits] using hr
  have hq : w &&& q.mask = q.pattern := by simpa [OpcodeRow.hits] using hq
  have : r.pattern &&& q.mask = q.pattern &&& r.mask := by
    rw [← hr, ← hq, BitVec.and_assoc, BitVec.and_assoc, BitVec.and_comm r.mask]
  simp [OpcodeRow.disjoint, this] at h

/-- The row found is a row of the list that the word belongs to. -/
theorem findRow_some {l : List OpcodeRow} {w : Word} {r : OpcodeRow} (h : findRow l w = some r) :
    r ∈ l ∧ r.hits w = true := by
  induction l with
  | nil => cases h
  | cons q rest ih =>
    unfold findRow at h
    split at h
    · next hq => cases h; exact ⟨List.mem_cons_self, hq⟩
    · exact ⟨List.mem_cons_of_mem _ (ih h).1, (ih h).2⟩

/-- No row is found exactly when the word belongs to none. -/
theorem findRow_none {l : List OpcodeRow} {w : Word} : findRow l w = none ↔ ∀ r ∈ l, r.hits w = false := by
  induction l with
  | nil => simp [findRow]
  | cons q rest ih =>
    unfold findRow
    split
    · next hq => simp [hq]
    · next hq => simp [ih, hq]

/-- The row that a word belongs to is the one found, because the rows are disjoint. -/
theorem findRow_of_mem {l : List OpcodeRow} (hl : l.Pairwise fun r q => r.disjoint q = true) {r : OpcodeRow} {w : Word}
    (hm : r ∈ l) (h : r.hits w = true) : findRow l w = some r := by
  induction l with
  | nil => cases hm
  | cons q rest ih =>
    rw [List.pairwise_cons] at hl
    unfold findRow
    rcases List.mem_cons.mp hm with rfl | hm
    · rw [if_pos h]
    · split
      · next hq => rw [hits_disjoint (hl.1 r hm) hq] at h; cases h
      · exact ih hl.2 hm

/-- What decoding a word of a row gives. -/
theorem decode_of_row {r : OpcodeRow} {w : Word} (hm : r ∈ opcodeMap) (h : r.hits w = true) : decode w = .ok (r.build w) := by
  unfold decode
  rw [findRow_of_mem opcodeMap_disjoint hm h]

/-- A word that decodes belongs to a row, and stands for what the row builds. -/
theorem decode_ok {w : Word} {i : Instr} (h : decode w = .ok i) : ∃ r ∈ opcodeMap, r.hits w = true ∧ i = r.build w := by
  unfold decode at h
  split at h
  · next r hr => cases h; exact ⟨r, (findRow_some hr).1, (findRow_some hr).2, rfl⟩
  · cases h

/-! ## Fields -/

/-- The memory operand of a word of format M. -/
theorem fieldM_encodeM (p : Word) (m : DAddr) (h : p.extractLsb' 0 7 = 0) : fieldM (encodeM p m) = m := by
  unfold fieldM encodeM
  apply BitVec.eq_of_getLsbD_eq
  intro k hk
  have := congrArg (·.getLsbD k) h
  simp [hk] at this ⊢
  simp [this]
  intro _
  omega

/-- The immediate data of a word of format I. -/
theorem fieldX_encodeI (p : Word) (x : Byte) (h : p.extractLsb' 0 8 = 0) : fieldX (encodeI p x) = x := by
  unfold fieldX encodeI
  apply BitVec.eq_of_getLsbD_eq
  intro k hk
  have := congrArg (·.getLsbD k) h
  simp [hk] at this ⊢
  simp [this]
  intro _
  omega

/-- The program address of a word of format A. -/
theorem fieldAddr_encodeA (p : Word) (a : PAddr) (h : p.extractLsb' 0 10 = 0) : fieldAddr (encodeA p a) = a := by
  unfold fieldAddr encodeA
  apply BitVec.eq_of_getLsbD_eq
  intro k hk
  have := congrArg (·.getLsbD k) h
  simp [hk] at this ⊢
  simp [this]
  intro _
  omega

/-- Putting a word's own memory operand back into its pattern gives the word. -/
theorem encodeM_fieldM {p w : Word} (h : w &&& 0xFF80#16 = p) : encodeM p (fieldM w) = w := by
  subst h
  unfold encodeM fieldM
  apply BitVec.eq_of_getLsbD_eq
  intro k hk
  interval_cases k <;> simp

/-- Putting a word's own immediate data back into its pattern gives the word. -/
theorem encodeI_fieldX {p w : Word} (h : w &&& 0xFF00#16 = p) : encodeI p (fieldX w) = w := by
  subst h
  unfold encodeI fieldX
  apply BitVec.eq_of_getLsbD_eq
  intro k hk
  interval_cases k <;> simp

/-- Putting a word's own program address back into its pattern gives the word. -/
theorem encodeA_fieldAddr {p w : Word} (h : w &&& 0xFC00#16 = p) : encodeA p (fieldAddr w) = w := by
  subst h
  unfold encodeA fieldAddr
  apply BitVec.eq_of_getLsbD_eq
  intro k hk
  interval_cases k <;> simp

/-- A bit number taken from a word is 0 to 7. -/
theorem fieldI_lt (w : Word) : fieldI w < 8 := (w.extractLsb' 7 3).isLt

/-- Putting a word's own memory operand and bit number back into its pattern gives the word. -/
theorem encodeB_fields {p w : Word} (h : w &&& 0xFC00#16 = p) : encodeB p (fieldM w) (fieldI w) = w := by
  subst h
  have hi : BitVec.ofNat 16 (fieldI w % 8) = (w.extractLsb' 7 3).setWidth 16 := by
    rw [Nat.mod_eq_of_lt (fieldI_lt w)]
    apply BitVec.eq_of_toNat_eq
    rw [BitVec.toNat_ofNat, BitVec.toNat_setWidth]
    rfl
  unfold encodeB fieldM
  rw [hi]
  apply BitVec.eq_of_getLsbD_eq
  intro k hk
  interval_cases k <;> simp

/-- The memory operand of a word of format B. -/
theorem fieldM_encodeB (p : Word) (m : DAddr) (i : Nat) (h : p.extractLsb' 0 7 = 0) : fieldM (encodeB p m i) = m := by
  unfold fieldM encodeB
  apply BitVec.eq_of_getLsbD_eq
  intro k hk
  have := congrArg (·.getLsbD k) h
  simp [hk] at this ⊢
  simp [this]
  omega

/-- The bit number of a word of format B. -/
theorem fieldI_encodeB (p : Word) (m : DAddr) (i : Nat) (hi : i < 8) (h : p.extractLsb' 7 3 = 0) :
    fieldI (encodeB p m i) = i := by
  have key : (encodeB p m i).extractLsb' 7 3 = BitVec.ofNat 3 i := by
    unfold encodeB
    apply BitVec.eq_of_getLsbD_eq
    intro k hk
    have := congrArg (·.getLsbD k) h
    simp [hk] at this ⊢
    interval_cases i <;> interval_cases k <;> simp_all
  unfold fieldI
  rw [key, BitVec.toNat_ofNat, Nat.mod_eq_of_lt hi]

/-! ## The parameter ENC -/

/-- What decoding under a listed encoding gives. -/
theorem decode_listed_ok {table : List (Word × Instr)} {w : Word} {i : Instr} :
    (Config.Encoding.listed table).decode w = .ok i ↔ table.lookup w = some i ∧ i.wf = true := by
  simp only [Config.Encoding.decode]
  split
  · next j hj =>
    split
    · next hw => rw [hj]; constructor
                 · rintro ⟨⟩; exact ⟨rfl, hw⟩
                 · rintro ⟨⟨⟩, -⟩; rfl
    · next hw => rw [hj]; constructor
                 · rintro ⟨⟩
                 · rintro ⟨⟨⟩, h⟩; exact absurd h hw
  · next hj => rw [hj]; simp

/-- What a listed encoding refuses, it refuses as that word. -/
theorem decode_listed_error {table : List (Word × Instr)} {w : Word} {e : DecodeError}
    (h : (Config.Encoding.listed table).decode w = .error e) : e = .illegalWord w := by
  simp only [Config.Encoding.decode] at h
  split at h
  · split at h <;> cases h; rfl
  · cases h; rfl

/-- The word that a listed encoding gives an instruction stands with it in the list. -/
theorem encode_listed_mem {table : List (Word × Instr)} {w : Word} {i : Instr}
    (h : (Config.Encoding.listed table).encode i = some w) : (w, i) ∈ table := by
  simp only [Config.Encoding.encode, Option.map_eq_some_iff] at h
  obtain ⟨⟨v, j⟩, hf, rfl⟩ := h
  have hj := List.find?_some hf
  have hji : j = i := by simpa using hj
  rw [← hji]
  exact List.mem_of_find?_eq_some hf

/-- In a list in which no key stands twice, a pair is what looking up its key gives. -/
theorem lookup_of_mem {α β : Type} [BEq α] [LawfulBEq α] {l : List (α × β)} {a : α} {b : β} (hl : (l.map Prod.fst).Nodup)
    (h : (a, b) ∈ l) : l.lookup a = some b := by
  induction l with
  | nil => cases h
  | cons p rest ih =>
    obtain ⟨x, y⟩ := p
    rw [List.map_cons, List.nodup_cons] at hl
    rcases List.mem_cons.mp h with hp | hr
    · cases hp; simp
    · have hx : (a == x) = false := beq_false_of_ne fun hx => hl.1 (List.mem_map.mpr ⟨(a, b), hr, hx⟩)
      rw [List.lookup_cons, hx]
      exact ih hl.2 hr

/-- Looking up a key in the list that pairs each word with what `f` gives it. -/
theorem lookup_filterMap (f : Word → Option Instr) (ws : List Word) (w : Word) :
    (ws.filterMap fun v => (f v).map fun i => (v, i)).lookup w = if w ∈ ws then f w else none := by
  induction ws with
  | nil => rfl
  | cons v rest ih =>
    rw [List.filterMap_cons]
    cases hf : f v with
    | none =>
      simp only [Option.map_none, ih, List.mem_cons]
      by_cases hw : w = v
      · subst hw; simp [hf]
      · simp [hw]
    | some i =>
      simp only [Option.map_some, List.lookup_cons, ih, List.mem_cons]
      by_cases hw : w = v
      · subst hw; simp [hf]
      · simp [hw, beq_false_of_ne hw]

/-- Every decoder is one of the values of ENC (R121): whatever well-formed instruction, or none, it gives to each word, there is a
list that decodes so. -/
theorem listed_expresses (f : Word → Option Instr) (hf : ∀ w i, f w = some i → i.wf = true) :
    ∃ table, ∀ w, (Config.Encoding.listed table).decode w = (f w).elim (.error (.illegalWord w)) .ok := by
  refine ⟨((List.finRange (2 ^ 16)).map BitVec.ofFin).filterMap fun v => (f v).map fun i => (v, i), fun w => ?_⟩
  have hm : w ∈ (List.finRange (2 ^ 16)).map BitVec.ofFin := List.mem_map.mpr ⟨w.toFin, List.mem_finRange _, rfl⟩
  simp only [Config.Encoding.decode, lookup_filterMap, if_pos hm]
  cases h : f w with
  | none => rfl
  | some i => simp [hf w i h]

end Sys2Proof
end

