-- ==== Sys2Proof/Laws/State.lean ====
section
/-! SUPPORT. What each named update does to each field of the state, so that no proof unfolds a record update. -/

namespace Sys2Proof.Machine

open Sys2Proof Sys2Proof.Config

/-! ### `advance`: the PC advanced -/

@[simp] theorem advance_acc (s : State) : s.advance.acc = s.acc := rfl
@[simp] theorem advance_mp0 (s : State) : s.advance.mp0 = s.mp0 := rfl
@[simp] theorem advance_mp1 (s : State) : s.advance.mp1 = s.mp1 := rfl
@[simp] theorem advance_bp (s : State) : s.advance.bp = s.bp := rfl
@[simp] theorem advance_pc (s : State) : s.advance.pc = s.pc + 1 := rfl
@[simp] theorem advance_stk0 (s : State) : s.advance.stk0 = s.stk0 := rfl
@[simp] theorem advance_stk1 (s : State) : s.advance.stk1 = s.stk1 := rfl
@[simp] theorem advance_sp (s : State) : s.advance.sp = s.sp := rfl
@[simp] theorem advance_tblp (s : State) : s.advance.tblp = s.tblp := rfl
@[simp] theorem advance_tblh (s : State) : s.advance.tblh = s.tblh := rfl
@[simp] theorem advance_flags (s : State) : s.advance.flags = s.flags := rfl
@[simp] theorem advance_intc (s : State) : s.advance.intc = s.intc := rfl
@[simp] theorem advance_rt (s : State) : s.advance.rt = s.rt := rfl
@[simp] theorem advance_port (s : State) : s.advance.port = s.port := rfl
@[simp] theorem advance_tmrc (s : State) : s.advance.tmrc = s.tmrc := rfl
@[simp] theorem advance_adcr (s : State) : s.advance.adcr = s.adcr := rfl
@[simp] theorem advance_timer (s : State) : s.advance.timer = s.timer := rfl
@[simp] theorem advance_mem (s : State) : s.advance.mem = s.mem := rfl
@[simp] theorem advance_mft (s : State) : s.advance.mft = s.mft := rfl
@[simp] theorem advance_wdt (s : State) : s.advance.wdt = s.wdt := rfl
@[simp] theorem advance_halted (s : State) : s.advance.halted = s.halted := rfl
@[simp] theorem advance_tbfAtHalt (s : State) : s.advance.tbfAtHalt = s.tbfAtHalt := rfl
@[simp] theorem advance_lvdAge (s : State) : s.advance.lvdAge = s.lvdAge := rfl
@[simp] theorem advance_entering (s : State) : s.advance.entering = s.entering := rfl
@[simp] theorem advance_slipped (s : State) : s.advance.slipped = s.slipped := rfl
@[simp] theorem advance_resLow (s : State) : s.advance.resLow = s.resLow := rfl
@[simp] theorem advance_rom (s : State) : s.advance.rom = s.rom := rfl
@[simp] theorem advance_par (s : State) : s.advance.par = s.par := rfl
@[simp] theorem advance_env (s : State) : s.advance.env = s.env := rfl
@[simp] theorem advance_draws (s : State) : s.advance.draws = s.draws := rfl

/-! ### `skipIf`: a conditional skip -/

@[simp] theorem skipIf_acc (c : Bool) (s : State) : (State.skipIf c s).acc = s.acc := by cases c <;> rfl
@[simp] theorem skipIf_mp0 (c : Bool) (s : State) : (State.skipIf c s).mp0 = s.mp0 := by cases c <;> rfl
@[simp] theorem skipIf_mp1 (c : Bool) (s : State) : (State.skipIf c s).mp1 = s.mp1 := by cases c <;> rfl
@[simp] theorem skipIf_bp (c : Bool) (s : State) : (State.skipIf c s).bp = s.bp := by cases c <;> rfl
@[simp] theorem skipIf_pc (c : Bool) (s : State) :
    (State.skipIf c s).pc = if c then s.pc + 1 else s.pc := by cases c <;> rfl
@[simp] theorem skipIf_stk0 (c : Bool) (s : State) : (State.skipIf c s).stk0 = s.stk0 := by cases c <;> rfl
@[simp] theorem skipIf_stk1 (c : Bool) (s : State) : (State.skipIf c s).stk1 = s.stk1 := by cases c <;> rfl
@[simp] theorem skipIf_sp (c : Bool) (s : State) : (State.skipIf c s).sp = s.sp := by cases c <;> rfl
@[simp] theorem skipIf_tblp (c : Bool) (s : State) : (State.skipIf c s).tblp = s.tblp := by cases c <;> rfl
@[simp] theorem skipIf_tblh (c : Bool) (s : State) : (State.skipIf c s).tblh = s.tblh := by cases c <;> rfl
@[simp] theorem skipIf_flags (c : Bool) (s : State) : (State.skipIf c s).flags = s.flags := by cases c <;> rfl
@[simp] theorem skipIf_intc (c : Bool) (s : State) : (State.skipIf c s).intc = s.intc := by cases c <;> rfl
@[simp] theorem skipIf_rt (c : Bool) (s : State) : (State.skipIf c s).rt = s.rt := by cases c <;> rfl
@[simp] theorem skipIf_port (c : Bool) (s : State) : (State.skipIf c s).port = s.port := by cases c <;> rfl
@[simp] theorem skipIf_tmrc (c : Bool) (s : State) : (State.skipIf c s).tmrc = s.tmrc := by cases c <;> rfl
@[simp] theorem skipIf_adcr (c : Bool) (s : State) : (State.skipIf c s).adcr = s.adcr := by cases c <;> rfl
@[simp] theorem skipIf_timer (c : Bool) (s : State) : (State.skipIf c s).timer = s.timer := by cases c <;> rfl
@[simp] theorem skipIf_mem (c : Bool) (s : State) : (State.skipIf c s).mem = s.mem := by cases c <;> rfl
@[simp] theorem skipIf_mft (c : Bool) (s : State) : (State.skipIf c s).mft = s.mft := by cases c <;> rfl
@[simp] theorem skipIf_wdt (c : Bool) (s : State) : (State.skipIf c s).wdt = s.wdt := by cases c <;> rfl
@[simp] theorem skipIf_halted (c : Bool) (s : State) : (State.skipIf c s).halted = s.halted := by cases c <;> rfl
@[simp] theorem skipIf_tbfAtHalt (c : Bool) (s : State) :
    (State.skipIf c s).tbfAtHalt = s.tbfAtHalt := by cases c <;> rfl
@[simp] theorem skipIf_lvdAge (c : Bool) (s : State) : (State.skipIf c s).lvdAge = s.lvdAge := by cases c <;> rfl
@[simp] theorem skipIf_entering (c : Bool) (s : State) : (State.skipIf c s).entering = s.entering := by cases c <;> rfl
@[simp] theorem skipIf_slipped (c : Bool) (s : State) : (State.skipIf c s).slipped = s.slipped := by cases c <;> rfl
@[simp] theorem skipIf_resLow (c : Bool) (s : State) : (State.skipIf c s).resLow = s.resLow := by cases c <;> rfl
@[simp] theorem skipIf_rom (c : Bool) (s : State) : (State.skipIf c s).rom = s.rom := by cases c <;> rfl
@[simp] theorem skipIf_par (c : Bool) (s : State) : (State.skipIf c s).par = s.par := by cases c <;> rfl
@[simp] theorem skipIf_env (c : Bool) (s : State) : (State.skipIf c s).env = s.env := by cases c <;> rfl
@[simp] theorem skipIf_draws (c : Bool) (s : State) : (State.skipIf c s).draws = s.draws := by cases c <;> rfl

/-! ### `clearWdt`: the watchdog cleared -/

@[simp] theorem clearWdt_acc (s : State) : (clearWdt s).acc = s.acc := rfl
@[simp] theorem clearWdt_mp0 (s : State) : (clearWdt s).mp0 = s.mp0 := rfl
@[simp] theorem clearWdt_mp1 (s : State) : (clearWdt s).mp1 = s.mp1 := rfl
@[simp] theorem clearWdt_bp (s : State) : (clearWdt s).bp = s.bp := rfl
@[simp] theorem clearWdt_pc (s : State) : (clearWdt s).pc = s.pc := rfl
@[simp] theorem clearWdt_stk0 (s : State) : (clearWdt s).stk0 = s.stk0 := rfl
@[simp] theorem clearWdt_stk1 (s : State) : (clearWdt s).stk1 = s.stk1 := rfl
@[simp] theorem clearWdt_sp (s : State) : (clearWdt s).sp = s.sp := rfl
@[simp] theorem clearWdt_tblp (s : State) : (clearWdt s).tblp = s.tblp := rfl
@[simp] theorem clearWdt_tblh (s : State) : (clearWdt s).tblh = s.tblh := rfl
@[simp] theorem clearWdt_flags (s : State) : (clearWdt s).flags = s.flags := rfl
@[simp] theorem clearWdt_intc (s : State) : (clearWdt s).intc = s.intc := rfl
@[simp] theorem clearWdt_rt (s : State) : (clearWdt s).rt = s.rt := rfl
@[simp] theorem clearWdt_port (s : State) : (clearWdt s).port = s.port := rfl
@[simp] theorem clearWdt_tmrc (s : State) : (clearWdt s).tmrc = s.tmrc := rfl
@[simp] theorem clearWdt_adcr (s : State) : (clearWdt s).adcr = s.adcr := rfl
@[simp] theorem clearWdt_timer (s : State) : (clearWdt s).timer = s.timer := rfl
@[simp] theorem clearWdt_mem (s : State) : (clearWdt s).mem = s.mem := rfl
@[simp] theorem clearWdt_mft (s : State) : (clearWdt s).mft = s.mft := rfl
@[simp] theorem clearWdt_wdt (s : State) : (clearWdt s).wdt = { age := 0, w1 := false, w2 := false } := rfl
@[simp] theorem clearWdt_halted (s : State) : (clearWdt s).halted = s.halted := rfl
@[simp] theorem clearWdt_tbfAtHalt (s : State) : (clearWdt s).tbfAtHalt = s.tbfAtHalt := rfl
@[simp] theorem clearWdt_lvdAge (s : State) : (clearWdt s).lvdAge = s.lvdAge := rfl
@[simp] theorem clearWdt_entering (s : State) : (clearWdt s).entering = s.entering := rfl
@[simp] theorem clearWdt_slipped (s : State) : (clearWdt s).slipped = s.slipped := rfl
@[simp] theorem clearWdt_resLow (s : State) : (clearWdt s).resLow = s.resLow := rfl
@[simp] theorem clearWdt_rom (s : State) : (clearWdt s).rom = s.rom := rfl
@[simp] theorem clearWdt_par (s : State) : (clearWdt s).par = s.par := rfl
@[simp] theorem clearWdt_env (s : State) : (clearWdt s).env = s.env := rfl
@[simp] theorem clearWdt_draws (s : State) : (clearWdt s).draws = s.draws := rfl

/-! ### `clearWdtIf`: the watchdog cleared by software -/

@[simp] theorem clearWdtIf_acc (c : Bool) (s : State) : (clearWdtIf c s).acc = s.acc := rfl
@[simp] theorem clearWdtIf_mp0 (c : Bool) (s : State) : (clearWdtIf c s).mp0 = s.mp0 := rfl
@[simp] theorem clearWdtIf_mp1 (c : Bool) (s : State) : (clearWdtIf c s).mp1 = s.mp1 := rfl
@[simp] theorem clearWdtIf_bp (c : Bool) (s : State) : (clearWdtIf c s).bp = s.bp := rfl
@[simp] theorem clearWdtIf_pc (c : Bool) (s : State) : (clearWdtIf c s).pc = s.pc := rfl
@[simp] theorem clearWdtIf_stk0 (c : Bool) (s : State) : (clearWdtIf c s).stk0 = s.stk0 := rfl
@[simp] theorem clearWdtIf_stk1 (c : Bool) (s : State) : (clearWdtIf c s).stk1 = s.stk1 := rfl
@[simp] theorem clearWdtIf_sp (c : Bool) (s : State) : (clearWdtIf c s).sp = s.sp := rfl
@[simp] theorem clearWdtIf_tblp (c : Bool) (s : State) : (clearWdtIf c s).tblp = s.tblp := rfl
@[simp] theorem clearWdtIf_tblh (c : Bool) (s : State) : (clearWdtIf c s).tblh = s.tblh := rfl
@[simp] theorem clearWdtIf_flags (c : Bool) (s : State) :
    (clearWdtIf c s).flags = if c then { s.flags with timeOut := false, pdf := false } else s.flags := rfl
@[simp] theorem clearWdtIf_intc (c : Bool) (s : State) : (clearWdtIf c s).intc = s.intc := rfl
@[simp] theorem clearWdtIf_rt (c : Bool) (s : State) : (clearWdtIf c s).rt = s.rt := rfl
@[simp] theorem clearWdtIf_port (c : Bool) (s : State) : (clearWdtIf c s).port = s.port := rfl
@[simp] theorem clearWdtIf_tmrc (c : Bool) (s : State) : (clearWdtIf c s).tmrc = s.tmrc := rfl
@[simp] theorem clearWdtIf_adcr (c : Bool) (s : State) : (clearWdtIf c s).adcr = s.adcr := rfl
@[simp] theorem clearWdtIf_timer (c : Bool) (s : State) : (clearWdtIf c s).timer = s.timer := rfl
@[simp] theorem clearWdtIf_mem (c : Bool) (s : State) : (clearWdtIf c s).mem = s.mem := rfl
@[simp] theorem clearWdtIf_mft (c : Bool) (s : State) : (clearWdtIf c s).mft = s.mft := rfl
@[simp] theorem clearWdtIf_wdt (c : Bool) (s : State) :
    (clearWdtIf c s).wdt = if c then { age := 0, w1 := false, w2 := false } else s.wdt := rfl
@[simp] theorem clearWdtIf_halted (c : Bool) (s : State) : (clearWdtIf c s).halted = s.halted := rfl
@[simp] theorem clearWdtIf_tbfAtHalt (c : Bool) (s : State) : (clearWdtIf c s).tbfAtHalt = s.tbfAtHalt := rfl
@[simp] theorem clearWdtIf_lvdAge (c : Bool) (s : State) : (clearWdtIf c s).lvdAge = s.lvdAge := rfl
@[simp] theorem clearWdtIf_entering (c : Bool) (s : State) : (clearWdtIf c s).entering = s.entering := rfl
@[simp] theorem clearWdtIf_slipped (c : Bool) (s : State) : (clearWdtIf c s).slipped = s.slipped := rfl
@[simp] theorem clearWdtIf_resLow (c : Bool) (s : State) : (clearWdtIf c s).resLow = s.resLow := rfl
@[simp] theorem clearWdtIf_rom (c : Bool) (s : State) : (clearWdtIf c s).rom = s.rom := rfl
@[simp] theorem clearWdtIf_par (c : Bool) (s : State) : (clearWdtIf c s).par = s.par := rfl
@[simp] theorem clearWdtIf_env (c : Bool) (s : State) : (clearWdtIf c s).env = s.env := rfl
@[simp] theorem clearWdtIf_draws (c : Bool) (s : State) : (clearWdtIf c s).draws = s.draws := rfl

/-! ### `writeCell`: a byte of memory written -/

@[simp] theorem writeCell_acc (k : Nat) (v : Byte) (s : State) : (writeCell k v s).acc = s.acc := rfl
@[simp] theorem writeCell_mp0 (k : Nat) (v : Byte) (s : State) : (writeCell k v s).mp0 = s.mp0 := rfl
@[simp] theorem writeCell_mp1 (k : Nat) (v : Byte) (s : State) : (writeCell k v s).mp1 = s.mp1 := rfl
@[simp] theorem writeCell_bp (k : Nat) (v : Byte) (s : State) : (writeCell k v s).bp = s.bp := rfl
@[simp] theorem writeCell_pc (k : Nat) (v : Byte) (s : State) : (writeCell k v s).pc = s.pc := rfl
@[simp] theorem writeCell_stk0 (k : Nat) (v : Byte) (s : State) : (writeCell k v s).stk0 = s.stk0 := rfl
@[simp] theorem writeCell_stk1 (k : Nat) (v : Byte) (s : State) : (writeCell k v s).stk1 = s.stk1 := rfl
@[simp] theorem writeCell_sp (k : Nat) (v : Byte) (s : State) : (writeCell k v s).sp = s.sp := rfl
@[simp] theorem writeCell_tblp (k : Nat) (v : Byte) (s : State) : (writeCell k v s).tblp = s.tblp := rfl
@[simp] theorem writeCell_tblh (k : Nat) (v : Byte) (s : State) : (writeCell k v s).tblh = s.tblh := rfl
@[simp] theorem writeCell_flags (k : Nat) (v : Byte) (s : State) : (writeCell k v s).flags = s.flags := rfl
@[simp] theorem writeCell_intc (k : Nat) (v : Byte) (s : State) : (writeCell k v s).intc = s.intc := rfl
@[simp] theorem writeCell_rt (k : Nat) (v : Byte) (s : State) : (writeCell k v s).rt = s.rt := rfl
@[simp] theorem writeCell_port (k : Nat) (v : Byte) (s : State) : (writeCell k v s).port = s.port := rfl
@[simp] theorem writeCell_tmrc (k : Nat) (v : Byte) (s : State) : (writeCell k v s).tmrc = s.tmrc := rfl
@[simp] theorem writeCell_adcr (k : Nat) (v : Byte) (s : State) : (writeCell k v s).adcr = s.adcr := rfl
@[simp] theorem writeCell_timer (k : Nat) (v : Byte) (s : State) : (writeCell k v s).timer = s.timer := rfl
@[simp] theorem writeCell_mem (k : Nat) (v : Byte) (s : State) : (writeCell k v s).mem = update s.mem k v := rfl
@[simp] theorem writeCell_mft (k : Nat) (v : Byte) (s : State) : (writeCell k v s).mft = s.mft := rfl
@[simp] theorem writeCell_wdt (k : Nat) (v : Byte) (s : State) : (writeCell k v s).wdt = s.wdt := rfl
@[simp] theorem writeCell_halted (k : Nat) (v : Byte) (s : State) : (writeCell k v s).halted = s.halted := rfl
@[simp] theorem writeCell_tbfAtHalt (k : Nat) (v : Byte) (s : State) : (writeCell k v s).tbfAtHalt = s.tbfAtHalt := rfl
@[simp] theorem writeCell_lvdAge (k : Nat) (v : Byte) (s : State) : (writeCell k v s).lvdAge = s.lvdAge := rfl
@[simp] theorem writeCell_entering (k : Nat) (v : Byte) (s : State) : (writeCell k v s).entering = s.entering := rfl
@[simp] theorem writeCell_slipped (k : Nat) (v : Byte) (s : State) : (writeCell k v s).slipped = s.slipped := rfl
@[simp] theorem writeCell_resLow (k : Nat) (v : Byte) (s : State) : (writeCell k v s).resLow = s.resLow := rfl
@[simp] theorem writeCell_rom (k : Nat) (v : Byte) (s : State) : (writeCell k v s).rom = s.rom := rfl
@[simp] theorem writeCell_par (k : Nat) (v : Byte) (s : State) : (writeCell k v s).par = s.par := rfl
@[simp] theorem writeCell_env (k : Nat) (v : Byte) (s : State) : (writeCell k v s).env = s.env := rfl
@[simp] theorem writeCell_draws (k : Nat) (v : Byte) (s : State) : (writeCell k v s).draws = s.draws := rfl

/-! ### `writeBuffer`: the low byte buffer written -/

@[simp] theorem writeBuffer_acc (v : Byte) (b : BufSource) (s : State) : (writeBuffer v b s).acc = s.acc := rfl
@[simp] theorem writeBuffer_mp0 (v : Byte) (b : BufSource) (s : State) : (writeBuffer v b s).mp0 = s.mp0 := rfl
@[simp] theorem writeBuffer_mp1 (v : Byte) (b : BufSource) (s : State) : (writeBuffer v b s).mp1 = s.mp1 := rfl
@[simp] theorem writeBuffer_bp (v : Byte) (b : BufSource) (s : State) : (writeBuffer v b s).bp = s.bp := rfl
@[simp] theorem writeBuffer_pc (v : Byte) (b : BufSource) (s : State) : (writeBuffer v b s).pc = s.pc := rfl
@[simp] theorem writeBuffer_stk0 (v : Byte) (b : BufSource) (s : State) : (writeBuffer v b s).stk0 = s.stk0 := rfl
@[simp] theorem writeBuffer_stk1 (v : Byte) (b : BufSource) (s : State) : (writeBuffer v b s).stk1 = s.stk1 := rfl
@[simp] theorem writeBuffer_sp (v : Byte) (b : BufSource) (s : State) : (writeBuffer v b s).sp = s.sp := rfl
@[simp] theorem writeBuffer_tblp (v : Byte) (b : BufSource) (s : State) : (writeBuffer v b s).tblp = s.tblp := rfl
@[simp] theorem writeBuffer_tblh (v : Byte) (b : BufSource) (s : State) : (writeBuffer v b s).tblh = s.tblh := rfl
@[simp] theorem writeBuffer_flags (v : Byte) (b : BufSource) (s : State) : (writeBuffer v b s).flags = s.flags := rfl
@[simp] theorem writeBuffer_intc (v : Byte) (b : BufSource) (s : State) : (writeBuffer v b s).intc = s.intc := rfl
@[simp] theorem writeBuffer_rt (v : Byte) (b : BufSource) (s : State) : (writeBuffer v b s).rt = s.rt := rfl
@[simp] theorem writeBuffer_port (v : Byte) (b : BufSource) (s : State) : (writeBuffer v b s).port = s.port := rfl
@[simp] theorem writeBuffer_tmrc (v : Byte) (b : BufSource) (s : State) : (writeBuffer v b s).tmrc = s.tmrc := rfl
@[simp] theorem writeBuffer_adcr (v : Byte) (b : BufSource) (s : State) : (writeBuffer v b s).adcr = s.adcr := rfl
@[simp] theorem writeBuffer_timer (v : Byte) (b : BufSource) (s : State) :
    (writeBuffer v b s).timer = { s.timer with lbuf := v, src := b } := rfl
@[simp] theorem writeBuffer_mem (v : Byte) (b : BufSource) (s : State) : (writeBuffer v b s).mem = s.mem := rfl
@[simp] theorem writeBuffer_mft (v : Byte) (b : BufSource) (s : State) : (writeBuffer v b s).mft = s.mft := rfl
@[simp] theorem writeBuffer_wdt (v : Byte) (b : BufSource) (s : State) : (writeBuffer v b s).wdt = s.wdt := rfl
@[simp] theorem writeBuffer_halted (v : Byte) (b : BufSource) (s : State) : (writeBuffer v b s).halted = s.halted := rfl
@[simp] theorem writeBuffer_tbfAtHalt (v : Byte) (b : BufSource) (s : State) :
    (writeBuffer v b s).tbfAtHalt = s.tbfAtHalt := rfl
@[simp] theorem writeBuffer_lvdAge (v : Byte) (b : BufSource) (s : State) : (writeBuffer v b s).lvdAge = s.lvdAge := rfl
@[simp] theorem writeBuffer_entering (v : Byte) (b : BufSource) (s : State) :
    (writeBuffer v b s).entering = s.entering := rfl
@[simp] theorem writeBuffer_slipped (v : Byte) (b : BufSource) (s : State) :
    (writeBuffer v b s).slipped = s.slipped := rfl
@[simp] theorem writeBuffer_resLow (v : Byte) (b : BufSource) (s : State) : (writeBuffer v b s).resLow = s.resLow := rfl
@[simp] theorem writeBuffer_rom (v : Byte) (b : BufSource) (s : State) : (writeBuffer v b s).rom = s.rom := rfl
@[simp] theorem writeBuffer_par (v : Byte) (b : BufSource) (s : State) : (writeBuffer v b s).par = s.par := rfl
@[simp] theorem writeBuffer_env (v : Byte) (b : BufSource) (s : State) : (writeBuffer v b s).env = s.env := rfl
@[simp] theorem writeBuffer_draws (v : Byte) (b : BufSource) (s : State) : (writeBuffer v b s).draws = s.draws := rfl

/-! ### `drawByte`: a byte drawn -/

@[simp] theorem drawByte_acc (s : State) : (drawByte s).2.acc = s.acc := rfl
@[simp] theorem drawByte_mp0 (s : State) : (drawByte s).2.mp0 = s.mp0 := rfl
@[simp] theorem drawByte_mp1 (s : State) : (drawByte s).2.mp1 = s.mp1 := rfl
@[simp] theorem drawByte_bp (s : State) : (drawByte s).2.bp = s.bp := rfl
@[simp] theorem drawByte_pc (s : State) : (drawByte s).2.pc = s.pc := rfl
@[simp] theorem drawByte_stk0 (s : State) : (drawByte s).2.stk0 = s.stk0 := rfl
@[simp] theorem drawByte_stk1 (s : State) : (drawByte s).2.stk1 = s.stk1 := rfl
@[simp] theorem drawByte_sp (s : State) : (drawByte s).2.sp = s.sp := rfl
@[simp] theorem drawByte_tblp (s : State) : (drawByte s).2.tblp = s.tblp := rfl
@[simp] theorem drawByte_tblh (s : State) : (drawByte s).2.tblh = s.tblh := rfl
@[simp] theorem drawByte_flags (s : State) : (drawByte s).2.flags = s.flags := rfl
@[simp] theorem drawByte_intc (s : State) : (drawByte s).2.intc = s.intc := rfl
@[simp] theorem drawByte_rt (s : State) : (drawByte s).2.rt = s.rt := rfl
@[simp] theorem drawByte_port (s : State) : (drawByte s).2.port = s.port := rfl
@[simp] theorem drawByte_tmrc (s : State) : (drawByte s).2.tmrc = s.tmrc := rfl
@[simp] theorem drawByte_adcr (s : State) : (drawByte s).2.adcr = s.adcr := rfl
@[simp] theorem drawByte_timer (s : State) : (drawByte s).2.timer = s.timer := rfl
@[simp] theorem drawByte_mem (s : State) : (drawByte s).2.mem = s.mem := rfl
@[simp] theorem drawByte_mft (s : State) : (drawByte s).2.mft = s.mft := rfl
@[simp] theorem drawByte_wdt (s : State) : (drawByte s).2.wdt = s.wdt := rfl
@[simp] theorem drawByte_halted (s : State) : (drawByte s).2.halted = s.halted := rfl
@[simp] theorem drawByte_tbfAtHalt (s : State) : (drawByte s).2.tbfAtHalt = s.tbfAtHalt := rfl
@[simp] theorem drawByte_lvdAge (s : State) : (drawByte s).2.lvdAge = s.lvdAge := rfl
@[simp] theorem drawByte_entering (s : State) : (drawByte s).2.entering = s.entering := rfl
@[simp] theorem drawByte_slipped (s : State) : (drawByte s).2.slipped = s.slipped := rfl
@[simp] theorem drawByte_resLow (s : State) : (drawByte s).2.resLow = s.resLow := rfl
@[simp] theorem drawByte_rom (s : State) : (drawByte s).2.rom = s.rom := rfl
@[simp] theorem drawByte_par (s : State) : (drawByte s).2.par = s.par := rfl
@[simp] theorem drawByte_env (s : State) : (drawByte s).2.env = s.env := rfl
@[simp] theorem drawByte_draws (s : State) : (drawByte s).2.draws = s.draws + 1 := rfl

/-! ### `drawBit`: a bit drawn -/

@[simp] theorem drawBit_acc (s : State) : (drawBit s).2.acc = s.acc := rfl
@[simp] theorem drawBit_mp0 (s : State) : (drawBit s).2.mp0 = s.mp0 := rfl
@[simp] theorem drawBit_mp1 (s : State) : (drawBit s).2.mp1 = s.mp1 := rfl
@[simp] theorem drawBit_bp (s : State) : (drawBit s).2.bp = s.bp := rfl
@[simp] theorem drawBit_pc (s : State) : (drawBit s).2.pc = s.pc := rfl
@[simp] theorem drawBit_stk0 (s : State) : (drawBit s).2.stk0 = s.stk0 := rfl
@[simp] theorem drawBit_stk1 (s : State) : (drawBit s).2.stk1 = s.stk1 := rfl
@[simp] theorem drawBit_sp (s : State) : (drawBit s).2.sp = s.sp := rfl
@[simp] theorem drawBit_tblp (s : State) : (drawBit s).2.tblp = s.tblp := rfl
@[simp] theorem drawBit_tblh (s : State) : (drawBit s).2.tblh = s.tblh := rfl
@[simp] theorem drawBit_flags (s : State) : (drawBit s).2.flags = s.flags := rfl
@[simp] theorem drawBit_intc (s : State) : (drawBit s).2.intc = s.intc := rfl
@[simp] theorem drawBit_rt (s : State) : (drawBit s).2.rt = s.rt := rfl
@[simp] theorem drawBit_port (s : State) : (drawBit s).2.port = s.port := rfl
@[simp] theorem drawBit_tmrc (s : State) : (drawBit s).2.tmrc = s.tmrc := rfl
@[simp] theorem drawBit_adcr (s : State) : (drawBit s).2.adcr = s.adcr := rfl
@[simp] theorem drawBit_timer (s : State) : (drawBit s).2.timer = s.timer := rfl
@[simp] theorem drawBit_mem (s : State) : (drawBit s).2.mem = s.mem := rfl
@[simp] theorem drawBit_mft (s : State) : (drawBit s).2.mft = s.mft := rfl
@[simp] theorem drawBit_wdt (s : State) : (drawBit s).2.wdt = s.wdt := rfl
@[simp] theorem drawBit_halted (s : State) : (drawBit s).2.halted = s.halted := rfl
@[simp] theorem drawBit_tbfAtHalt (s : State) : (drawBit s).2.tbfAtHalt = s.tbfAtHalt := rfl
@[simp] theorem drawBit_lvdAge (s : State) : (drawBit s).2.lvdAge = s.lvdAge := rfl
@[simp] theorem drawBit_entering (s : State) : (drawBit s).2.entering = s.entering := rfl
@[simp] theorem drawBit_slipped (s : State) : (drawBit s).2.slipped = s.slipped := rfl
@[simp] theorem drawBit_resLow (s : State) : (drawBit s).2.resLow = s.resLow := rfl
@[simp] theorem drawBit_rom (s : State) : (drawBit s).2.rom = s.rom := rfl
@[simp] theorem drawBit_par (s : State) : (drawBit s).2.par = s.par := rfl
@[simp] theorem drawBit_env (s : State) : (drawBit s).2.env = s.env := rfl
@[simp] theorem drawBit_draws (s : State) : (drawBit s).2.draws = s.draws + 1 := rfl

/-! ### `push`: an address pushed -/

@[simp] theorem push_acc (v : PAddr) (s : State) :
    (push v s).acc = s.acc := by unfold push; split <;> [rfl; (split <;> rfl)]
@[simp] theorem push_mp0 (v : PAddr) (s : State) :
    (push v s).mp0 = s.mp0 := by unfold push; split <;> [rfl; (split <;> rfl)]
@[simp] theorem push_mp1 (v : PAddr) (s : State) :
    (push v s).mp1 = s.mp1 := by unfold push; split <;> [rfl; (split <;> rfl)]
@[simp] theorem push_bp (v : PAddr) (s : State) :
    (push v s).bp = s.bp := by unfold push; split <;> [rfl; (split <;> rfl)]
@[simp] theorem push_pc (v : PAddr) (s : State) :
    (push v s).pc = s.pc := by unfold push; split <;> [rfl; (split <;> rfl)]
@[simp] theorem push_tblp (v : PAddr) (s : State) :
    (push v s).tblp = s.tblp := by unfold push; split <;> [rfl; (split <;> rfl)]
@[simp] theorem push_tblh (v : PAddr) (s : State) :
    (push v s).tblh = s.tblh := by unfold push; split <;> [rfl; (split <;> rfl)]
@[simp] theorem push_flags (v : PAddr) (s : State) :
    (push v s).flags = s.flags := by unfold push; split <;> [rfl; (split <;> rfl)]
@[simp] theorem push_intc (v : PAddr) (s : State) :
    (push v s).intc = s.intc := by unfold push; split <;> [rfl; (split <;> rfl)]
@[simp] theorem push_rt (v : PAddr) (s : State) :
    (push v s).rt = s.rt := by unfold push; split <;> [rfl; (split <;> rfl)]
@[simp] theorem push_port (v : PAddr) (s : State) :
    (push v s).port = s.port := by unfold push; split <;> [rfl; (split <;> rfl)]
@[simp] theorem push_tmrc (v : PAddr) (s : State) :
    (push v s).tmrc = s.tmrc := by unfold push; split <;> [rfl; (split <;> rfl)]
@[simp] theorem push_adcr (v : PAddr) (s : State) :
    (push v s).adcr = s.adcr := by unfold push; split <;> [rfl; (split <;> rfl)]
@[simp] theorem push_timer (v : PAddr) (s : State) :
    (push v s).timer = s.timer := by unfold push; split <;> [rfl; (split <;> rfl)]
@[simp] theorem push_mem (v : PAddr) (s : State) :
    (push v s).mem = s.mem := by unfold push; split <;> [rfl; (split <;> rfl)]
@[simp] theorem push_mft (v : PAddr) (s : State) :
    (push v s).mft = s.mft := by unfold push; split <;> [rfl; (split <;> rfl)]
@[simp] theorem push_wdt (v : PAddr) (s : State) :
    (push v s).wdt = s.wdt := by unfold push; split <;> [rfl; (split <;> rfl)]
@[simp] theorem push_halted (v : PAddr) (s : State) :
    (push v s).halted = s.halted := by unfold push; split <;> [rfl; (split <;> rfl)]
@[simp] theorem push_tbfAtHalt (v : PAddr) (s : State) :
    (push v s).tbfAtHalt = s.tbfAtHalt := by unfold push; split <;> [rfl; (split <;> rfl)]
@[simp] theorem push_lvdAge (v : PAddr) (s : State) :
    (push v s).lvdAge = s.lvdAge := by unfold push; split <;> [rfl; (split <;> rfl)]
@[simp] theorem push_entering (v : PAddr) (s : State) :
    (push v s).entering = s.entering := by unfold push; split <;> [rfl; (split <;> rfl)]
@[simp] theorem push_slipped (v : PAddr) (s : State) :
    (push v s).slipped = s.slipped := by unfold push; split <;> [rfl; (split <;> rfl)]
@[simp] theorem push_resLow (v : PAddr) (s : State) :
    (push v s).resLow = s.resLow := by unfold push; split <;> [rfl; (split <;> rfl)]
@[simp] theorem push_rom (v : PAddr) (s : State) :
    (push v s).rom = s.rom := by unfold push; split <;> [rfl; (split <;> rfl)]
@[simp] theorem push_par (v : PAddr) (s : State) :
    (push v s).par = s.par := by unfold push; split <;> [rfl; (split <;> rfl)]
@[simp] theorem push_env (v : PAddr) (s : State) :
    (push v s).env = s.env := by unfold push; split <;> [rfl; (split <;> rfl)]
@[simp] theorem push_draws (v : PAddr) (s : State) :
    (push v s).draws = s.draws := by unfold push; split <;> [rfl; (split <;> rfl)]

/-! ### `takeInterrupt`: an interrupt taken -/

@[simp] theorem takeInterrupt_acc (k : IntSource) (s : State) :
    (takeInterrupt k s).acc = s.acc := by simp [takeInterrupt]
@[simp] theorem takeInterrupt_mp0 (k : IntSource) (s : State) :
    (takeInterrupt k s).mp0 = s.mp0 := by simp [takeInterrupt]
@[simp] theorem takeInterrupt_mp1 (k : IntSource) (s : State) :
    (takeInterrupt k s).mp1 = s.mp1 := by simp [takeInterrupt]
@[simp] theorem takeInterrupt_bp (k : IntSource) (s : State) : (takeInterrupt k s).bp = s.bp := by simp [takeInterrupt]
@[simp] theorem takeInterrupt_pc (k : IntSource) (s : State) :
    (takeInterrupt k s).pc = vector k := by simp [takeInterrupt]
@[simp] theorem takeInterrupt_stk0 (k : IntSource) (s : State) :
    (takeInterrupt k s).stk0 = (push s.pc s).stk0 := by simp [takeInterrupt]
@[simp] theorem takeInterrupt_stk1 (k : IntSource) (s : State) :
    (takeInterrupt k s).stk1 = (push s.pc s).stk1 := by simp [takeInterrupt]
@[simp] theorem takeInterrupt_sp (k : IntSource) (s : State) :
    (takeInterrupt k s).sp = (push s.pc s).sp := by simp [takeInterrupt]
@[simp] theorem takeInterrupt_tblp (k : IntSource) (s : State) :
    (takeInterrupt k s).tblp = s.tblp := by simp [takeInterrupt]
@[simp] theorem takeInterrupt_tblh (k : IntSource) (s : State) :
    (takeInterrupt k s).tblh = s.tblh := by simp [takeInterrupt]
@[simp] theorem takeInterrupt_flags (k : IntSource) (s : State) :
    (takeInterrupt k s).flags = s.flags := by simp [takeInterrupt]
@[simp] theorem takeInterrupt_intc (k : IntSource) (s : State) :
    (takeInterrupt k s).intc = s.intc.entered k := by simp [takeInterrupt]
@[simp] theorem takeInterrupt_rt (k : IntSource) (s : State) : (takeInterrupt k s).rt = s.rt := by simp [takeInterrupt]
@[simp] theorem takeInterrupt_port (k : IntSource) (s : State) :
    (takeInterrupt k s).port = s.port := by simp [takeInterrupt]
@[simp] theorem takeInterrupt_tmrc (k : IntSource) (s : State) :
    (takeInterrupt k s).tmrc = s.tmrc := by simp [takeInterrupt]
@[simp] theorem takeInterrupt_adcr (k : IntSource) (s : State) :
    (takeInterrupt k s).adcr = s.adcr := by simp [takeInterrupt]
@[simp] theorem takeInterrupt_timer (k : IntSource) (s : State) :
    (takeInterrupt k s).timer = s.timer := by simp [takeInterrupt]
@[simp] theorem takeInterrupt_mem (k : IntSource) (s : State) :
    (takeInterrupt k s).mem = s.mem := by simp [takeInterrupt]
@[simp] theorem takeInterrupt_mft (k : IntSource) (s : State) :
    (takeInterrupt k s).mft = s.mft := by simp [takeInterrupt]
@[simp] theorem takeInterrupt_wdt (k : IntSource) (s : State) :
    (takeInterrupt k s).wdt = s.wdt := by simp [takeInterrupt]
@[simp] theorem takeInterrupt_halted (k : IntSource) (s : State) :
    (takeInterrupt k s).halted = s.halted := by simp [takeInterrupt]
@[simp] theorem takeInterrupt_tbfAtHalt (k : IntSource) (s : State) :
    (takeInterrupt k s).tbfAtHalt = s.tbfAtHalt := by simp [takeInterrupt]
@[simp] theorem takeInterrupt_lvdAge (k : IntSource) (s : State) :
    (takeInterrupt k s).lvdAge = s.lvdAge := by simp [takeInterrupt]
@[simp] theorem takeInterrupt_entering (k : IntSource) (s : State) :
    (takeInterrupt k s).entering = none := by simp [takeInterrupt]
@[simp] theorem takeInterrupt_slipped (k : IntSource) (s : State) :
    (takeInterrupt k s).slipped = false := by simp [takeInterrupt]
@[simp] theorem takeInterrupt_resLow (k : IntSource) (s : State) :
    (takeInterrupt k s).resLow = s.resLow := by simp [takeInterrupt]
@[simp] theorem takeInterrupt_rom (k : IntSource) (s : State) :
    (takeInterrupt k s).rom = s.rom := by simp [takeInterrupt]
@[simp] theorem takeInterrupt_par (k : IntSource) (s : State) :
    (takeInterrupt k s).par = s.par := by simp [takeInterrupt]
@[simp] theorem takeInterrupt_env (k : IntSource) (s : State) :
    (takeInterrupt k s).env = s.env := by simp [takeInterrupt]
@[simp] theorem takeInterrupt_draws (k : IntSource) (s : State) :
    (takeInterrupt k s).draws = s.draws := by simp [takeInterrupt]

/-! ### `dropSample`: a sample taken -/

@[simp] theorem dropSample_acc (s : State) : (dropSample s).acc = s.acc := rfl
@[simp] theorem dropSample_mp0 (s : State) : (dropSample s).mp0 = s.mp0 := rfl
@[simp] theorem dropSample_mp1 (s : State) : (dropSample s).mp1 = s.mp1 := rfl
@[simp] theorem dropSample_bp (s : State) : (dropSample s).bp = s.bp := rfl
@[simp] theorem dropSample_pc (s : State) : (dropSample s).pc = s.pc := rfl
@[simp] theorem dropSample_stk0 (s : State) : (dropSample s).stk0 = s.stk0 := rfl
@[simp] theorem dropSample_stk1 (s : State) : (dropSample s).stk1 = s.stk1 := rfl
@[simp] theorem dropSample_sp (s : State) : (dropSample s).sp = s.sp := rfl
@[simp] theorem dropSample_tblp (s : State) : (dropSample s).tblp = s.tblp := rfl
@[simp] theorem dropSample_tblh (s : State) : (dropSample s).tblh = s.tblh := rfl
@[simp] theorem dropSample_flags (s : State) : (dropSample s).flags = s.flags := rfl
@[simp] theorem dropSample_intc (s : State) : (dropSample s).intc = s.intc := rfl
@[simp] theorem dropSample_rt (s : State) : (dropSample s).rt = s.rt := rfl
@[simp] theorem dropSample_port (s : State) : (dropSample s).port = s.port := rfl
@[simp] theorem dropSample_tmrc (s : State) : (dropSample s).tmrc = s.tmrc := rfl
@[simp] theorem dropSample_adcr (s : State) : (dropSample s).adcr = s.adcr := rfl
@[simp] theorem dropSample_timer (s : State) : (dropSample s).timer = s.timer := rfl
@[simp] theorem dropSample_mem (s : State) : (dropSample s).mem = s.mem := rfl
@[simp] theorem dropSample_mft (s : State) : (dropSample s).mft = s.mft := rfl
@[simp] theorem dropSample_wdt (s : State) : (dropSample s).wdt = s.wdt := rfl
@[simp] theorem dropSample_halted (s : State) : (dropSample s).halted = s.halted := rfl
@[simp] theorem dropSample_tbfAtHalt (s : State) : (dropSample s).tbfAtHalt = s.tbfAtHalt := rfl
@[simp] theorem dropSample_lvdAge (s : State) : (dropSample s).lvdAge = s.lvdAge := rfl
@[simp] theorem dropSample_entering (s : State) : (dropSample s).entering = s.entering := rfl
@[simp] theorem dropSample_slipped (s : State) : (dropSample s).slipped = s.slipped := rfl
@[simp] theorem dropSample_resLow (s : State) : (dropSample s).resLow = s.resLow := rfl
@[simp] theorem dropSample_rom (s : State) : (dropSample s).rom = s.rom := rfl
@[simp] theorem dropSample_par (s : State) : (dropSample s).par = s.par := rfl
@[simp] theorem dropSample_env (s : State) : (dropSample s).env = s.env.tail := rfl
@[simp] theorem dropSample_draws (s : State) : (dropSample s).draws = s.draws + 1 := rfl

/-! ### `ageWdt`: the watchdog ages -/

@[simp] theorem ageWdt_acc (n : Nat) (s : State) : (ageWdt n s).acc = s.acc := rfl
@[simp] theorem ageWdt_mp0 (n : Nat) (s : State) : (ageWdt n s).mp0 = s.mp0 := rfl
@[simp] theorem ageWdt_mp1 (n : Nat) (s : State) : (ageWdt n s).mp1 = s.mp1 := rfl
@[simp] theorem ageWdt_bp (n : Nat) (s : State) : (ageWdt n s).bp = s.bp := rfl
@[simp] theorem ageWdt_pc (n : Nat) (s : State) : (ageWdt n s).pc = s.pc := rfl
@[simp] theorem ageWdt_stk0 (n : Nat) (s : State) : (ageWdt n s).stk0 = s.stk0 := rfl
@[simp] theorem ageWdt_stk1 (n : Nat) (s : State) : (ageWdt n s).stk1 = s.stk1 := rfl
@[simp] theorem ageWdt_sp (n : Nat) (s : State) : (ageWdt n s).sp = s.sp := rfl
@[simp] theorem ageWdt_tblp (n : Nat) (s : State) : (ageWdt n s).tblp = s.tblp := rfl
@[simp] theorem ageWdt_tblh (n : Nat) (s : State) : (ageWdt n s).tblh = s.tblh := rfl
@[simp] theorem ageWdt_flags (n : Nat) (s : State) : (ageWdt n s).flags = s.flags := rfl
@[simp] theorem ageWdt_intc (n : Nat) (s : State) : (ageWdt n s).intc = s.intc := rfl
@[simp] theorem ageWdt_rt (n : Nat) (s : State) : (ageWdt n s).rt = s.rt := rfl
@[simp] theorem ageWdt_port (n : Nat) (s : State) : (ageWdt n s).port = s.port := rfl
@[simp] theorem ageWdt_tmrc (n : Nat) (s : State) : (ageWdt n s).tmrc = s.tmrc := rfl
@[simp] theorem ageWdt_adcr (n : Nat) (s : State) : (ageWdt n s).adcr = s.adcr := rfl
@[simp] theorem ageWdt_timer (n : Nat) (s : State) : (ageWdt n s).timer = s.timer := rfl
@[simp] theorem ageWdt_mem (n : Nat) (s : State) : (ageWdt n s).mem = s.mem := rfl
@[simp] theorem ageWdt_mft (n : Nat) (s : State) : (ageWdt n s).mft = s.mft := rfl
@[simp] theorem ageWdt_wdt (n : Nat) (s : State) : (ageWdt n s).wdt = { s.wdt with age := s.wdt.age + n } := rfl
@[simp] theorem ageWdt_halted (n : Nat) (s : State) : (ageWdt n s).halted = s.halted := rfl
@[simp] theorem ageWdt_tbfAtHalt (n : Nat) (s : State) : (ageWdt n s).tbfAtHalt = s.tbfAtHalt := rfl
@[simp] theorem ageWdt_lvdAge (n : Nat) (s : State) : (ageWdt n s).lvdAge = s.lvdAge := rfl
@[simp] theorem ageWdt_entering (n : Nat) (s : State) : (ageWdt n s).entering = s.entering := rfl
@[simp] theorem ageWdt_slipped (n : Nat) (s : State) : (ageWdt n s).slipped = s.slipped := rfl
@[simp] theorem ageWdt_resLow (n : Nat) (s : State) : (ageWdt n s).resLow = s.resLow := rfl
@[simp] theorem ageWdt_rom (n : Nat) (s : State) : (ageWdt n s).rom = s.rom := rfl
@[simp] theorem ageWdt_par (n : Nat) (s : State) : (ageWdt n s).par = s.par := rfl
@[simp] theorem ageWdt_env (n : Nat) (s : State) : (ageWdt n s).env = s.env := rfl
@[simp] theorem ageWdt_draws (n : Nat) (s : State) : (ageWdt n s).draws = s.draws := rfl

/-! ### `takePads`: the pads sampled -/

@[simp] theorem takePads_acc (e : EnvSample) (s : State) : (takePads e s).acc = s.acc := rfl
@[simp] theorem takePads_mp0 (e : EnvSample) (s : State) : (takePads e s).mp0 = s.mp0 := rfl
@[simp] theorem takePads_mp1 (e : EnvSample) (s : State) : (takePads e s).mp1 = s.mp1 := rfl
@[simp] theorem takePads_bp (e : EnvSample) (s : State) : (takePads e s).bp = s.bp := rfl
@[simp] theorem takePads_pc (e : EnvSample) (s : State) : (takePads e s).pc = s.pc := rfl
@[simp] theorem takePads_stk0 (e : EnvSample) (s : State) : (takePads e s).stk0 = s.stk0 := rfl
@[simp] theorem takePads_stk1 (e : EnvSample) (s : State) : (takePads e s).stk1 = s.stk1 := rfl
@[simp] theorem takePads_sp (e : EnvSample) (s : State) : (takePads e s).sp = s.sp := rfl
@[simp] theorem takePads_tblp (e : EnvSample) (s : State) : (takePads e s).tblp = s.tblp := rfl
@[simp] theorem takePads_tblh (e : EnvSample) (s : State) : (takePads e s).tblh = s.tblh := rfl
@[simp] theorem takePads_flags (e : EnvSample) (s : State) : (takePads e s).flags = s.flags := rfl
@[simp] theorem takePads_intc (e : EnvSample) (s : State) : (takePads e s).intc = s.intc := rfl
@[simp] theorem takePads_rt (e : EnvSample) (s : State) : (takePads e s).rt = s.rt := rfl
@[simp] theorem takePads_port (e : EnvSample) (s : State) : (takePads e s).port = { s.port with pads := e.pads } := rfl
@[simp] theorem takePads_tmrc (e : EnvSample) (s : State) : (takePads e s).tmrc = s.tmrc := rfl
@[simp] theorem takePads_adcr (e : EnvSample) (s : State) : (takePads e s).adcr = s.adcr := rfl
@[simp] theorem takePads_timer (e : EnvSample) (s : State) : (takePads e s).timer = s.timer := rfl
@[simp] theorem takePads_mem (e : EnvSample) (s : State) : (takePads e s).mem = s.mem := rfl
@[simp] theorem takePads_mft (e : EnvSample) (s : State) : (takePads e s).mft = s.mft := rfl
@[simp] theorem takePads_wdt (e : EnvSample) (s : State) : (takePads e s).wdt = s.wdt := rfl
@[simp] theorem takePads_halted (e : EnvSample) (s : State) : (takePads e s).halted = s.halted := rfl
@[simp] theorem takePads_tbfAtHalt (e : EnvSample) (s : State) : (takePads e s).tbfAtHalt = s.tbfAtHalt := rfl
@[simp] theorem takePads_lvdAge (e : EnvSample) (s : State) : (takePads e s).lvdAge = s.lvdAge := rfl
@[simp] theorem takePads_entering (e : EnvSample) (s : State) : (takePads e s).entering = s.entering := rfl
@[simp] theorem takePads_slipped (e : EnvSample) (s : State) : (takePads e s).slipped = s.slipped := rfl
@[simp] theorem takePads_resLow (e : EnvSample) (s : State) : (takePads e s).resLow = e.resLow := rfl
@[simp] theorem takePads_rom (e : EnvSample) (s : State) : (takePads e s).rom = s.rom := rfl
@[simp] theorem takePads_par (e : EnvSample) (s : State) : (takePads e s).par = s.par := rfl
@[simp] theorem takePads_env (e : EnvSample) (s : State) : (takePads e s).env = s.env := rfl
@[simp] theorem takePads_draws (e : EnvSample) (s : State) : (takePads e s).draws = s.draws := rfl

/-! ### `runLvd`: a period of the low voltage detector -/

@[simp] theorem runLvd_acc (n : Nat) (b : Bool) (e : EnvSample) (s : State) : (runLvd n b e s).acc = s.acc := rfl
@[simp] theorem runLvd_mp0 (n : Nat) (b : Bool) (e : EnvSample) (s : State) : (runLvd n b e s).mp0 = s.mp0 := rfl
@[simp] theorem runLvd_mp1 (n : Nat) (b : Bool) (e : EnvSample) (s : State) : (runLvd n b e s).mp1 = s.mp1 := rfl
@[simp] theorem runLvd_bp (n : Nat) (b : Bool) (e : EnvSample) (s : State) : (runLvd n b e s).bp = s.bp := rfl
@[simp] theorem runLvd_pc (n : Nat) (b : Bool) (e : EnvSample) (s : State) : (runLvd n b e s).pc = s.pc := rfl
@[simp] theorem runLvd_stk0 (n : Nat) (b : Bool) (e : EnvSample) (s : State) : (runLvd n b e s).stk0 = s.stk0 := rfl
@[simp] theorem runLvd_stk1 (n : Nat) (b : Bool) (e : EnvSample) (s : State) : (runLvd n b e s).stk1 = s.stk1 := rfl
@[simp] theorem runLvd_sp (n : Nat) (b : Bool) (e : EnvSample) (s : State) : (runLvd n b e s).sp = s.sp := rfl
@[simp] theorem runLvd_tblp (n : Nat) (b : Bool) (e : EnvSample) (s : State) : (runLvd n b e s).tblp = s.tblp := rfl
@[simp] theorem runLvd_tblh (n : Nat) (b : Bool) (e : EnvSample) (s : State) : (runLvd n b e s).tblh = s.tblh := rfl
@[simp] theorem runLvd_flags (n : Nat) (b : Bool) (e : EnvSample) (s : State) : (runLvd n b e s).flags = s.flags := rfl
@[simp] theorem runLvd_intc (n : Nat) (b : Bool) (e : EnvSample) (s : State) : (runLvd n b e s).intc = s.intc := rfl
@[simp] theorem runLvd_rt (n : Nat) (b : Bool) (e : EnvSample) (s : State) : (runLvd n b e s).rt = s.rt := rfl
@[simp] theorem runLvd_port (n : Nat) (b : Bool) (e : EnvSample) (s : State) : (runLvd n b e s).port = s.port := rfl
@[simp] theorem runLvd_tmrc (n : Nat) (b : Bool) (e : EnvSample) (s : State) : (runLvd n b e s).tmrc = s.tmrc := rfl
@[simp] theorem runLvd_adcr (n : Nat) (b : Bool) (e : EnvSample) (s : State) :
    (runLvd n b e s).adcr = { s.adcr with blf := if s.adcr.bon then e.vddLow else s.adcr.blf } := rfl
@[simp] theorem runLvd_timer (n : Nat) (b : Bool) (e : EnvSample) (s : State) : (runLvd n b e s).timer = s.timer := rfl
@[simp] theorem runLvd_mem (n : Nat) (b : Bool) (e : EnvSample) (s : State) : (runLvd n b e s).mem = s.mem := rfl
@[simp] theorem runLvd_mft (n : Nat) (b : Bool) (e : EnvSample) (s : State) : (runLvd n b e s).mft = s.mft := rfl
@[simp] theorem runLvd_wdt (n : Nat) (b : Bool) (e : EnvSample) (s : State) : (runLvd n b e s).wdt = s.wdt := rfl
@[simp] theorem runLvd_halted (n : Nat) (b : Bool) (e : EnvSample) (s : State) :
    (runLvd n b e s).halted = s.halted := rfl
@[simp] theorem runLvd_tbfAtHalt (n : Nat) (b : Bool) (e : EnvSample) (s : State) :
    (runLvd n b e s).tbfAtHalt = s.tbfAtHalt := rfl
@[simp] theorem runLvd_lvdAge (n : Nat) (b : Bool) (e : EnvSample) (s : State) :
    (runLvd n b e s).lvdAge = if b && s.adcr.bon then s.lvdAge + n else 0 := rfl
@[simp] theorem runLvd_entering (n : Nat) (b : Bool) (e : EnvSample) (s : State) :
    (runLvd n b e s).entering = s.entering := rfl
@[simp] theorem runLvd_slipped (n : Nat) (b : Bool) (e : EnvSample) (s : State) :
    (runLvd n b e s).slipped = s.slipped := rfl
@[simp] theorem runLvd_resLow (n : Nat) (b : Bool) (e : EnvSample) (s : State) :
    (runLvd n b e s).resLow = s.resLow := rfl
@[simp] theorem runLvd_rom (n : Nat) (b : Bool) (e : EnvSample) (s : State) : (runLvd n b e s).rom = s.rom := rfl
@[simp] theorem runLvd_par (n : Nat) (b : Bool) (e : EnvSample) (s : State) : (runLvd n b e s).par = s.par := rfl
@[simp] theorem runLvd_env (n : Nat) (b : Bool) (e : EnvSample) (s : State) : (runLvd n b e s).env = s.env := rfl
@[simp] theorem runLvd_draws (n : Nat) (b : Bool) (e : EnvSample) (s : State) : (runLvd n b e s).draws = s.draws := rfl

/-! ### `clockMft`: a clock of the multi-function timer -/

@[simp] theorem clockMft_acc (s : State) : (clockMft s).acc = s.acc := rfl
@[simp] theorem clockMft_mp0 (s : State) : (clockMft s).mp0 = s.mp0 := rfl
@[simp] theorem clockMft_mp1 (s : State) : (clockMft s).mp1 = s.mp1 := rfl
@[simp] theorem clockMft_bp (s : State) : (clockMft s).bp = s.bp := rfl
@[simp] theorem clockMft_pc (s : State) : (clockMft s).pc = s.pc := rfl
@[simp] theorem clockMft_stk0 (s : State) : (clockMft s).stk0 = s.stk0 := rfl
@[simp] theorem clockMft_stk1 (s : State) : (clockMft s).stk1 = s.stk1 := rfl
@[simp] theorem clockMft_sp (s : State) : (clockMft s).sp = s.sp := rfl
@[simp] theorem clockMft_tblp (s : State) : (clockMft s).tblp = s.tblp := rfl
@[simp] theorem clockMft_tblh (s : State) : (clockMft s).tblh = s.tblh := rfl
@[simp] theorem clockMft_flags (s : State) : (clockMft s).flags = s.flags := rfl
@[simp] theorem clockMft_intc (s : State) :
    (clockMft s).intc = { s.intc with tbf := s.intc.tbf || (s.mft + 1).toNat % timeBaseFactor s.rt == 0 } := rfl
@[simp] theorem clockMft_rt (s : State) : (clockMft s).rt = s.rt := rfl
@[simp] theorem clockMft_port (s : State) : (clockMft s).port = s.port := rfl
@[simp] theorem clockMft_tmrc (s : State) : (clockMft s).tmrc = s.tmrc := rfl
@[simp] theorem clockMft_adcr (s : State) : (clockMft s).adcr = s.adcr := rfl
@[simp] theorem clockMft_timer (s : State) : (clockMft s).timer = s.timer := rfl
@[simp] theorem clockMft_mem (s : State) : (clockMft s).mem = s.mem := rfl
@[simp] theorem clockMft_mft (s : State) : (clockMft s).mft = s.mft + 1 := rfl
@[simp] theorem clockMft_wdt (s : State) : (clockMft s).wdt = s.wdt := rfl
@[simp] theorem clockMft_halted (s : State) : (clockMft s).halted = s.halted := rfl
@[simp] theorem clockMft_tbfAtHalt (s : State) : (clockMft s).tbfAtHalt = s.tbfAtHalt := rfl
@[simp] theorem clockMft_lvdAge (s : State) : (clockMft s).lvdAge = s.lvdAge := rfl
@[simp] theorem clockMft_entering (s : State) : (clockMft s).entering = s.entering := rfl
@[simp] theorem clockMft_slipped (s : State) : (clockMft s).slipped = s.slipped := rfl
@[simp] theorem clockMft_resLow (s : State) : (clockMft s).resLow = s.resLow := rfl
@[simp] theorem clockMft_rom (s : State) : (clockMft s).rom = s.rom := rfl
@[simp] theorem clockMft_par (s : State) : (clockMft s).par = s.par := rfl
@[simp] theorem clockMft_env (s : State) : (clockMft s).env = s.env := rfl
@[simp] theorem clockMft_draws (s : State) : (clockMft s).draws = s.draws := rfl

/-! ### The depth of the stack -/

/-- A push makes the stack one deeper, up to two. -/
theorem push_sp (v : PAddr) (s : State) : (push v s).sp.val = min (s.sp.val + 1) 2 := by
  unfold push
  split
  · next h => simp [h]
  · split
    · next h => simp [h]
    · next h0 h1 => show s.sp.val = _; have := s.sp.isLt; omega

/-- The youngest return address after a push is the one pushed. -/
theorem popPc_push (v : PAddr) (s : State) (h : s.sp.val < 2) :
    ∃ s1, popPc (push v s) = .ok s1 ∧ s1.pc = v ∧ s1.sp = s.sp := by
  have h3 : s.sp = 0 ∨ s.sp = 1 := by omega
  rcases h3 with h3 | h3 <;> simp [push, popPc, h3]

/-- All that a pop can do: it needs an entry, and gives the youngest one. -/
theorem popPc_cases {s s1 : State} (h : popPc s = .ok s1) :
    (s.sp = 1 ∧ s1 = { s with pc := s.stk0, sp := 0 }) ∨ (s.sp = 2 ∧ s1 = { s with pc := s.stk1, sp := 1 }) := by
  unfold popPc at h
  split at h
  · cases h
  · split at h
    · next h1 => cases h; exact .inl ⟨h1, rfl⟩
    · cases h; exact .inr ⟨by omega, rfl⟩

end Sys2Proof.Machine
end

