-- ==== Sys2Proof/Laws/Devices.lean ====
section
/-! SUPPORT. For every device, and for a step as a whole, all that it can do: what a lemma about steps cites instead of
unfolding the device. -/

namespace Sys2Proof.Machine

open Sys2Proof Sys2Proof.Config

/-! ## The counter -/

/-- The events of two lists, one after the other. -/
theorem counterEvents_append (es fs : List ClockEvent) :
    ∀ s : State, counterEvents s (es ++ fs) = counterEvents (counterEvents s es) fs := by
  induction es with
  | nil => exact fun _ => rfl
  | cons e es ih => exact fun s => ih _

/-- No event moves a counter that is off. -/
theorem counterEvents_off (es : List ClockEvent) : ∀ s : State, s.tmrc.ton = false → counterEvents s es = s := by
  induction es with
  | nil => exact fun _ _ => rfl
  | cons e es ih =>
    intro s h
    have : counterEvent s e = s := by unfold counterEvent; simp [countMode, h]
    rw [counterEvents, this, ih s h]

/-- A counter that has not moved has counted nothing. -/
theorem Counted.zero {s s' : State} (ht : s'.timer.ta = s.timer.ta) (hf : s'.intc.tf = s.intc.tf) : Counted 0 s s' := by
  unfold Counted
  rw [if_pos (by have := s.timer.ta.isLt; omega)]
  simp [ht, hf]

/-- One count and then `k` more, if TF stays set once it is. -/
theorem Counted.succ {k : Nat} {s s' : State} (h : Counted k (count s) s')
    (hf : (count s).intc.tf = true → s'.intc.tf = true) : Counted (k + 1) s s' := by
  unfold Counted at h ⊢
  unfold count at h hf
  split at h
  · next ht =>
    rw [if_neg (by simp [ht])]
    exact hf (by simp [ht])
  · next ht =>
    have hne : s.timer.ta.toNat ≠ 0xFFFF := fun h => ht (BitVec.eq_of_toNat_eq h)
    have hlt := s.timer.ta.isLt
    have h1 : (s.timer.ta + 1).toNat = s.timer.ta.toNat + 1 := by rw [BitVec.toNat_add]; simp; omega
    simp only [h1] at h
    rw [show s.timer.ta.toNat + (k + 1) = s.timer.ta.toNat + 1 + k by omega]
    exact h

/-- What a period of the counter can change: the two counters, the two marks of a pulse-width measurement, TF and TON, of
which TF only goes to 1 and TON only to 0, and a measurement that runs is armed if it was so before. -/
def CounterMoved (s s' : State) : Prop :=
  ∃ (ta tb : Word) (armed run tf ton : Bool),
    s' = { s with
      timer := { s.timer with ta := ta, tb := tb, pwArmed := armed, pwRun := run },
      intc := { s.intc with tf := tf }, tmrc := { s.tmrc with ton := ton } } ∧
    (s.intc.tf = true → tf = true) ∧ (ton = true → s.tmrc.ton = true) ∧
    ((s.timer.pwRun = true → s.timer.pwArmed = true) → run = true → armed = true)

/-- Standing still is one of the counter's moves. -/
theorem CounterMoved.refl (s : State) : CounterMoved s s := ⟨_, _, _, _, _, _, rfl, id, id, id⟩

/-- Two moves of the counter are a move of the counter. -/
theorem CounterMoved.trans {s s1 s2 : State} (h : CounterMoved s s1) (h' : CounterMoved s1 s2) : CounterMoved s s2 := by
  obtain ⟨_, _, _, _, _, _, rfl, h1, h2, h3⟩ := h
  obtain ⟨_, _, _, _, _, _, rfl, h4, h5, h6⟩ := h'
  exact ⟨_, _, _, _, _, _, rfl, fun h => h4 (h1 h), fun h => h2 (h5 h), fun h => h6 (h3 h)⟩

/-- One count is a move of the counter. -/
theorem count_moved (s : State) : CounterMoved s (count s) := by
  unfold count
  split
  · exact ⟨_, _, _, _, _, _, rfl, fun _ => rfl, id, id⟩
  · exact ⟨_, _, _, _, _, _, rfl, id, id, id⟩

/-- The start of a pulse-width measurement is a move of the counter. -/
theorem startPulse_moved (s : State) : CounterMoved s (startPulse s) := by
  unfold startPulse
  split
  · next h => exact ⟨_, _, _, _, _, _, rfl, id, id, fun _ _ => by simp_all⟩
  · exact .refl s

/-- The stop of a pulse-width measurement is a move of the counter. -/
theorem stopPulse_moved (s : State) : CounterMoved s (stopPulse s) := by
  unfold stopPulse
  split
  · exact ⟨_, _, _, _, _, _, rfl, id, by simp, fun _ h => by simp at h⟩
  · exact .refl s

/-- An event in timer/event counter mode is a move of the counter. -/
theorem counterEvent_moved (s : State) (e : ClockEvent) : CounterMoved s (counterEvent s e) := by
  unfold counterEvent
  split
  · exact count_moved s
  · split
    · exact count_moved s
    · exact .refl s
  · split
    · exact count_moved s
    · exact .refl s
  · split
    · exact startPulse_moved s
    · split
      · exact stopPulse_moved s
      · exact .refl s
  · exact .refl s

/-- So is any number of events. -/
theorem counterEvents_moved (es : List ClockEvent) : ∀ s : State, CounterMoved s (counterEvents s es) := by
  induction es with
  | nil => exact CounterMoved.refl
  | cons e rest ih => exact fun s => (counterEvent_moved s e).trans (ih _)

/-- A clock of timer A in A/D converter mode, where it is not refused, is a move of the counter. -/
theorem clockA_moved {s s' : State} (h : clockA s = .ok s') : CounterMoved s s' := by
  unfold clockA at h
  split at h
  · split at h
    · cases h
    · cases h
      exact ⟨_, _, _, _, _, _, rfl, fun _ => rfl, by simp, id⟩
  · cases h
    exact ⟨_, _, _, _, _, _, rfl, id, id, id⟩

/-- A clock of timer B in A/D converter mode, where it is not refused, is a move of the counter. -/
theorem clockB_moved {s s' : State} (h : clockB s = .ok s') : CounterMoved s s' := by
  unfold clockB at h
  split at h
  · split at h
    · cases h
      exact ⟨_, _, _, _, _, _, rfl, fun _ => rfl, by simp, id⟩
    · cases h
  · cases h
    exact ⟨_, _, _, _, _, _, rfl, id, id, id⟩

/-- An event in A/D converter mode, where it is not refused, is a move of the counter. -/
theorem converterEvent_moved {s s' : State} {e : ClockEvent} (h : converterEvent s e = .ok s') : CounterMoved s s' := by
  unfold converterEvent at h
  split at h
  · exact clockA_moved h
  · exact clockB_moved h
  · exact clockB_moved h
  · split at h
    · exact clockA_moved h
    · cases h; exact .refl s
  · cases h; exact .refl s

/-- So is any number of events. -/
theorem converterEvents_moved (es : List ClockEvent) :
    ∀ {s s' : State}, converterEvents s es = .ok s' → CounterMoved s s' := by
  induction es with
  | nil => intro s s' h; cases h; exact .refl s
  | cons e rest ih =>
    intro s s' h
    unfold converterEvents at h
    split at h
    · cases h
    · next h1 => exact (converterEvent_moved h1).trans (ih h)

/-- A period of the counter, where it is not refused, is a move of the counter. -/
theorem runCounter_moved {n : Nat} {pins : List (List PinEvent)} {s s' : State} (h : runCounter n pins s = .ok s') :
    CounterMoved s s' := by
  unfold runCounter at h
  split at h
  · cases h; exact .refl s
  · cases h; exact counterEvents_moved _ s
  · cases h; exact counterEvents_moved _ s
  · cases h; exact counterEvents_moved _ s
  · exact converterEvents_moved _ h
  · exact converterEvents_moved _ h
  · cases h

/-- In timer/event counter mode, and not counting without a mode, no period of the counter is refused. -/
theorem runCounter_completes {n : Nat} {pins : List (List PinEvent)} {s : State} (ha : s.adcr.adc = false)
    (hm : countMode s.tmrc s.adcr ≠ .unused) : ∃ s', runCounter n pins s = .ok s' := by
  have h1 : countMode s.tmrc s.adcr ≠ .adcSys := by unfold countMode selectedMode; rw [ha]; split <;> (try split) <;> simp_all
  have h2 : countMode s.tmrc s.adcr ≠ .adcExt := by unfold countMode selectedMode; rw [ha]; split <;> (try split) <;> simp_all
  unfold runCounter
  split <;> simp_all

/-- A counter that is off does not move. -/
theorem runCounter_off {n : Nat} {pins : List (List PinEvent)} {s : State} (h : s.tmrc.ton = false) :
    runCounter n pins s = .ok s := by simp [runCounter, countMode, h]

/-- In timer/event counter mode the counter takes the events of the period one after the other. -/
theorem runCounter_counts {n : Nat} {pins : List (List PinEvent)} {s : State}
    (h : countMode s.tmrc s.adcr = .timer ∨ countMode s.tmrc s.adcr = .event ∨ countMode s.tmrc s.adcr = .pulse) :
    runCounter n pins s = .ok (counterEvents s (clockEvents n pins)) := by
  unfold runCounter
  rcases h with h | h | h <;> rw [h]

/-- So do the two counters in A/D converter mode. -/
theorem runCounter_converts {n : Nat} {pins : List (List PinEvent)} {s : State}
    (h : countMode s.tmrc s.adcr = .adcSys ∨ countMode s.tmrc s.adcr = .adcExt) :
    runCounter n pins s = converterEvents s (clockEvents n pins) := by
  unfold runCounter
  rcases h with h | h <;> rw [h]

/-- The counter's part of a step, where it is not refused, is a move of the counter. -/
theorem timerPeriod_moved {before s s' : State} {n : Nat} {drawn : Bool} {e : EnvSample}
    (h : timerPeriod before n drawn e s = .ok s') : CounterMoved s s' := by
  unfold timerPeriod at h
  split at h
  · split at h
    · cases h
    · next h1 =>
      cases h
      obtain ⟨_, _, _, _, _, _, rfl, h3, _, h5⟩ := runCounter_moved h1
      exact ⟨_, _, _, _, _, _, rfl, h3, id, h5⟩
  · split at h
    · exact runCounter_moved h
    · split at h <;> exact runCounter_moved h

/-- In timer/event counter mode the counter's part of a step is not refused, if neither the mode before nor the mode after is
one without meaning. -/
theorem timerPeriod_completes {before s : State} {n : Nat} {drawn : Bool} {e : EnvSample} (ha : s.adcr.adc = false)
    (hb : countMode before.tmrc s.adcr ≠ .unused) (hm : countMode s.tmrc s.adcr ≠ .unused) :
    ∃ s', timerPeriod before n drawn e s = .ok s' := by
  unfold timerPeriod
  split
  · obtain ⟨s1, h1⟩ := runCounter_completes (n := drawnClocks n e) (pins := seenPins e.missed e.pins)
      (s := { s with tmrc := before.tmrc }) ha hb
    unfold drawnPeriod
    rw [h1]
    exact ⟨_, rfl⟩
  · split
    · exact runCounter_completes ha hm
    · split <;> exact runCounter_completes ha hm

/-! ## What the counter sees -/

/-- A period of `n` system clocks has that many clocks. -/
theorem clockEvents_clocks (n : Nat) : ∀ pins : List (List PinEvent), clocksIn (clockEvents n pins) = n := by
  have hmap : ∀ ps : List PinEvent, (ps.map ClockEvent.pin).count .clk = 0 := fun ps =>
    List.count_eq_zero.mpr (by simp)
  unfold clocksIn
  induction n with
  | zero => intro pins; exact hmap _
  | succ n ih => intro pins; cases pins <;> simp [clockEvents, hmap, ih]

/-- And every event outside it that the sample brings. -/
theorem clockEvents_pins (p : PinEvent) (n : Nat) :
    ∀ pins : List (List PinEvent), (clockEvents n pins).count (.pin p) = pins.flatten.count p := by
  have hmap : ∀ ps : List PinEvent, (ps.map ClockEvent.pin).count (.pin p) = ps.count p := fun ps =>
    List.count_map_of_injective ps ClockEvent.pin (fun _ _ h => by cases h; rfl) p
  induction n with
  | zero => intro pins; exact hmap _
  | succ n ih => intro pins; cases pins <;> simp [clockEvents, hmap, ih]

/-- Without marks every event is seen. -/
@[simp] theorem seenPins_nil (pins : List (List PinEvent)) : seenPins [] pins = pins := rfl

/-- Of one list no event is seen that did not arrive, nor in another order. -/
theorem keepSeen_sublist (ms : List Bool) : ∀ ps : List PinEvent, (keepSeen ms ps).Sublist ps := by
  induction ms with
  | nil => exact fun ps => .refl ps
  | cons m ms ih =>
    intro ps
    cases ps with
    | nil => exact .refl []
    | cons p ps =>
      unfold keepSeen
      split
      · exact (ih ps).cons p
      · exact (ih ps).cons_cons p

/-- Of a sample no event is seen that did not arrive, nor in another order. -/
theorem seenPins_sublist (missed : List (List Bool)) : ∀ pins : List (List PinEvent),
    (seenPins missed pins).flatten.Sublist pins.flatten := by
  induction missed with
  | nil => exact fun pins => .refl _
  | cons ms missed ih =>
    intro pins
    cases pins with
    | nil => exact .refl _
    | cons ps pins => exact (keepSeen_sublist ms ps).append (ih pins)

/-- Every choice of what is seen can be made by marks. -/
theorem keepSeen_expresses {ps qs : List PinEvent} (h : qs.Sublist ps) : ∃ ms, keepSeen ms ps = qs := by
  induction h with
  | slnil => exact ⟨[], rfl⟩
  | cons p _ ih => obtain ⟨ms, h⟩ := ih; exact ⟨true :: ms, by simp [keepSeen, h]⟩
  | cons_cons p _ ih => obtain ⟨ms, h⟩ := ih; exact ⟨false :: ms, by simp [keepSeen, h]⟩

/-- The drawn number of clocks is at most that of the period, and any number up to it can be drawn. -/
theorem drawnClocks_le (n : Nat) (e : EnvSample) : drawnClocks n e ≤ n :=
  Nat.le_of_lt_succ (Nat.mod_lt _ n.succ_pos)

theorem drawnClocks_seen {n : Nat} {e : EnvSample} (h : e.seen ≤ n) : drawnClocks n e = e.seen :=
  Nat.mod_eq_of_lt (Nat.lt_succ_of_le h)

/-- The counter's part of a step (R319): one that is off before and after does not move; else the counter runs in the mode after the
instruction, or in the one before it if the instruction stops it, and sees all that happens, or what is drawn of it. -/
theorem timerPeriod_cases {before s s' : State} {n : Nat} {drawn : Bool} {e : EnvSample}
    (h : timerPeriod before n drawn e s = .ok s') :
    (before.tmrc.ton = false ∧ s.tmrc.ton = false ∧ s' = s) ∨
    ∃ k pins s1, (before.tmrc.ton ≠ s.tmrc.ton ∨ drawn = true → k = drawnClocks n e ∧ pins = seenPins e.missed e.pins) ∧
      (¬(before.tmrc.ton ≠ s.tmrc.ton ∨ drawn = true) → k = n ∧ pins = e.pins) ∧
      runCounter k pins { s with tmrc := if s.tmrc.ton then s.tmrc else before.tmrc } = .ok s1 ∧
      s' = if s.tmrc.ton then s1 else { s1 with tmrc := s.tmrc } := by
  unfold timerPeriod at h
  cases hb : before.tmrc.ton <;> cases hs : s.tmrc.ton <;> simp only [hb, hs, drawnPeriod] at h
  · refine .inl ⟨rfl, rfl, ?_⟩
    cases drawn <;> simpa [runCounter_off hs, eq_comm] using h
  · exact .inr ⟨_, _, s', fun _ => ⟨rfl, rfl⟩, by simp, by simpa using h, rfl⟩
  · simp only [Bool.not_false, Bool.and_self, if_true] at h
    split at h
    · cases h
    · next s1 h1 => cases h; exact .inr ⟨_, _, s1, fun _ => ⟨rfl, rfl⟩, by simp, by simpa using h1, rfl⟩
  · cases drawn
    · exact .inr ⟨_, _, s', by simp, fun _ => ⟨rfl, rfl⟩, by simpa using h, rfl⟩
    · exact .inr ⟨_, _, s', fun _ => ⟨rfl, rfl⟩, by simp, by simpa using h, rfl⟩

/-! ## The other devices -/

/-- The three wake-ups can only end HALT. -/
theorem timerWake_cases (tf : Bool) (s : State) :
    timerWake tf s = s ∨ s.halted = true ∧ s.par.mask.oscOnAtHalt = true ∧ s.par.tfWakesHalt = true ∧ tf = false ∧
      s.intc.tf = true ∧ timerWake tf s = { s with halted := false } := by
  unfold timerWake
  split
  · next h => exact .inr (by simp_all)
  · exact .inl rfl

/-- What the wake-up by the time base can do. -/
theorem timeBaseWake_cases (s : State) :
    timeBaseWake s = s ∨ s.halted = true ∧ s.par.mask.oscOnAtHalt = true ∧ s.tbfAtHalt = false ∧ s.intc.tbf = true ∧
      timeBaseWake s = { s with halted := false } := by
  unfold timeBaseWake
  split
  · next h => exact .inr (by simp_all)
  · exact .inl rfl

/-- What the wake-up by port A can do. -/
theorem portWake_cases (e : EnvSample) (s : State) :
    portWake e s = s ∨ s.halted = true ∧ e.paWake = true ∧ e.pads ≠ s.port.pads ∧ portWake e s = { s with halted := false } := by
  unfold portWake
  split
  · next h => exact .inr (by simp_all)
  · exact .inl rfl

/-- The multi-function timer moves itself and may set TBF. -/
theorem runMft_moved (n : Nat) : ∀ s : State, ∃ (m : BitVec 15) (tbf : Bool),
    runMft n s = { s with mft := m, intc := { s.intc with tbf := tbf } } ∧ (s.intc.tbf = true → tbf = true) := by
  induction n with
  | zero => exact fun s => ⟨_, _, rfl, id⟩
  | succ n ih =>
    intro s
    obtain ⟨m, tbf, h1, h2⟩ := ih (clockMft s)
    refine ⟨m, tbf, ?_, fun h => h2 (by simp [h])⟩
    rw [runMft, h1]
    rfl

/-- The watchdog ages, and may do no more; if it does more, it resets a chip that runs, or warm-resets one in HALT. -/
theorem runWdt_cases (n : Nat) (e : EnvSample) (s : State) :
    (runWdt n e s = ageWdt n s ∧
      ¬(n ≠ 0 ∧ wdtTimesOut e (ageWdt n s) = true)) ∨
    (n ≠ 0 ∧ wdtTimesOut e (ageWdt n s) = true ∧
      (s.halted = true ∧ runWdt n e s = warmReset (ageWdt n s) ∨
        s.halted = false ∧ runWdt n e s = chipReset .wdtN (ageWdt n s))) := by
  unfold runWdt
  split
  · next h =>
    refine .inr ⟨h.1, h.2, ?_⟩
    cases hs : s.halted
    · exact .inr ⟨rfl, by simp⟩
    · exact .inl ⟨rfl, by simp⟩
  · next h => exact .inl ⟨rfl, h⟩

/-- The low voltage detector changes its flag and its settling time alone. -/
theorem runLvd_moved (n : Nat) (b : Bool) (e : EnvSample) (s : State) : ∃ blf age,
    runLvd n b e s = { s with adcr := { s.adcr with blf := blf }, lvdAge := age } := ⟨_, _, rfl⟩

/-- What happens at the pads at the end of a period: a reset of one of three kinds, or what a port stimulus can do. -/
theorem padEvents_cases (e : EnvSample) (s : State) :
    (e.powerOn = true ∧ padEvents e s = chipReset .por s) ∨
    (e.powerOn = false ∧ e.resLow = true ∧ (s.halted = true ∧ padEvents e s = chipReset .resH s ∨
      s.halted = false ∧ padEvents e s = chipReset .resN s)) ∨
    (e.powerOn = false ∧ e.resLow = false ∧ padEvents e s = portWake e s) := by
  unfold padEvents
  cases e.powerOn <;> cases e.resLow <;> cases s.halted <;> simp

/-- The interrupt check changes the two fields that are its own. -/
theorem boundary_cases (e : EnvSample) (s : State) :
    (pendingInterrupt s = none ∧ boundary e s = { s with entering := none, slipped := false }) ∨
    ∃ k, pendingInterrupt s = some k ∧
      ((s.par.intSlip = true ∧ e.slip = true ∧ s.slipped = false ∧
          boundary e s = { s with entering := none, slipped := true }) ∨
        ((s.par.intSlip = false ∨ e.slip = false ∨ s.slipped = true) ∧
          boundary e s = { s with entering := some k, slipped := false })) := by
  unfold boundary
  split
  · next h => exact .inl ⟨h, rfl⟩
  · next k h =>
    refine .inr ⟨k, h, ?_⟩
    split
    · next h1 => exact .inl (by simp_all)
    · next h1 => exact .inr ⟨by cases h2 : s.par.intSlip <;> cases h3 : e.slip <;> simp_all, rfl⟩

/-- Which interrupt is pending does not depend on the fields that the interrupt check owns. -/
@[simp] theorem pendingInterrupt_entering (s : State) (k : Option IntSource) (b : Bool) :
    pendingInterrupt { s with entering := k, slipped := b } = pendingInterrupt s := rfl

/-- Where an interrupt is pending, the core runs. -/
theorem pendingInterrupt_runs {s : State} {k : IntSource} (h : pendingInterrupt s = some k) :
    s.halted = false ∧ s.resLow = false ∧ s.intc.emi = true ∧ s.sp.val < 2 := by
  unfold pendingInterrupt at h
  split at h
  · cases h
  · next h1 =>
    simp at h1
    exact ⟨h1.1.1.1, h1.1.1.2, h1.1.2, by omega⟩

/-- Where the watchdog is silent it only ages. -/
theorem runWdt_silent {n : Nat} {e : EnvSample} {s : State} (h : WatchdogSilent n e s) : runWdt n e s = ageWdt n s := by
  rcases runWdt_cases n e s with ⟨h1, _⟩ | ⟨h1, h2, _⟩
  · exact h1
  · exfalso
    simp only [wdtTimesOut, Bool.and_eq_true, Bool.or_eq_true] at h2
    obtain ⟨⟨h3, h4⟩, h5⟩ := h2
    have h3 : 0x8000 ≤ s.wdt.age + n := of_decide_eq_true h3
    obtain ⟨h6, h7⟩ := h h4 (Nat.pos_of_ne_zero h1)
    rcases h5 with h5 | h5
    · have h5 : 0x10000 ≤ s.wdt.age + n := of_decide_eq_true h5
      omega
    · rw [h7 h3] at h5; cases h5

/-- All that the devices but the counter can do in a period without a reset: the multi-function timer, TBF, the end of HALT,
the watchdog's age, the low voltage detector, and the pads. -/
theorem otherDevices_noReset {clocks cyc : Nat} {b tf : Bool} {e : EnvSample} {s : State} (h : NoReset clocks e s) :
    ∃ (m : BitVec 15) (tbf halted : Bool),
      otherDevices clocks cyc b tf e s = { s with
        mft := m, intc := { s.intc with tbf := tbf }, halted := halted, wdt := { s.wdt with age := s.wdt.age + clocks },
        adcr := { s.adcr with blf := if s.adcr.bon then e.vddLow else s.adcr.blf },
        lvdAge := if b && s.adcr.bon then s.lvdAge + cyc else 0, resLow := false, port := { s.port with pads := e.pads } } ∧
      (s.intc.tbf = true → tbf = true) ∧ (halted = true → s.halted = true) := by
  obtain ⟨hp, hr, hw⟩ := h
  unfold otherDevices samplePads
  obtain ⟨h1, e1, k1⟩ : ∃ h1, timerWake tf s = { s with halted := h1 } ∧ (h1 = true → s.halted = true) := by
    rcases timerWake_cases tf s with h | ⟨_, _, _, _, _, h⟩
    · exact ⟨s.halted, h, id⟩
    · exact ⟨false, h, by simp⟩
  rw [e1]
  obtain ⟨m, tbf, e2, k2⟩ := runMft_moved clocks { s with halted := h1 }
  rw [e2]
  obtain ⟨h2, e3, k3⟩ : ∃ h2, timeBaseWake { s with halted := h1, mft := m, intc := { s.intc with tbf := tbf } } =
      { s with halted := h2, mft := m, intc := { s.intc with tbf := tbf } } ∧ (h2 = true → h1 = true) := by
    rcases timeBaseWake_cases { s with halted := h1, mft := m, intc := { s.intc with tbf := tbf } } with h | ⟨_, _, _, _, h⟩
    · exact ⟨h1, h, id⟩
    · exact ⟨false, h, by simp⟩
  have hs : WatchdogSilent clocks e { s with halted := h2, mft := m, intc := { s.intc with tbf := tbf } } := hw
  rw [e3, runWdt_silent hs]
  obtain ⟨h3, e4, k4⟩ : ∃ h3, padEvents e (runLvd cyc b e (ageWdt clocks
      { s with halted := h2, mft := m, intc := { s.intc with tbf := tbf } })) =
      { runLvd cyc b e (ageWdt clocks { s with halted := h2, mft := m, intc := { s.intc with tbf := tbf } }) with
        halted := h3 } ∧ (h3 = true → h2 = true) := by
    unfold padEvents
    rw [if_neg (by simp [hp]), if_neg (by simp [hr])]
    rcases portWake_cases e (runLvd cyc b e (ageWdt clocks
      { s with halted := h2, mft := m, intc := { s.intc with tbf := tbf } })) with h | ⟨_, _, _, h⟩
    · exact ⟨h2, h, id⟩
    · exact ⟨false, h, by simp⟩
  rw [e4, ← hr]
  exact ⟨m, tbf, h3, rfl, k2, fun h => k1 (k3 (k4 h))⟩

/-! ## The step -/

/-- All that can follow the core's own effect when the step answers a next state. -/
theorem period_cases {before s1 s' : State} {clocks cyc : Nat} {drawn : Bool}
    (h : period before clocks cyc drawn s1 = .next s') :
    ∃ s3, timerPeriod before clocks drawn (nextSample s1) (dropSample s1) = .ok s3 ∧
      s' = boundary (nextSample s1)
        (otherDevices clocks cyc before.adcr.bon s1.intc.tf (nextSample s1) s3) := by
  unfold period at h
  simp only at h
  split at h
  · cases h
  · next s3 h1 => cases h; exact ⟨s3, h1, rfl⟩

/-- All the ways in which a step can answer a next state: the chip is held in reset, the core sleeps, it enters an interrupt, or
it executes the instruction at the PC. -/
theorem step_cases {s s' : State} (h : step s = .next s') :
    (s.resLow = true ∧ s' = heldStep s) ∨
    (s.resLow = false ∧ s.halted = true ∧ countsOutside s = false ∧
      period s (if oscillatorRuns s then 1 else 0) 0 false s = .next s') ∨
    (s.resLow = false ∧ s.halted = false ∧ ∃ k, s.entering = some k ∧
      period s 8 2 false (takeInterrupt k s) = .next s') ∨
    (s.resLow = false ∧ s.halted = false ∧ s.entering = none ∧ ∃ i s1, s.par.enc.decode (fetchWord s) = .ok i ∧
      exec i s = .next s1 ∧
      period s (4 * cycles i s s1) (cycles i s s1) (readsRunningCounter i s) s1 = .next s') := by
  unfold step at h
  split at h
  · next h1 => cases h; exact .inl ⟨h1, rfl⟩
  · next h1 =>
    have h1 : s.resLow = false := by simpa using h1
    split at h
    · next h2 =>
      unfold haltedStep at h
      split at h
      · cases h
      · next h3 => exact .inr (.inl ⟨h1, h2, by simpa using h3, h⟩)
    · next h2 =>
      have h2 : s.halted = false := by simpa using h2
      split at h
      · next k h3 => exact .inr (.inr (.inl ⟨h1, h2, k, h3, h⟩))
      · next h3 =>
        split at h
        · cases h
        · next i h4 =>
          split at h
          · next s1 h5 => exact .inr (.inr (.inr ⟨h1, h2, h3, i, s1, h4, h5, h⟩))
          · cases h
          · cases h

end Sys2Proof.Machine
end

