-- ==== Sys2Proof/Laws/Flags.lean ====
section
/-! SUPPORT. The computations of Flags.lean, once each: what the adder, the rotates and the bit operations answer. -/

namespace Sys2Proof.Machine

theorem toInt_byte (b : Byte) : b.toInt = if 128 ≤ b.toNat then (b.toNat : Int) - 256 else b.toNat := by
  have := b.isLt
  rw [BitVec.toInt_eq_toNat_cond]
  split <;> split <;> omega

theorem bool_toNat_le (c : Bool) : c.toNat ≤ 1 := by cases c <;> simp

theorem xor_decide (a b : Prop) [Decidable a] [Decidable b] : ((decide a ^^ decide b) = true) ↔ ¬(a ↔ b) := by
  by_cases ha : a <;> by_cases hb : b <;> simp [ha, hb]

/-- The adder's result and flags are those of an addition. -/
theorem add8_spec (p q : Byte) (cin : Bool) (f : Flags) :
    (add8 p q cin).r = sumByte p q cin ∧ AdditionFlags p q cin f (f.afterSum (add8 p q cin)) := by
  have hp := p.isLt
  have hq := q.isLt
  have hc := bool_toNat_le cin
  refine ⟨rfl, ?_, ?_, ?_, ?_, rfl, rfl⟩
  · simp [Flags.afterSum, add8]
  · simp [Flags.afterSum, add8]
  · simp [Flags.afterSum, add8, sumByte]
  · rw [toInt_byte, toInt_byte]
    simp only [Flags.afterSum, add8, xor_decide]
    split <;> split <;> omega

theorem complement_toNat (q : Byte) : (~~~q).toNat = 255 - q.toNat := by
  simp [BitVec.toNat_not]

/-- The result of a subtraction through the adder is the difference. -/
theorem sub8_result (p q : Byte) (cin : Bool) : (sub8 p q cin).r = differenceByte p q cin := by
  have hp := p.isLt
  have hq := q.isLt
  apply BitVec.eq_of_toNat_eq
  simp only [sub8, add8, differenceByte, complement_toNat, BitVec.toNat_ofInt, BitVec.toNat_ofNat]
  cases cin <;> simp only [Bool.toNat_true, Bool.toNat_false, Bool.not_true, Bool.not_false] <;> omega

/-- The adder's flags after a subtraction are those of a subtraction. -/
theorem sub8_spec (p q : Byte) (cin : Bool) (f : Flags) :
    (sub8 p q cin).r = differenceByte p q cin ∧ SubtractionFlags p q cin f (f.afterSum (sub8 p q cin)) := by
  have hp := p.isLt
  have hq := q.isLt
  refine ⟨sub8_result p q cin, ?_, ?_, ?_, ?_, rfl, rfl⟩
  · cases cin <;> simp [Flags.afterSum, sub8, add8] <;> omega
  · cases cin <;> simp [Flags.afterSum, sub8, add8] <;> omega
  · rw [← sub8_result]
    simp [Flags.afterSum, sub8, add8]
  · rw [toInt_byte, toInt_byte]
    simp only [Flags.afterSum, sub8, add8, xor_decide, complement_toNat]
    cases cin <;> simp only [Bool.toNat_true, Bool.toNat_false, Bool.not_true, Bool.not_false] <;>
      split <;> split <;> omega

/-- A left rotate moves every bit one place up and bit 7 to bit 0. -/
theorem rol_bit : ∀ (v : Byte) (k : Fin 8), (rol v).getLsbD k = v.getLsbD ((k + 7) % 8) := by decide

/-- A right rotate moves every bit one place down and bit 0 to bit 7. -/
theorem ror_bit : ∀ (v : Byte) (k : Fin 8), (ror v).getLsbD k = v.getLsbD ((k + 1) % 8) := by decide

/-- A left rotate through carry takes the old carry into bit 0. -/
theorem rolc_bit : ∀ (v : Byte) (c : Bool) (k : Fin 8),
    (rolc v c).getLsbD k = if k.val = 0 then c else v.getLsbD (k - 1) := by decide

/-- A right rotate through carry takes the old carry into bit 7. -/
theorem rorc_bit : ∀ (v : Byte) (c : Bool) (k : Fin 8),
    (rorc v c).getLsbD k = if k.val = 7 then c else v.getLsbD (k + 1) := by decide

/-- The nibble swap moves every bit four places. -/
theorem swapNibbles_bit : ∀ (v : Byte) (k : Fin 8), (swapNibbles v).getLsbD k = v.getLsbD ((k + 4) % 8) := by decide

theorem bitMask_bit : ∀ i k : Fin 8, (bitMask i).getLsbD k = decide (k = i) := by decide

/-- Clearing bit `i` changes bit `i` alone. -/
theorem clearBit_bit (v : Byte) (i k : Fin 8) : (clearBit v i).getLsbD k = (v.getLsbD k && !decide (k = i)) := by
  unfold clearBit
  rw [BitVec.getLsbD_and, BitVec.getLsbD_not, bitMask_bit]
  simp [k.isLt]

/-- Setting bit `i` changes bit `i` alone. -/
theorem setBit_bit (v : Byte) (i k : Fin 8) : (setBit v i).getLsbD k = (v.getLsbD k || decide (k = i)) := by
  unfold setBit
  rw [BitVec.getLsbD_or, bitMask_bit]

end Sys2Proof.Machine
end

