-- ==== Sys2Proof/Laws/Memory.lean ====
section
/-! SUPPORT. The two stores: a read after a write, and the canonical form, which every write keeps. -/

namespace Sys2Proof.Machine

@[simp] theorem lookup_nil {α : Type} (a : Nat) : lookup ([] : List (Nat × α)) a = none := rfl

/-- A read after a write of the same address gives what was written. -/
@[simp] theorem lookup_update_same {α : Type} (l : List (Nat × α)) (a : Nat) (v : α) : lookup (update l a v) a = some v := by
  induction l with
  | nil => simp [update, lookup]
  | cons p rest ih =>
    obtain ⟨k, w⟩ := p
    simp only [update]
    split
    · simp [lookup]
    · split
      · simp [lookup]
      · rename_i _ h
        simp [lookup, Ne.symm h, ih]

/-- A write leaves every other address alone. -/
theorem lookup_update_other {α : Type} (l : List (Nat × α)) (a b : Nat) (v : α) (h : a ≠ b) :
    lookup (update l a v) b = lookup l b := by
  induction l with
  | nil => simp [update, lookup, h]
  | cons p rest ih =>
    obtain ⟨k, w⟩ := p
    simp only [update]
    split
    · simp [lookup, h]
    · split
      · rename_i _ hk
        subst hk
        simp [lookup, h]
      · simp [lookup, ih]

theorem risingFrom_update {α : Type} (l : List (Nat × α)) (b a : Nat) (v : α) (h : risingFrom b l = true) (hb : b ≤ a) :
    risingFrom b (update l a v) = true := by
  induction l generalizing b with
  | nil => simp [update, risingFrom, hb]
  | cons p rest ih =>
    obtain ⟨k, w⟩ := p
    simp only [risingFrom, Bool.and_eq_true, decide_eq_true_eq] at h
    simp only [update]
    split
    · simp only [risingFrom, Bool.and_eq_true, decide_eq_true_eq]
      exact ⟨hb, by omega, h.2⟩
    · split
      · rename_i _ hk
        subst hk
        simp [risingFrom, h]
      · simp only [risingFrom, Bool.and_eq_true, decide_eq_true_eq]
        exact ⟨h.1, ih _ h.2 (by omega)⟩

/-- A write keeps the canonical form. -/
theorem rising_update {α : Type} (l : List (Nat × α)) (a : Nat) (v : α) (h : rising l = true) : rising (update l a v) = true :=
  risingFrom_update l 0 a v h (Nat.zero_le a)

theorem all_update {α : Type} (p : Nat → Bool) (l : List (Nat × α)) (a : Nat) (v : α)
    (h : (l.all fun cell => p cell.1) = true) (ha : p a = true) : ((update l a v).all fun cell => p cell.1) = true := by
  induction l with
  | nil => simp [update, ha]
  | cons c rest ih =>
    obtain ⟨k, w⟩ := c
    simp only [List.all_cons, Bool.and_eq_true] at h
    simp only [update]
    split
    · simp [ha, h]
    · split
      · simp [ha, h]
      · simp only [List.all_cons, Bool.and_eq_true]
        exact ⟨h.1, ih h.2⟩

/-- A write of a location that exists keeps the data memory well formed. -/
theorem Memory.wf_update (l : List Host.Cell) (a : Nat) (v : BitVec 8) (h : Memory.wf l = true) (ha : memKeyExists a = true) :
    Memory.wf (update l a v) = true := by
  simp only [Memory.wf, Bool.and_eq_true] at h ⊢
  exact ⟨rising_update l a v h.1, all_update memKeyExists l a v h.2 ha⟩

/-- Placing a program word keeps the program well formed. -/
theorem Rom.wf_update (l : List (Nat × Word)) (a : Nat) (v : Word) (h : Rom.wf l = true) (ha : a < 1024) :
    Rom.wf (update l a v) = true := by
  simp only [Rom.wf, Bool.and_eq_true] at h ⊢
  exact ⟨rising_update l a v h.1, all_update (fun k => decide (k < 1024)) l a v h.2 (by simpa using ha)⟩

theorem Memory.wf_nil : Memory.wf [] = true := rfl

/-- The data memory at reset is well formed. -/
theorem reset_memory_wf : Memory.wf State.reset.mem = true := rfl

/-- A RAM location of bank 0 exists as memory. -/
theorem memKeyExists_ramKey (e : Byte) (h1 : 0x60 ≤ e.toNat) (h2 : e.toNat < 0x80) : memKeyExists (ramKey e) = true := by
  simp only [memKeyExists, Bool.or_eq_true, Bool.and_eq_true, decide_eq_true_eq]
  unfold ramKey
  omega

/-- A location of the LCD display memory exists as memory. -/
theorem memKeyExists_lcdKey (e : Byte) (h1 : 0x40 ≤ e.toNat) (h2 : e.toNat ≤ 0x4D) : memKeyExists (lcdKey e) = true := by
  simp only [memKeyExists, Bool.or_eq_true, Bool.and_eq_true, decide_eq_true_eq]
  unfold lcdKey
  omega

end Sys2Proof.Machine
end

