-- ==== Sys2Proof/Laws/Ops.lean ====
section
/-! SUPPORT. The shared operations, once each: where an operand leads, which reads and writes are answered and with what
state, and what the stack does. -/

namespace Sys2Proof.Machine

/-! ## The map of bank 0 -/

/-- The one address of a location that is not RAM and not reserved. -/
def Location.address : Location → Option Byte
  | .mp0 => some 0x01
  | .mp1 => some 0x03
  | .bp => some 0x04
  | .acc => some 0x05
  | .pcl => some 0x06
  | .tblp => some 0x07
  | .tblh => some 0x08
  | .tbc => some 0x09
  | .status => some 0x0A
  | .intc => some 0x0B
  | .pa => some 0x12
  | .pac => some 0x13
  | .timer .ah => some 0x20
  | .timer .al => some 0x21
  | .timer .bh => some 0x23
  | .timer .bl => some 0x24
  | .tmrc => some 0x22
  | .adcr => some 0x25
  | .ram => none
  | .reserved => none

theorem locate_address_all : ∀ e : Byte, (locate e).address.all (· == e) = true := by decide

/-- A location that has one address stands at that address. -/
theorem locate_address (e : Byte) (l : Location) (x : Byte) (h : locate e = l) (hx : l.address = some x) : e = x := by
  have := locate_address_all e
  rw [h, hx] at this
  exact (by simpa using this : x = e).symm

theorem locate_ram_iff : ∀ e : Byte, locate e = .ram ↔ 0x60 ≤ e.toNat := by decide

/-! ## Resolution -/

@[simp] theorem resolve_advance (s : State) (m : DAddr) : resolve s.advance m = resolve s m := rfl

/-- A direct address leads to its own location of bank 0. -/
theorem resolve_direct (s : State) (m : DAddr) (h0 : m ≠ 0x00) (h2 : m ≠ 0x02) :
    resolve s m = .ok (.bank0 (m.setWidth 8)) := by
  unfold resolve
  rw [if_neg h0, if_neg h2]

theorem resolveBank0_ok (e : Byte) (t : Target) (h : resolveBank0 e = .ok t) :
    e.toNat < 0x80 ∧ (t = .self ∧ (e = 0x00 ∨ e = 0x02) ∨ t = .bank0 e ∧ e ≠ 0x00 ∧ e ≠ 0x02) := by
  unfold resolveBank0 at h
  split at h
  · cases h
  · split at h
    · rename_i h1 h2
      cases h
      exact ⟨by omega, .inl ⟨rfl, h2⟩⟩
    · rename_i h1 h2
      cases h
      exact ⟨by omega, .inr ⟨rfl, fun h => h2 (.inl h), fun h => h2 (.inr h)⟩⟩

theorem resolveBank1_ok (e : Byte) (t : Target) (h : resolveBank1 e = .ok t) :
    t = .lcd e ∧ 0x40 ≤ e.toNat ∧ e.toNat ≤ 0x4D := by
  unfold resolveBank1 at h
  split at h
  · cases h
  · split at h
    · rename_i h1 h2
      cases h
      exact ⟨rfl, h2⟩
    · cases h

theorem setWidth_facts : ∀ m : DAddr, m ≠ 0x00 → m ≠ 0x02 →
    (m.setWidth 8).toNat < 0x80 ∧ m.setWidth 8 ≠ (0x00 : Byte) ∧ m.setWidth 8 ≠ (0x02 : Byte) := by decide

/-- Where a resolved operand can lead. -/
theorem resolve_ok (s : State) (m : DAddr) (t : Target) (h : resolve s m = .ok t) :
    t = .self ∨ (∃ e, t = .lcd e ∧ 0x40 ≤ e.toNat ∧ e.toNat ≤ 0x4D) ∨
      ∃ e, t = .bank0 e ∧ e.toNat < 0x80 ∧ e ≠ 0x00 ∧ e ≠ 0x02 := by
  have bank0 : ∀ e, resolveBank0 e = .ok t → t = .self ∨ ∃ e, t = .bank0 e ∧ e.toNat < 0x80 ∧ e ≠ 0x00 ∧ e ≠ 0x02 := by
    intro e he
    obtain ⟨h80, ⟨rfl, _⟩ | ⟨rfl, hn⟩⟩ := resolveBank0_ok e t he
    · exact .inl rfl
    · exact .inr ⟨e, rfl, h80, hn⟩
  unfold resolve at h
  split at h
  · rcases bank0 _ h with h | h
    · exact .inl h
    · exact .inr (.inr h)
  · rename_i h0
    split at h
    · split at h
      · rcases bank0 _ h with h | h
        · exact .inl h
        · exact .inr (.inr h)
      · split at h
        · exact .inr (.inl ⟨_, resolveBank1_ok _ _ h⟩)
        · cases h
    · rename_i h2
      cases h
      exact .inr (.inr ⟨_, rfl, setWidth_facts m h0 h2⟩)

/-- The data-memory byte a resolved operand leads to exists. -/
theorem resolve_memKey (s : State) (m : DAddr) (t : Target) (k : Nat) (h : resolve s m = .ok t) (hk : t.memKey = some k) :
    memKeyExists k = true := by
  rcases resolve_ok s m t h with rfl | ⟨e, rfl, h1, h2⟩ | ⟨e, rfl, h1, _⟩
  · cases hk
  · cases hk
    exact memKeyExists_lcdKey e h1 h2
  · unfold Target.memKey at hk
    dsimp only at hk
    split at hk
    · cases hk
      exact memKeyExists_ramKey e (by assumption) h1
    · cases hk

/-! ## Reads -/

theorem readCell_state (key : Nat) (s : State) : ∃ d, (readCell key s).2 = { s with draws := d } := by
  unfold readCell drawByte
  split
  · exact ⟨_, rfl⟩
  · exact ⟨_, rfl⟩

theorem readAdcr_state (s : State) : ∃ d, (readAdcr s).2 = { s with draws := d } := by
  unfold readAdcr drawBit
  split
  · exact ⟨_, rfl⟩
  · exact ⟨_, rfl⟩

theorem bufferByte_state (tag : BufSource) (s : State) : ∃ d, (bufferByte tag s).2 = { s with draws := d } := by
  unfold bufferByte drawByte
  split
  · exact ⟨_, rfl⟩
  · exact ⟨_, rfl⟩

theorem bufferByte_match (tag : BufSource) (s : State) (h : s.timer.src = tag) : bufferByte tag s = (s.timer.lbuf, s) := by
  simp [bufferByte, h]

/-- A read of a timer location changes the low byte buffer, its tag, and the number of draws at most; a read of a low byte
location changes the number of draws at most. -/
theorem timerRead_state (a : Access) (p : TimerPort) (v : Byte) (s s' : State) (h : timerRead a p s = .ok (v, s')) :
    (∃ b tag, s' = { s with timer := { s.timer with lbuf := b, src := tag } } ∧ (p = .ah ∨ p = .bh)) ∨
      ((∃ d, s' = { s with draws := d }) ∧ (p = .al ∨ p = .bl)) := by
  cases a with
  | other => cases h
  | mov =>
    have hA := bufferByte_state .rdA s
    have hB := bufferByte_state .rdB s
    unfold timerRead at h
    dsimp only at h
    split at h
    · split at h
      · cases h
      · cases p <;> injection h with h <;> (try rw [Prod.ext_iff] at h) <;> dsimp only at h <;> obtain ⟨_, rfl⟩ := h
        · exact .inl ⟨_, _, rfl, .inl rfl⟩
        · exact .inr ⟨hA, .inl rfl⟩
        · exact .inl ⟨_, _, rfl, .inr rfl⟩
        · exact .inr ⟨hB, .inr rfl⟩
    · cases p
      · injection h with h
        rw [Prod.ext_iff] at h
        obtain ⟨_, rfl⟩ := h
        exact .inl ⟨_, _, rfl, .inl rfl⟩
      · injection h with h
        rw [Prod.ext_iff] at h
        obtain ⟨_, rfl⟩ := h
        exact .inr ⟨hA, .inl rfl⟩
      · cases h
      · cases h

/-- A read changes nothing but the number of draws, unless it is a MOV that reads TMRAH or TMRBH. -/
theorem memRead_state (a : Access) (t : Target) (v : Byte) (s s' : State) (h : memRead a t s = .ok (v, s')) :
    (∃ d, s' = { s with draws := d }) ∨
      (a = .mov ∧ (t = .bank0 0x20 ∨ t = .bank0 0x23) ∧
        ∃ b tag, s' = { s with timer := { s.timer with lbuf := b, src := tag } }) := by
  cases t with
  | self =>
    cases h
    exact .inl ⟨_, rfl⟩
  | lcd e =>
    obtain ⟨d, hd⟩ := readCell_state (lcdKey e) s
    injection h with h
    rw [h] at hd
    exact .inl ⟨d, hd⟩
  | bank0 e =>
    simp only [memRead, locRead] at h
    revert h
    cases hl : locate e with
    | ram =>
      intro h
      obtain ⟨d, hd⟩ := readCell_state (ramKey e) s
      injection h with h
      rw [h] at hd
      exact .inl ⟨d, hd⟩
    | adcr =>
      intro h
      obtain ⟨d, hd⟩ := readAdcr_state s
      injection h with h
      rw [h] at hd
      exact .inl ⟨d, hd⟩
    | timer p =>
      intro h
      have ha : a = .mov := by
        cases a with
        | mov => rfl
        | other => cases h
      rcases timerRead_state a p v s s' h with ⟨b, tag, hs, rfl | rfl⟩ | ⟨hd, _⟩
      · exact .inr ⟨ha, .inl (by rw [locate_address e _ _ hl rfl]), b, tag, hs⟩
      · exact .inr ⟨ha, .inr (by rw [locate_address e _ _ hl rfl]), b, tag, hs⟩
      · exact .inl hd
    | _ =>
      intro h
      cases h
      exact .inl ⟨_, rfl⟩

/-- A read by an instruction other than MOV changes the number of draws at most. -/
theorem memRead_other_state (t : Target) (v : Byte) (s s' : State) (h : memRead .other t s = .ok (v, s')) :
    ∃ d, s' = { s with draws := d } := by
  rcases memRead_state _ t v s s' h with h | ⟨h, _⟩
  · exact h
  · cases h

theorem not_timerLocation_of_locate (e : Byte) (h : ∀ p, locate e ≠ .timer p) : ¬TimerLocation (.bank0 e) := by
  rintro (h1 | h1 | h1 | h1) <;> injection h1 with h1 <;> subst h1
  · exact h .ah rfl
  · exact h .al rfl
  · exact h .bh rfl
  · exact h .bl rfl

theorem timerLocation_of_locate (e : Byte) (p : TimerPort) (h : locate e = .timer p) : TimerLocation (.bank0 e) := by
  cases p <;> rw [locate_address e _ _ h rfl]
  · exact .inl rfl
  · exact .inr (.inl rfl)
  · exact .inr (.inr (.inl rfl))
  · exact .inr (.inr (.inr rfl))

/-- A read is answered exactly where the spec gives it an effect. -/
theorem memRead_answers_iff (a : Access) (t : Target) (s : State) : (∃ p, memRead a t s = .ok p) ↔ ReadAccepted a t s := by
  cases t with
  | self => exact Iff.intro (fun _ e h => by cases h) (fun _ => ⟨_, rfl⟩)
  | lcd e => exact Iff.intro (fun _ e h => by cases h) (fun _ => ⟨_, rfl⟩)
  | bank0 e =>
    simp only [memRead, locRead]
    cases hl : locate e with
    | timer p =>
      have ht := timerLocation_of_locate e p hl
      obtain ⟨x, hx⟩ : ∃ x, (Location.timer p).address = some x := by cases p <;> exact ⟨_, rfl⟩
      have he := locate_address e _ _ hl hx
      dsimp only
      constructor
      · rintro ⟨q, hq⟩ e' he' _
        cases he'
        cases a with
        | other => cases hq
        | mov =>
          refine ⟨rfl, ?_⟩
          unfold TimerReadable
          unfold timerRead at hq
          dsimp only at hq
          split
          · rename_i hadc
            rw [if_pos hadc] at hq
            split at hq
            · cases hq
            · rename_i hton
              exact Bool.eq_false_iff.mpr hton
          · rename_i hadc
            rw [if_neg hadc] at hq
            cases p <;> cases hx <;> subst he <;> simp_all
      · intro h
        obtain ⟨rfl, hr⟩ := h e rfl ht
        unfold TimerReadable at hr
        unfold timerRead
        dsimp only
        split
        · rename_i hadc
          rw [if_pos hadc] at hr
          rw [hr]
          cases p <;> exact ⟨_, rfl⟩
        · rename_i hadc
          rw [if_neg hadc] at hr
          cases p <;> cases hx <;> subst he <;> simp_all
    | _ =>
      refine ⟨fun _ e' he' ht => ?_, fun _ => ⟨_, rfl⟩⟩
      cases he'
      exact absurd ht (not_timerLocation_of_locate e (by simp [hl]))

end Sys2Proof.Machine
end

