-- ==== Sys2Proof/Laws/Writes.lean ====
section
/-! SUPPORT. A write of a resolved operand, once: when it is answered, what it leaves at the location, and what it leaves
alone. -/

namespace Sys2Proof.Machine

theorem loadTa_state (v : Byte) (s : State) : ∃ tm d, loadTa v s = { s with timer := tm, draws := d } := by
  obtain ⟨d, hd⟩ := bufferByte_state .wrA s
  unfold loadTa
  dsimp only
  rw [hd]
  exact ⟨_, _, rfl⟩

theorem loadTb_state (v : Byte) (s : State) : ∃ tm d, loadTb v s = { s with timer := tm, draws := d } := by
  obtain ⟨d, hd⟩ := bufferByte_state .wrB s
  unfold loadTb
  dsimp only
  rw [hd]
  exact ⟨_, _, rfl⟩

theorem loadTbAndTa_state (v : Byte) (s : State) : ∃ tm d, loadTbAndTa v s = { s with timer := tm, draws := d } := by
  obtain ⟨d, hd⟩ := bufferByte_state .wrB s
  unfold loadTbAndTa
  dsimp only
  rw [hd]
  exact ⟨_, _, rfl⟩

/-- A write of a timer location changes what stands behind it and the number of draws at most. -/
theorem timerWrite_state (a : Access) (p : TimerPort) (v : Byte) (s s' : State) (h : timerWrite a p v s = .ok s') :
    ∃ tm d, s' = { s with timer := tm, draws := d } := by
  cases a with
  | other => cases h
  | mov =>
    unfold timerWrite at h
    dsimp only at h
    split at h
    · split at h
      · cases h
      · cases p <;> cases h
        · exact loadTa_state v s
        · exact ⟨_, _, rfl⟩
        · exact loadTb_state v s
        · exact ⟨_, _, rfl⟩
    · cases p <;> cases h
      · split
        · exact loadTb_state v s
        · exact loadTbAndTa_state v s
      · exact ⟨_, _, rfl⟩

/-- A write of TMRC that is answered. -/
theorem writeTmrc_state (v : Byte) (s s' : State) (h : writeTmrc v s = .ok s') :
    s' = { s with tmrc := Tmrc.ofByte v, timer := armPulse s.tmrc (Tmrc.ofByte v) s.adcr s.timer } ∧
      countMode (Tmrc.ofByte v) s.adcr ≠ .unused := by
  unfold writeTmrc at h
  dsimp only at h
  split at h
  · cases h
  · split at h
    · cases h
    · cases h
      exact ⟨rfl, by assumption⟩

/-- A write of ADCR that is answered. -/
theorem writeAdcr_state (v : Byte) (s s' : State) (h : writeAdcr v s = .ok s') :
    s' = { s with adcr := s.adcr.written v } ∧ (s.tmrc.ton = true → (s.adcr.written v).adc = s.adcr.adc) := by
  unfold writeAdcr at h
  dsimp only at h
  split at h
  · cases h
  · rename_i hc
    cases h
    refine ⟨rfl, fun ht => ?_⟩
    simpa [ht] using hc

theorem answers_guard_iff {α β : Type} (c : Prop) [Decidable c] (r : α) (x : Except α β) :
    (∃ y, (if c then .error r else x) = Except.ok y) ↔ ¬c ∧ ∃ y, x = .ok y := by
  split <;> simp_all

theorem tmrc_guards_iff : ∀ ton tm1 tm0 te adc b3 b4 b5 b6 : Bool,
    (¬(ton && b4 && !(b6 == tm1 && b5 == tm0 && b3 == te)) = true ∧
      ¬(if b4 = true then selectedMode adc b6 b5 else .off) = CountMode.unused) ↔
    ((ton = true → b4 = true → b6 = tm1 ∧ b5 = tm0 ∧ b3 = te) ∧
      (b4 = true → ¬(b6 = false ∧ b5 = false) ∧ (adc = true → ¬(b6 = true ∧ b5 = true)))) := by
  intro ton tm1 tm0 te adc b3 b4 b5 b6
  cases b4
  · simp
  · cases adc <;> cases b5 <;> cases b6 <;> cases ton <;> simp [selectedMode, and_assoc]

/-- TMRC answers a write exactly where the spec gives it an effect. -/
theorem writeTmrc_answers_iff (v : Byte) (s : State) : (∃ s', writeTmrc v s = .ok s') ↔ TmrcAccepts s v := by
  unfold writeTmrc
  dsimp only
  rw [answers_guard_iff, answers_guard_iff]
  have h := tmrc_guards_iff s.tmrc.ton s.tmrc.tm1 s.tmrc.tm0 s.tmrc.te s.adcr.adc (v.getLsbD 3) (v.getLsbD 4)
    (v.getLsbD 5) (v.getLsbD 6)
  exact ⟨fun ⟨h1, h2, _⟩ => h.mp ⟨h1, h2⟩, fun ha => ⟨(h.mpr ha).1, (h.mpr ha).2, _, rfl⟩⟩

theorem adcr_guard_iff : ∀ ton adc b1 : Bool, ¬(ton && !(b1 == adc)) = true ↔ (ton = true → b1 = adc) := by decide

/-- ADCR answers a write exactly where the spec gives it an effect. -/
theorem writeAdcr_answers_iff (v : Byte) (s : State) : (∃ s', writeAdcr v s = .ok s') ↔ AdcrAccepts s v := by
  unfold writeAdcr
  dsimp only
  rw [answers_guard_iff]
  have h := adcr_guard_iff s.tmrc.ton s.adcr.adc (v.getLsbD 1)
  exact ⟨fun ⟨h1, _⟩ => h.mp h1, fun ha => ⟨h.mpr ha, _, rfl⟩⟩

theorem timerWrite_answers_iff (a : Access) (p : TimerPort) (e v : Byte) (s : State) (he : locate e = .timer p) :
    (∃ s', timerWrite a p v s = .ok s') ↔ a = .mov ∧ TimerWritable s e := by
  obtain ⟨x, hx⟩ : ∃ x, (Location.timer p).address = some x := by cases p <;> exact ⟨_, rfl⟩
  have hl := locate_address e _ _ he hx
  cases a with
  | other => exact Iff.intro (fun ⟨_, h⟩ => (by cases h)) (fun ⟨h, _⟩ => (by cases h))
  | mov =>
    unfold timerWrite TimerWritable
    dsimp only
    by_cases hadc : s.adcr.adc = true
    · rw [if_pos hadc, if_pos hadc]
      by_cases hton : s.tmrc.ton = true
      · rw [if_pos hton]
        simp [hton]
      · rw [if_neg hton]
        have hton := Bool.eq_false_iff.mpr hton
        cases p <;> exact ⟨fun _ => ⟨rfl, hton⟩, fun _ => ⟨_, rfl⟩⟩
    · rw [if_neg hadc, if_neg hadc]
      cases p <;> cases hx <;> subst hl <;> simp

/-- A write is answered exactly where the spec gives it an effect. -/
theorem memWrite_answers_iff (a : Access) (t : Target) (v : Byte) (s : State) :
    (∃ s', memWrite a t v s = .ok s') ↔ WriteAccepted a t v s := by
  cases t with
  | self => exact Iff.intro (fun _ => ⟨fun e h => (by cases h), fun h => (by cases h), fun h => (by cases h)⟩) (fun _ => ⟨_, rfl⟩)
  | lcd e => exact Iff.intro (fun _ => ⟨fun e h => (by cases h), fun h => (by cases h), fun h => (by cases h)⟩) (fun _ => ⟨_, rfl⟩)
  | bank0 e =>
    simp only [memWrite, locWrite]
    cases hl : locate e with
    | timer p =>
      dsimp only
      rw [timerWrite_answers_iff a p e v s hl]
      have ht := timerLocation_of_locate e p hl
      constructor
      · intro h
        refine ⟨fun e' he' _ => by cases he'; exact h, fun h22 => ?_, fun h25 => ?_⟩
        · cases h22
          cases hl
        · cases h25
          cases hl
      · intro h
        exact h.1 e rfl ht
    | tmrc =>
      dsimp only
      rw [writeTmrc_answers_iff]
      have he := locate_address e _ _ hl rfl
      subst he
      exact ⟨fun h => ⟨fun e' he' ht => absurd (he' ▸ ht) (by rw [← he']; exact not_timerLocation_of_locate _ (by rw [hl]; simp)),
        fun _ => h, fun h25 => (by cases h25)⟩, fun h => h.2.1 rfl⟩
    | adcr =>
      dsimp only
      rw [writeAdcr_answers_iff]
      have he := locate_address e _ _ hl rfl
      subst he
      exact ⟨fun h => ⟨fun e' he' ht => absurd (he' ▸ ht) (by rw [← he']; exact not_timerLocation_of_locate _ (by rw [hl]; simp)),
        fun h22 => (by cases h22), fun _ => h⟩, fun h => h.2.2 rfl⟩
    | _ =>
      refine ⟨fun _ => ⟨fun e' he' ht => ?_, fun h22 => ?_, fun h25 => ?_⟩, fun _ => ⟨_, rfl⟩⟩
      · cases he'
        exact absurd ht (not_timerLocation_of_locate e (by simp [hl]))
      · cases h22
        cases hl
      · cases h25
        cases hl

/-! ## What a write leaves alone -/

theorem keptBut_of_eq (t : Target) (s0 s2 : State) (f : Flags) (d : Nat)
    (h : s2 = { s0 with pc := s0.pc + 1, flags := f, draws := d }) : KeptBut t s0 s2 := by
  subst h
  constructor <;> intros <;>
    first | rfl | exact ⟨rfl, rfl, rfl⟩ | exact ⟨rfl, rfl, rfl, rfl, rfl⟩ | exact ⟨rfl, rfl, rfl, rfl, rfl, rfl⟩ | (intro _ _; rfl)

theorem writeCell_kept (t : Target) (k : Nat) (ht : t.memKey = some k) (v : Byte) (s0 s1 : State) (d : Nat)
    (h1 : s1 = { s0 with pc := s0.pc + 1, draws := d }) : KeptBut t s0 (writeCell k v s1) := by
  subst h1
  constructor <;> intros <;>
    first | rfl | exact ⟨rfl, rfl, rfl⟩ | exact ⟨rfl, rfl, rfl, rfl, rfl⟩ | exact ⟨rfl, rfl, rfl, rfl, rfl, rfl⟩ | skip
  intro x hx
  rw [ht] at hx
  exact lookup_update_other _ _ _ _ (fun e => hx (by rw [e]))

theorem memKey_of_not_ram (e : Byte) (h : locate e ≠ .ram) : (Target.bank0 e).memKey = none := by
  have : ¬0x60 ≤ e.toNat := fun h60 => h ((locate_ram_iff e).mpr h60)
  simp [Target.memKey, this]

/-- A write that is answered leaves everything but its location alone. `s0` is the state the instruction began in. -/
theorem memWrite_kept (a : Access) (t : Target) (v : Byte) (s0 s1 s2 : State) (d : Nat)
    (h1 : s1 = { s0 with pc := s0.pc + 1, draws := d }) (h : memWrite a t v s1 = .ok s2) : KeptBut t s0 s2 := by
  cases t with
  | self =>
    cases h
    exact keptBut_of_eq _ _ _ _ _ h1
  | lcd e =>
    cases h
    exact writeCell_kept _ _ rfl _ _ _ _ h1
  | bank0 e =>
    have he := locate_address e
    simp only [memWrite, locWrite] at h
    revert h
    cases hl : locate e with
    | ram =>
      intro h
      cases h
      exact writeCell_kept _ _ (by simp [Target.memKey, (locate_ram_iff e).mp hl]) _ _ _ _ h1
    | timer p =>
      intro h
      obtain ⟨tm, d, rfl⟩ := timerWrite_state _ _ _ _ _ h
      have ht := timerLocation_of_locate e p hl
      subst h1
      cases p <;> replace he := he _ _ hl rfl <;> subst he <;>
        (constructor <;> intros <;>
          first | rfl | exact ⟨rfl, rfl, rfl⟩ | exact ⟨rfl, rfl, rfl, rfl, rfl⟩ | exact ⟨rfl, rfl, rfl, rfl, rfl, rfl⟩ | (intro _ _; rfl) | contradiction)
    | tmrc =>
      intro h
      replace he := he _ _ hl rfl
      subst he
      obtain ⟨h2, _⟩ := writeTmrc_state _ _ _ h
      subst h1 h2
      constructor <;> intros <;>
        first | rfl | exact ⟨rfl, rfl, rfl⟩ | exact ⟨rfl, rfl, rfl, rfl, rfl⟩ | exact ⟨rfl, rfl, rfl, rfl, rfl, rfl⟩ | (intro _ _; rfl) | contradiction
    | adcr =>
      intro h
      replace he := he _ _ hl rfl
      subst he
      obtain ⟨h2, _⟩ := writeAdcr_state _ _ _ h
      subst h1 h2
      constructor <;> intros <;>
        first | rfl | exact ⟨rfl, rfl, rfl⟩ | exact ⟨rfl, rfl, rfl, rfl, rfl⟩ | exact ⟨rfl, rfl, rfl, rfl, rfl, rfl⟩ | (intro _ _; rfl) | contradiction
    | tblh =>
      intro h
      cases h
      exact keptBut_of_eq _ _ _ _ _ h1
    | reserved =>
      intro h
      cases h
      exact keptBut_of_eq _ _ _ _ _ h1
    | _ =>
      intro h
      cases h
      subst h1
      replace he := he _ _ hl rfl
      subst he
      constructor <;> intros <;>
        first | rfl | exact ⟨rfl, rfl, rfl⟩ | exact ⟨rfl, rfl, rfl, rfl, rfl⟩ | exact ⟨rfl, rfl, rfl, rfl, rfl, rfl⟩ | (intro _ _; rfl) | contradiction

/-! ## What a write leaves at its location -/

theorem armPulse_eq : ∀ (old new : Tmrc) (a : Adcr) (t : Timer),
    armPulse old new a t =
      if old.ton = false ∧ new.ton = true ∧ new.tm0 = true ∧ new.tm1 = true ∧ a.adc = false then
        { t with pwArmed := true, pwRun := false }
      else t := by
  intro old new a t
  obtain ⟨te, ton, tm0, tm1⟩ := old
  obtain ⟨te', ton', tm0', tm1'⟩ := new
  obtain ⟨ovb, adc, mode, bon, blf⟩ := a
  cases ton <;> cases ton' <;> cases tm0' <;> cases tm1' <;> cases adc <;> rfl

/-- A write that is answered leaves at its location what the spec stores there. -/
theorem memWrite_written (a : Access) (t : Target) (v : Byte) (s0 s1 s2 : State) (d : Nat)
    (h1 : s1 = { s0 with pc := s0.pc + 1, draws := d }) (h : memWrite a t v s1 = .ok s2) : Written t v s0 s2 := by
  cases t with
  | self => constructor <;> intros <;> contradiction
  | lcd e =>
    cases h
    constructor <;> intros <;> first | contradiction | skip
    rename_i k hk
    cases hk
    exact lookup_update_same _ _ _
  | bank0 e =>
    have he := locate_address e
    simp only [memWrite, locWrite] at h
    revert h
    cases hl : locate e with
    | ram =>
      intro h
      cases h
      have h60 := (locate_ram_iff e).mp hl
      have hk : (Target.bank0 e).memKey = some (ramKey e) := by simp [Target.memKey, h60]
      constructor
      · intro k hk'
        rw [hk] at hk'
        cases hk'
        exact lookup_update_same _ _ _
      all_goals
        intro hc
        injection hc with hc
        subst hc
        cases hl
    | timer p =>
      intro h
      have hk := memKey_of_not_ram e (by simp [hl])
      constructor
      · intro k hk'
        rw [hk] at hk'
        cases hk'
      all_goals
        intro hc
        injection hc with hc
        subst hc
        cases hl
    | tmrc =>
      intro h
      replace he := he _ _ hl rfl
      subst he
      obtain ⟨h2, _⟩ := writeTmrc_state _ _ _ h
      subst h1 h2
      constructor <;> intros <;> first | rfl | contradiction | exact armPulse_eq _ _ _ _
    | adcr =>
      intro h
      replace he := he _ _ hl rfl
      subst he
      obtain ⟨h2, _⟩ := writeAdcr_state _ _ _ h
      subst h1 h2
      constructor <;> intros <;> first | rfl | contradiction
    | reserved =>
      intro h
      have hk := memKey_of_not_ram e (by simp [hl])
      constructor
      · intro k hk'
        rw [hk] at hk'
        cases hk'
      all_goals
        intro hc
        injection hc with hc
        subst hc
        cases hl
    | _ =>
      intro h
      cases h
      subst h1
      replace he := he _ _ hl rfl
      subst he
      constructor <;> intros <;> first | rfl | contradiction

/-- The flags after a write that is answered: those of STATUS where STATUS is the location, else as before. -/
theorem memWrite_flags (a : Access) (t : Target) (v : Byte) (s1 s2 : State) (h : memWrite a t v s1 = .ok s2) :
    StatusWritten t v s1.flags s2.flags := by
  unfold StatusWritten
  cases t with
  | self =>
    cases h
    rfl
  | lcd e =>
    cases h
    rfl
  | bank0 e =>
    have he := locate_address e
    simp only [memWrite, locWrite] at h
    revert h
    cases hl : locate e with
    | ram =>
      intro h
      cases h
      rw [if_neg (fun hc => by injection hc with hc; subst hc; cases hl)]
      rfl
    | timer p =>
      intro h
      obtain ⟨tm, d, rfl⟩ := timerWrite_state _ _ _ _ _ h
      rw [if_neg (fun hc => by injection hc with hc; subst hc; cases hl)]
    | tmrc =>
      intro h
      obtain ⟨rfl, _⟩ := writeTmrc_state _ _ _ h
      rw [if_neg (fun hc => by injection hc with hc; subst hc; cases hl)]
    | adcr =>
      intro h
      obtain ⟨rfl, _⟩ := writeAdcr_state _ _ _ h
      rw [if_neg (fun hc => by injection hc with hc; subst hc; cases hl)]
    | status =>
      intro h
      cases h
      replace he := he _ _ hl rfl
      subst he
      rfl
    | _ =>
      intro h
      cases h
      rw [if_neg (fun hc => by injection hc with hc; subst hc; cases hl)]

end Sys2Proof.Machine
end

