-- ==== Sys2Proof/Laws/Operands.lean ====
section
/-! SUPPORT. The operand forms of Operands.lean, once each: what every instruction of a form does when its operand can be
read and its result written. -/

namespace Sys2Proof.Machine

theorem KeptBut.withFlags {t : Target} {s s' : State} (h : KeptBut t s s') (f : Flags) : KeptBut t s { s' with flags := f } :=
  ⟨h.acc, h.mp0, h.mp1, h.bp, h.pc, h.tblp, h.tblh, h.rt, h.intc, h.latch, h.pac, h.pads, h.tmrc, h.adcr, h.timer, h.mem,
    h.stack, h.devices, h.model⟩

theorem Written.withFlags {t : Target} {v : Byte} {s s' : State} (h : Written t v s s') (f : Flags) :
    Written t v s { s' with flags := f } :=
  ⟨h.mem, h.acc, h.mp0, h.mp1, h.bp, h.pcl, h.tblp, h.rt, h.intc, h.latch, h.pac, h.tmrc, h.adcr, h.pulse⟩

/-- An operand can be read wherever it resolves and the spec gives the read an effect. -/
theorem operand_of_accepted (a : Access) (m : DAddr) (s : State) (t : Target) (h : resolve s m = .ok t)
    (ha : ReadAccepted a t s) : ∃ v, Operand a m s t v := by
  obtain ⟨⟨v, s1⟩, hp⟩ := (memRead_answers_iff a t s.advance).mpr ha
  exact ⟨v, h, s1, hp⟩

/-- An operand read by an instruction other than MOV: the state it is read in is the advanced one, but for the draws. -/
theorem operand_read (m : DAddr) (s : State) (t : Target) (v : Byte) (h : Operand .other m s t v) :
    ∃ d, memRead .other t s.advance = .ok (v, { s with pc := s.pc + 1, draws := d }) := by
  obtain ⟨_, s1, h1⟩ := h
  obtain ⟨d, hd⟩ := memRead_other_state _ _ _ _ h1
  subst hd
  exact ⟨d, h1⟩

/-- The read-only form. -/
theorem readingOp_operand (m : DAddr) (s : State) (t : Target) (v : Byte) (h : Operand .other m s t v) :
    ∃ d, ∀ k, readingOp m s k = k v { s with pc := s.pc + 1, draws := d } := by
  obtain ⟨d, hd⟩ := operand_read m s t v h
  refine ⟨d, fun k => ?_⟩
  simp only [readingOp, withTarget, withRead, resolve_advance, h.1, hd]

theorem isStatus_iff (t : Target) : t.isStatus = true ↔ t = .bank0 0x0A := by simp [Target.isStatus]

theorem isPcl_iff (t : Target) : t.isPcl = true ↔ t = .bank0 0x06 := by simp [Target.isPcl]

/-- The read-modify-write form that writes flags of its own. -/
theorem modifyWithFlags_completes (m : DAddr) (result : Byte → State → Byte) (flags : Byte → State → Flags) (s : State)
    (t : Target) (v r : Byte) (f : Flags) (h : Operand .other m s t v) (hst : t ≠ .bank0 0x0A)
    (hr : ∀ d, result v { s with pc := s.pc + 1, draws := d } = r)
    (hf : ∀ d, flags v { s with pc := s.pc + 1, draws := d } = f) (hw : WriteAccepted .other t r s) :
    ∃ s', modifyWithFlags m result flags s = .next s' ∧ Written t r s s' ∧ KeptBut t s s' ∧ s'.flags = f := by
  obtain ⟨d, hd⟩ := operand_read m s t v h
  obtain ⟨s2, h2⟩ := (memWrite_answers_iff .other t r { s with pc := s.pc + 1, draws := d }).mpr hw
  refine ⟨{ s2 with flags := f }, ?_, (memWrite_written _ _ _ _ _ _ _ rfl h2).withFlags f,
    (memWrite_kept _ _ _ _ _ _ _ rfl h2).withFlags f, rfl⟩
  have hst' : t.isStatus = false := Bool.eq_false_iff.mpr (fun hc => hst ((isStatus_iff t).mp hc))
  simp only [modifyWithFlags, withTarget, withRead, withWrite, resolve_advance, h.1, hd, hst', hr, hf, h2]
  rfl

/-- The read-modify-write form that writes no flag of its own. -/
theorem plainToMem_completes (m : DAddr) (g : Byte → Byte) (s : State) (t : Target) (v : Byte)
    (h : Operand .other m s t v) (hw : WriteAccepted .other t (g v) s) :
    ∃ s', plainToMem m g s = .next s' ∧ Written t (g v) s s' ∧ KeptBut t s s' ∧
      StatusWritten t (g v) s.flags s'.flags := by
  obtain ⟨d, hd⟩ := operand_read m s t v h
  obtain ⟨s2, h2⟩ := (memWrite_answers_iff .other t (g v) { s with pc := s.pc + 1, draws := d }).mpr hw
  have hfl := memWrite_flags _ _ _ _ _ h2
  refine ⟨s2, ?_, memWrite_written _ _ _ _ _ _ _ rfl h2, memWrite_kept _ _ _ _ _ _ _ rfl h2, hfl⟩
  simp only [plainToMem, withTarget, withRead, withWrite, resolve_advance, h.1, hd, h2]

/-- The form that writes its operand without reading it. -/
theorem storeOnly_completes (a : Access) (m : DAddr) (g : State → Byte) (s : State) (t : Target) (v : Byte)
    (h : resolve s m = .ok t) (hv : g s.advance = v) (hw : WriteAccepted a t v s) :
    ∃ s', storeOnly a m g s = .next s' ∧ memWrite a t v s.advance = .ok s' ∧ Written t v s s' ∧ KeptBut t s s' ∧
      StatusWritten t v s.flags s'.flags := by
  obtain ⟨s2, h2⟩ := (memWrite_answers_iff a t v s.advance).mpr hw
  have hfl := memWrite_flags _ _ _ _ _ h2
  refine ⟨s2, ?_, h2, memWrite_written _ _ _ _ _ _ s.draws rfl h2, memWrite_kept _ _ _ _ _ _ s.draws rfl h2,
    hfl⟩
  simp only [storeOnly, withTarget, withWrite, resolve_advance, h, hv, h2]

/-- SIZ and SDZ, without the skip. -/
theorem memAndSkip_completes (m : DAddr) (g : Byte → Byte) (s : State) (t : Target) (v : Byte)
    (h : Operand .other m s t v) (hp : t ≠ .bank0 0x06) (hw : WriteAccepted .other t (g v) s) :
    ∃ s', memAndSkip m g s = .next (s'.skipIf (g v == 0)) ∧ Written t (g v) s s' ∧ KeptBut t s s' ∧
      StatusWritten t (g v) s.flags s'.flags := by
  obtain ⟨d, hd⟩ := operand_read m s t v h
  obtain ⟨s2, h2⟩ := (memWrite_answers_iff .other t (g v) { s with pc := s.pc + 1, draws := d }).mpr hw
  have hfl := memWrite_flags _ _ _ _ _ h2
  refine ⟨s2, ?_, memWrite_written _ _ _ _ _ _ _ rfl h2, memWrite_kept _ _ _ _ _ _ _ rfl h2, hfl⟩
  have hp' : t.isPcl = false := Bool.eq_false_iff.mpr (fun hc => hp ((isPcl_iff t).mp hc))
  simp only [memAndSkip, withTarget, withRead, withWrite, resolve_advance, h.1, hd, hp', h2]
  rfl

/-- Whatever form an instruction has, an operand that does not resolve is its fault. -/
theorem withTarget_fault (m : DAddr) (s : State) (k : Target → State → Result) (f : Fault) (h : resolve s m = .error f) :
    withTarget m s k = .fault f := by
  simp only [withTarget, resolve_advance, h]

end Sys2Proof.Machine
end

