-- ==== Sys2Proof/Laws/Instructions.lean ====
section
/-! SUPPORT. What every instruction keeps, shown once for each operand form and then for every instruction: the lemma that a
statement about all instructions cites instead of unfolding `exec`. -/

namespace Sys2Proof.Machine

open Sys2Proof

/-- What is so after every instruction but HALT. -/
structure InstrKept (s s1 : State) : Prop where
  memory : Memory.wf s.mem = true → Memory.wf s1.mem = true
  fixed : s1.rom = s.rom ∧ s1.par = s.par ∧ s1.env = s.env ∧ s1.port.pads = s.port.pads ∧ s1.resLow = s.resLow
  boundary : s1.entering = s.entering ∧ s1.slipped = s.slipped
  mode : countMode s.tmrc s.adcr ≠ .unused → countMode s1.tmrc s1.adcr ≠ .unused
  oneWrite : s1.tmrc = s.tmrc ∨ s1.adcr = s.adcr
  personality : s.tmrc.ton = true → s1.adcr.adc = s.adcr.adc
  pulse : (s.timer.pwRun = true → s.timer.pwArmed = true) → s1.timer.pwRun = true → s1.timer.pwArmed = true
  age : s1.wdt.age ≤ s.wdt.age
  halted : s1.halted = s.halted
  counter : s1.mft = s.mft ∧ s1.lvdAge = s.lvdAge ∧ s1.adcr.blf = s.adcr.blf

/-- An update of fields that the summary does not speak of. -/
theorem InstrKept.refl (s : State) : InstrKept s s :=
  ⟨id, ⟨rfl, rfl, rfl, rfl, rfl⟩, ⟨rfl, rfl⟩, id, .inl rfl, fun _ => rfl, id, Nat.le_refl _, rfl, ⟨rfl, rfl, rfl⟩⟩

/-- After a first part that keeps the counter's two control registers, a second part. -/
theorem InstrKept.trans {s s1 s2 : State} (h : InstrKept s s1) (ht : s1.tmrc = s.tmrc) (ha : s1.adcr = s.adcr)
    (h' : InstrKept s1 s2) : InstrKept s s2 where
  memory hm := h'.memory (h.memory hm)
  fixed := by
    obtain ⟨h1, h2, h3, h4, h5⟩ := h.fixed
    obtain ⟨h6, h7, h8, h9, h10⟩ := h'.fixed
    exact ⟨h6.trans h1, h7.trans h2, h8.trans h3, h9.trans h4, h10.trans h5⟩
  boundary := ⟨h'.boundary.1.trans h.boundary.1, h'.boundary.2.trans h.boundary.2⟩
  mode hm := h'.mode (h.mode hm)
  oneWrite := by have := h'.oneWrite; rwa [ht, ha] at this
  personality hm := (h'.personality (by rw [ht]; exact hm)).trans (h.personality hm)
  pulse hm := h'.pulse (h.pulse hm)
  age := Nat.le_trans h'.age h.age
  halted := h'.halted.trans h.halted
  counter := by
    obtain ⟨h1, h2, h3⟩ := h.counter
    obtain ⟨h4, h5, h6⟩ := h'.counter
    exact ⟨h4.trans h1, h5.trans h2, h6.trans h3⟩

/-- Registers, flags, stack, PC and the number of draws may change freely afterwards. -/
theorem InstrKept.with {s s1 : State} (h : InstrKept s s1) (acc : Byte) (flags : Flags) (pc k0 k1 : PAddr) (sp : Fin 3)
    (tblh : Byte) (intc : Intc) (d : Nat) :
    InstrKept s { s1 with acc := acc, flags := flags, pc := pc, stk0 := k0, stk1 := k1, sp := sp, tblh := tblh, intc := intc, draws := d } :=
  ⟨h.memory, h.fixed, h.boundary, h.mode, h.oneWrite, h.personality, h.pulse, h.age, h.halted, h.counter⟩

theorem skipIf_kept {s s1 : State} (h : InstrKept s s1) (c : Bool) : InstrKept s (s1.skipIf c) := by
  cases c
  · exact h
  · exact h.with s1.acc s1.flags (s1.pc + 1) s1.stk0 s1.stk1 s1.sp s1.tblh s1.intc s1.draws

/-- A change of the counters, the buffer and its tag. -/
theorem InstrKept.ofBuffer (s : State) (ta tb : Word) (b : Byte) (tag : BufSource) (d : Nat) :
    InstrKept s { s with timer := { s.timer with ta := ta, tb := tb, lbuf := b, src := tag }, draws := d } :=
  ⟨id, ⟨rfl, rfl, rfl, rfl, rfl⟩, ⟨rfl, rfl⟩, id, .inl rfl, fun _ => rfl, id, Nat.le_refl _, rfl, ⟨rfl, rfl, rfl⟩⟩

/-- A read keeps all this, and the two control registers. -/
theorem memRead_instrKept {a : Access} {t : Target} {v : Byte} {s s1 : State} (h : memRead a t s = .ok (v, s1)) :
    InstrKept s s1 ∧ s1.tmrc = s.tmrc ∧ s1.adcr = s.adcr := by
  rcases memRead_state a t v s s1 h with ⟨d, rfl⟩ | ⟨_, _, b, tag, rfl⟩
  · exact ⟨(InstrKept.refl s).with s.acc s.flags s.pc s.stk0 s.stk1 s.sp s.tblh s.intc d, rfl, rfl⟩
  · exact ⟨InstrKept.ofBuffer s s.timer.ta s.timer.tb b tag s.draws, rfl, rfl⟩

/-- A write of a timer location changes the two counters and the buffer at most. -/
theorem timerWrite_counters {a : Access} {p : TimerPort} {v : Byte} {s s1 : State} (h : timerWrite a p v s = .ok s1) :
    ∃ ta tb b tag d, s1 = { s with timer := { s.timer with ta := ta, tb := tb, lbuf := b, src := tag }, draws := d } := by
  have ha : ∃ ta tb b tag d, loadTa v s =
      { s with timer := { s.timer with ta := ta, tb := tb, lbuf := b, src := tag }, draws := d } := by
    obtain ⟨d, hd⟩ := bufferByte_state .wrA s
    exact ⟨_, s.timer.tb, s.timer.lbuf, s.timer.src, d, by unfold loadTa; dsimp only; rw [hd]⟩
  have hb : ∃ ta tb b tag d, loadTb v s =
      { s with timer := { s.timer with ta := ta, tb := tb, lbuf := b, src := tag }, draws := d } := by
    obtain ⟨d, hd⟩ := bufferByte_state .wrB s
    exact ⟨s.timer.ta, _, s.timer.lbuf, s.timer.src, d, by unfold loadTb; dsimp only; rw [hd]⟩
  have hc : ∃ ta tb b tag d, loadTbAndTa v s =
      { s with timer := { s.timer with ta := ta, tb := tb, lbuf := b, src := tag }, draws := d } := by
    obtain ⟨d, hd⟩ := bufferByte_state .wrB s
    exact ⟨_, _, s.timer.lbuf, s.timer.src, d, by unfold loadTbAndTa; dsimp only; rw [hd]⟩
  cases a with
  | other => cases h
  | mov =>
    unfold timerWrite at h
    dsimp only at h
    cases p <;> dsimp only at h <;> (repeat' split at h) <;>
      first
      | (cases h; done)
      | (cases h; first | exact ha | exact hb | exact hc | exact ⟨_, _, _, _, s.draws, rfl⟩)

/-- A write keeps all this, wherever it goes. -/
theorem memWrite_instrKept {a : Access} {t : Target} {v : Byte} {s s1 : State} (h : memWrite a t v s = .ok s1)
    (hk : ∀ k, t.memKey = some k → memKeyExists k = true) : InstrKept s s1 := by
  have cell : ∀ k, memKeyExists k = true → InstrKept s (writeCell k v s) := fun k h1 =>
    ⟨fun hm => Memory.wf_update s.mem k v hm h1, ⟨rfl, rfl, rfl, rfl, rfl⟩, ⟨rfl, rfl⟩, id, .inl rfl, fun _ => rfl, id, Nat.le_refl _, rfl,
      ⟨rfl, rfl, rfl⟩⟩
  cases t with
  | self => cases h; exact .refl s
  | lcd e => cases h; exact cell _ (hk _ rfl)
  | bank0 e =>
    unfold memWrite locWrite at h
    dsimp only at h
    split at h
    case h_13 => obtain ⟨ta, tb, b, tag, d, rfl⟩ := timerWrite_counters h; exact .ofBuffer s ta tb b tag d
    case h_14 =>
      obtain ⟨rfl, h1⟩ := writeTmrc_state v s s1 h
      refine ⟨id, ⟨rfl, rfl, rfl, rfl, rfl⟩, ⟨rfl, rfl⟩, fun _ => h1, .inr rfl, fun _ => rfl, fun hp => ?_, Nat.le_refl _, rfl, ⟨rfl, rfl, rfl⟩⟩
      show (armPulse _ _ _ _).pwRun = true → (armPulse _ _ _ _).pwArmed = true
      unfold armPulse
      split
      · exact fun _ => rfl
      · exact hp
    case h_15 =>
      obtain ⟨rfl, h1⟩ := writeAdcr_state v s s1 h
      refine ⟨id, ⟨rfl, rfl, rfl, rfl, rfl⟩, ⟨rfl, rfl⟩, fun hm => ?_, .inl rfl, h1, id, Nat.le_refl _, rfl, ⟨rfl, rfl, rfl⟩⟩
      revert hm
      show _ → countMode s.tmrc (s.adcr.written v) ≠ _
      unfold countMode
      split
      · next h2 => rw [h1 h2]; exact id
      · exact id
    case h_16 h1 => cases h; exact cell _ (hk _ (by simp [Target.memKey, (locate_ram_iff e).mp h1]))
    all_goals
      cases h
      exact ⟨id, ⟨rfl, rfl, rfl, rfl, rfl⟩, ⟨rfl, rfl⟩, id, .inl rfl, fun _ => rfl, id, Nat.le_refl _, rfl, ⟨rfl, rfl, rfl⟩⟩

/-! ## The operand forms -/

theorem advance_kept (s : State) : InstrKept s s.advance :=
  (InstrKept.refl s).with s.acc s.flags (s.pc + 1) s.stk0 s.stk1 s.sp s.tblh s.intc s.draws

/-- What a form that begins by resolving its operand does when it answers a next state. -/
theorem withTarget_next {m : DAddr} {s s' : State} {k : Target → State → Result} (h : withTarget m s k = .next s') :
    ∃ t, resolve s m = .ok t ∧ k t s.advance = .next s' := by
  unfold withTarget at h
  rw [resolve_advance] at h
  split at h
  · cases h
  · next t ht => exact ⟨t, ht, h⟩

/-- What a form that reads does when it answers a next state. -/
theorem withRead_next {a : Access} {t : Target} {s s' : State} {k : Byte → State → Result}
    (h : withRead a t s k = .next s') : ∃ v s1, memRead a t s = .ok (v, s1) ∧ k v s1 = .next s' := by
  unfold withRead at h
  split at h
  · cases h
  · next p hp => exact ⟨p.1, p.2, hp, h⟩

/-- What a form that writes does when it answers a next state. -/
theorem withWrite_next {a : Access} {t : Target} {v : Byte} {s s' : State} {k : State → Result}
    (h : withWrite a t v s k = .next s') : ∃ s1, memWrite a t v s = .ok s1 ∧ k s1 = .next s' := by
  unfold withWrite at h
  split at h
  · cases h
  · next s1 hs => exact ⟨s1, hs, h⟩

/-- A form that only reads. -/
theorem readingOp_kept {m : DAddr} {s s' : State} {k : Byte → State → Result} (h : readingOp m s k = .next s')
    (hk : ∀ v s1, InstrKept s s1 → k v s1 = .next s' → InstrKept s s') : InstrKept s s' := by
  obtain ⟨t, _, h1⟩ := withTarget_next h
  obtain ⟨v, s1, h2, h3⟩ := withRead_next h1
  exact hk v s1 ((advance_kept s).trans rfl rfl (memRead_instrKept h2).1) h3

/-- The read-modify-write form that writes flags of its own. -/
theorem modifyWithFlags_kept {m : DAddr} {r : Byte → State → Byte} {f : Byte → State → Flags} {s s' : State}
    (h : modifyWithFlags m r f s = .next s') : InstrKept s s' := by
  obtain ⟨t, ht, h1⟩ := withTarget_next h
  split at h1
  · cases h1
  · obtain ⟨v, s1, h2, h3⟩ := withRead_next h1
    obtain ⟨s2, h4, h5⟩ := withWrite_next h3
    cases h5
    have k1 := memRead_instrKept h2
    have k2 := ((advance_kept s).trans rfl rfl k1.1).trans k1.2.1 k1.2.2
      (memWrite_instrKept h4 fun k hk => resolve_memKey s m t k ht hk)
    exact k2.with s2.acc _ s2.pc s2.stk0 s2.stk1 s2.sp s2.tblh s2.intc s2.draws

/-- The read-modify-write form that writes no flag. -/
theorem plainToMem_kept {m : DAddr} {g : Byte → Byte} {s s' : State} (h : plainToMem m g s = .next s') :
    InstrKept s s' := by
  obtain ⟨t, ht, h1⟩ := withTarget_next h
  obtain ⟨v, s1, h2, h3⟩ := withRead_next h1
  obtain ⟨s2, h4, h5⟩ := withWrite_next h3
  cases h5
  have k1 := memRead_instrKept h2
  exact ((advance_kept s).trans rfl rfl k1.1).trans k1.2.1 k1.2.2
    (memWrite_instrKept h4 fun k hk => resolve_memKey s m t k ht hk)

/-- The form that only writes. -/
theorem storeOnly_kept {a : Access} {m : DAddr} {g : State → Byte} {s s' : State} (h : storeOnly a m g s = .next s') :
    InstrKept s s' := by
  obtain ⟨t, ht, h1⟩ := withTarget_next h
  obtain ⟨s2, h4, h5⟩ := withWrite_next h1
  cases h5
  exact (advance_kept s).trans rfl rfl (memWrite_instrKept h4 fun k hk => resolve_memKey s m t k ht hk)

/-- SIZ and SDZ. -/
theorem memAndSkip_kept {m : DAddr} {g : Byte → Byte} {s s' : State} (h : memAndSkip m g s = .next s') :
    InstrKept s s' := by
  obtain ⟨t, ht, h1⟩ := withTarget_next h
  split at h1
  · cases h1
  · obtain ⟨v, s1, h2, h3⟩ := withRead_next h1
    obtain ⟨s2, h4, h5⟩ := withWrite_next h3
    cases h5
    have k1 := memRead_instrKept h2
    exact skipIf_kept (((advance_kept s).trans rfl rfl k1.1).trans k1.2.1 k1.2.2
      (memWrite_instrKept h4 fun k hk => resolve_memKey s m t k ht hk)) _

/-- The table reads. -/
theorem tableRead_kept {m : DAddr} {entry : State → PAddr} {s s' : State} (h : tableRead m entry s = .next s') :
    InstrKept s s' := by
  obtain ⟨t, ht, h1⟩ := withTarget_next h
  obtain ⟨s2, h4, h5⟩ := withWrite_next h1
  cases h5
  have k1 := (advance_kept s).with s.acc s.flags (s.pc + 1) s.stk0 s.stk1 s.sp
    (highByte (romRead s.advance (entry s.advance))) s.intc s.draws
  exact k1.trans rfl rfl (memWrite_instrKept h4 fun k hk => resolve_memKey s m t k ht hk)

/-- DAA. -/
theorem execDaa_kept {m : DAddr} {s s' : State} (h : execDaa m s = .next s') : InstrKept s s' := by
  obtain ⟨t, ht, h1⟩ := withTarget_next h
  split at h1
  · cases h1
  · obtain ⟨s2, h4, h5⟩ := withWrite_next h1
    cases h5
    have k2 := (advance_kept s).trans rfl rfl (memWrite_instrKept h4 fun k hk => resolve_memKey s m t k ht hk)
    exact k2.with s2.acc _ s2.pc s2.stk0 s2.stk1 s2.sp s2.tblh s2.intc s2.draws

/-- MOV A,[m]. -/
theorem execMovAm_kept {m : DAddr} {s s' : State} (h : execMovAm m s = .next s') : InstrKept s s' := by
  obtain ⟨t, _, h1⟩ := withTarget_next h
  obtain ⟨v, s1, h2, h3⟩ := withRead_next h1
  cases h3
  exact ((advance_kept s).trans rfl rfl (memRead_instrKept h2).1).with _ s1.flags s1.pc s1.stk0 s1.stk1 s1.sp s1.tblh s1.intc
    s1.draws

/-- A change of the watchdog that does not age it. -/
theorem watchdog_kept (s : State) (f : Flags) (w : Wdt) (h : w.age ≤ s.wdt.age) :
    InstrKept s { s.advance with flags := f, wdt := w } :=
  ⟨id, ⟨rfl, rfl, rfl, rfl, rfl⟩, ⟨rfl, rfl⟩, id, .inl rfl, fun _ => rfl, id, h, rfl, ⟨rfl, rfl, rfl⟩⟩

/-- Clearing the watchdog does not age it. -/
theorem clearWdtIf_age (c : Bool) (s : State) : (clearWdtIf c s).wdt.age ≤ s.wdt.age := by
  cases c
  · exact Nat.le_refl _
  · exact Nat.zero_le _

/-- The three watchdog instructions. -/
theorem clrWdts_kept {i : Instr} {s s' : State} (hi : i ∈ [Instr.clrWdt, .clrWdt1, .clrWdt2]) (h : exec i s = .next s') :
    InstrKept s s' := by
  simp only [List.mem_cons, List.not_mem_nil, or_false] at hi
  rcases hi with rfl | rfl | rfl <;> cases h <;> exact watchdog_kept s _ _ (clearWdtIf_age _ s.advance)

/-- A return. -/
theorem popPc_kept {s s1 : State} (h : popPc s = .ok s1) : ∃ pc sp, s1 = { s with pc := pc, sp := sp } := by
  rcases popPc_cases h with ⟨_, rfl⟩ | ⟨_, rfl⟩ <;> exact ⟨_, _, rfl⟩

/-- What a return does when it answers a next state. -/
theorem returning_next {p : Except Fault State} {k : State → State} {s' : State} (h : returning p k = .next s') :
    ∃ s1, p = .ok s1 ∧ s' = k s1 := by
  unfold returning at h
  split at h
  · cases h
  · next s1 => cases h; exact ⟨s1, rfl, rfl⟩

/-- RETI's pop and its EMI. -/
theorem returnFromInterrupt_cases {s s1 : State} (h : returnFromInterrupt s = .ok s1) :
    ∃ s2, popPc s = .ok s2 ∧ s1 = { s2 with intc := { s2.intc with emi := true } } := by
  unfold returnFromInterrupt at h
  split at h
  · cases h
  · next s2 h2 => cases h; exact ⟨s2, h2, rfl⟩

/-! ## Every instruction -/

/-- What HALT does when it answers a next state. -/
theorem execHalt_next {s s' : State} (h : execHalt s = .next s') : countsOutside s = false ∧ s' = { s with
    pc := s.pc + 1, flags := { s.flags with pdf := true, timeOut := false }, wdt := { age := 0, w1 := false, w2 := false },
    tbfAtHalt := s.intc.tbf, mft := Config.freePhase s.draws, draws := s.draws + 1, halted := true } := by
  unfold execHalt at h
  split at h
  · cases h
  · next h1 => cases h; exact ⟨by simpa using h1, rfl⟩

/-- Every instruction but HALT keeps what the summary says. -/
theorem exec_kept {i : Instr} {s s' : State} (h : exec i s = .next s') (hi : i ≠ .halt) : InstrKept s s' := by
  have acc : ∀ {m : DAddr} {f : Byte → State → Byte} {g : Byte → State → Flags},
      readingOp m s (fun v s1 => .next { s1 with acc := f v s1, flags := g v s1 }) = .next s' → InstrKept s s' := by
    intro m f g h
    refine readingOp_kept h fun v s1 h1 h2 => ?_
    cases h2
    exact h1.with _ _ s1.pc s1.stk0 s1.stk1 s1.sp s1.tblh s1.intc s1.draws
  have plain : ∀ {m : DAddr} {f : Byte → Byte}, plainToAcc m f s = .next s' → InstrKept s s' := by
    intro m f h
    refine readingOp_kept h fun v s1 h1 h2 => ?_
    cases h2
    exact h1.with _ s1.flags s1.pc s1.stk0 s1.stk1 s1.sp s1.tblh s1.intc s1.draws
  have test : ∀ {m : DAddr} {f : Byte → Bool}, testAndSkip m f s = .next s' → InstrKept s s' := by
    intro m f h
    refine readingOp_kept h fun v s1 h1 h2 => ?_
    cases h2
    exact skipIf_kept h1 _
  have accSkip : ∀ {m : DAddr} {f : Byte → Byte}, accAndSkip m f s = .next s' → InstrKept s s' := by
    intro m f h
    refine readingOp_kept h fun v s1 h1 h2 => ?_
    cases h2
    exact skipIf_kept (h1.with _ s1.flags s1.pc s1.stk0 s1.stk1 s1.sp s1.tblh s1.intc s1.draws) _
  have imm : ∀ (a : Byte) (f : Flags), InstrKept s { s.advance with acc := a, flags := f } := fun a f =>
    (advance_kept s).with a f (s.pc + 1) s.stk0 s.stk1 s.sp s.tblh s.intc s.draws
  have pop : ∀ {s1 : State}, popPc s = .ok s1 → ∀ a i, InstrKept s { s1 with acc := a, intc := i } := by
    intro s1 h1 a i
    obtain ⟨pc, sp, rfl⟩ := popPc_kept h1
    exact (InstrKept.refl s).with a s.flags pc s.stk0 s.stk1 sp s.tblh i s.draws
  cases i
  case halt => exact absurd rfl hi
  case clrWdt => exact clrWdts_kept (by simp) h
  case clrWdt1 => exact clrWdts_kept (by simp) h
  case clrWdt2 => exact clrWdts_kept (by simp) h
  case daa => exact execDaa_kept h
  case movAm => exact execMovAm_kept h
  case nop => cases h; exact advance_kept s
  case jmp a => cases h; exact (InstrKept.refl s).with s.acc s.flags a s.stk0 s.stk1 s.sp s.tblh s.intc s.draws
  case call a =>
    cases h
    have k1 : InstrKept s (push s.advance.pc s) := by
      unfold push
      split
      · exact (InstrKept.refl s).with s.acc s.flags s.pc (s.pc + 1) s.stk1 1 s.tblh s.intc s.draws
      · split
        · exact (InstrKept.refl s).with s.acc s.flags s.pc s.stk0 (s.pc + 1) 2 s.tblh s.intc s.draws
        · exact (InstrKept.refl s).with s.acc s.flags s.pc s.stk1 (s.pc + 1) s.sp s.tblh s.intc s.draws
    exact k1.with (push _ s).acc (push _ s).flags a (push _ s).stk0 (push _ s).stk1 (push _ s).sp (push _ s).tblh (push _ s).intc
      (push _ s).draws
  case ret =>
    obtain ⟨s1, h1, h2⟩ := returning_next h
    rw [h2]
    exact pop h1 s1.acc s1.intc
  case retAx => obtain ⟨s1, h1, rfl⟩ := returning_next h; exact pop h1 _ s1.intc
  case reti =>
    obtain ⟨s1, h1, rfl⟩ := returning_next h
    obtain ⟨s2, h2, rfl⟩ := returnFromInterrupt_cases h1
    exact pop h2 s2.acc _
  case clrMem m => exact storeOnly_kept (g := fun _ => 0x00) h
  case setMem m => exact storeOnly_kept (g := fun _ => 0xFF) h
  case movAx x => cases h; exact imm x s.flags
  all_goals
    first
    | exact modifyWithFlags_kept h
    | exact plainToMem_kept h
    | exact storeOnly_kept h
    | exact memAndSkip_kept h
    | exact tableRead_kept h
    | exact plain h
    | exact test h
    | exact accSkip h
    | exact acc h
    | (cases h; exact imm _ _)

end Sys2Proof.Machine
end

