-- ==== Sys2Proof/Laws/PerInstr.lean ====
section
/-! SUPPORT. A statement about every instruction as syntax, shown constructor by constructor: its encoding is a word of the
opcode map. -/

namespace Sys2Proof

/-- A word of format M keeps the pattern of its row. -/
theorem hits_encodeM {p : Word} (h : p &&& 0xFF80#16 = p) (m : DAddr) : encodeM p m &&& 0xFF80#16 = p := by
  conv_rhs => rw [← h]
  unfold encodeM
  apply BitVec.eq_of_getLsbD_eq
  intro k hk
  interval_cases k <;> simp

/-- A word of format I keeps the pattern of its row. -/
theorem hits_encodeI {p : Word} (h : p &&& 0xFF00#16 = p) (x : Byte) : encodeI p x &&& 0xFF00#16 = p := by
  conv_rhs => rw [← h]
  unfold encodeI
  apply BitVec.eq_of_getLsbD_eq
  intro k hk
  interval_cases k <;> simp

/-- A word of format A keeps the pattern of its row. -/
theorem hits_encodeA {p : Word} (h : p &&& 0xFC00#16 = p) (a : PAddr) : encodeA p a &&& 0xFC00#16 = p := by
  conv_rhs => rw [← h]
  unfold encodeA
  apply BitVec.eq_of_getLsbD_eq
  intro k hk
  interval_cases k <;> simp

/-- A word of format B keeps the pattern of its row. -/
theorem hits_encodeB {p : Word} (h : p &&& 0xFC00#16 = p) (m : DAddr) (i : Nat) : encodeB p m i &&& 0xFC00#16 = p := by
  have hi : i % 8 < 8 := Nat.mod_lt _ (by decide)
  conv_rhs => rw [← h]
  unfold encodeB
  generalize i % 8 = j at hi
  apply BitVec.eq_of_getLsbD_eq
  intro k hk
  interval_cases j <;> interval_cases k <;> simp

end Sys2Proof

namespace Sys2Proof.Laws

/-- The encoding of the instruction belongs to the row of the opcode map at place `k` of the table. -/
def InRow (k : Nat) (i : Instr) : Prop := ∃ r, opcodeMap[k]? = some r ∧ r.hits (encode i) = true

/-- A well-formed instruction is encoded as a word of the opcode map (R125). -/
def EncodingShape.Statement (i : Instr) : Prop := i.wf = true → ∃ k, InRow k i

theorem EncodingShape.addAm (m : DAddr) : EncodingShape.Statement (.addAm m) :=
  fun _ => ⟨0, _, rfl, beq_iff_eq.mpr (hits_encodeM rfl m)⟩

theorem EncodingShape.addmAm (m : DAddr) : EncodingShape.Statement (.addmAm m) :=
  fun _ => ⟨1, _, rfl, beq_iff_eq.mpr (hits_encodeM rfl m)⟩

theorem EncodingShape.addAx (x : Byte) : EncodingShape.Statement (.addAx x) :=
  fun _ => ⟨2, _, rfl, beq_iff_eq.mpr (hits_encodeI rfl x)⟩

theorem EncodingShape.adcAm (m : DAddr) : EncodingShape.Statement (.adcAm m) :=
  fun _ => ⟨3, _, rfl, beq_iff_eq.mpr (hits_encodeM rfl m)⟩

theorem EncodingShape.adcmAm (m : DAddr) : EncodingShape.Statement (.adcmAm m) :=
  fun _ => ⟨4, _, rfl, beq_iff_eq.mpr (hits_encodeM rfl m)⟩

theorem EncodingShape.subAx (x : Byte) : EncodingShape.Statement (.subAx x) :=
  fun _ => ⟨5, _, rfl, beq_iff_eq.mpr (hits_encodeI rfl x)⟩

theorem EncodingShape.subAm (m : DAddr) : EncodingShape.Statement (.subAm m) :=
  fun _ => ⟨6, _, rfl, beq_iff_eq.mpr (hits_encodeM rfl m)⟩

theorem EncodingShape.submAm (m : DAddr) : EncodingShape.Statement (.submAm m) :=
  fun _ => ⟨7, _, rfl, beq_iff_eq.mpr (hits_encodeM rfl m)⟩

theorem EncodingShape.sbcAm (m : DAddr) : EncodingShape.Statement (.sbcAm m) :=
  fun _ => ⟨8, _, rfl, beq_iff_eq.mpr (hits_encodeM rfl m)⟩

theorem EncodingShape.sbcmAm (m : DAddr) : EncodingShape.Statement (.sbcmAm m) :=
  fun _ => ⟨9, _, rfl, beq_iff_eq.mpr (hits_encodeM rfl m)⟩

theorem EncodingShape.daa (m : DAddr) : EncodingShape.Statement (.daa m) :=
  fun _ => ⟨10, _, rfl, beq_iff_eq.mpr (hits_encodeM rfl m)⟩

theorem EncodingShape.andAm (m : DAddr) : EncodingShape.Statement (.andAm m) :=
  fun _ => ⟨11, _, rfl, beq_iff_eq.mpr (hits_encodeM rfl m)⟩

theorem EncodingShape.orAm (m : DAddr) : EncodingShape.Statement (.orAm m) :=
  fun _ => ⟨12, _, rfl, beq_iff_eq.mpr (hits_encodeM rfl m)⟩

theorem EncodingShape.xorAm (m : DAddr) : EncodingShape.Statement (.xorAm m) :=
  fun _ => ⟨13, _, rfl, beq_iff_eq.mpr (hits_encodeM rfl m)⟩

theorem EncodingShape.andmAm (m : DAddr) : EncodingShape.Statement (.andmAm m) :=
  fun _ => ⟨14, _, rfl, beq_iff_eq.mpr (hits_encodeM rfl m)⟩

theorem EncodingShape.ormAm (m : DAddr) : EncodingShape.Statement (.ormAm m) :=
  fun _ => ⟨15, _, rfl, beq_iff_eq.mpr (hits_encodeM rfl m)⟩

theorem EncodingShape.xormAm (m : DAddr) : EncodingShape.Statement (.xormAm m) :=
  fun _ => ⟨16, _, rfl, beq_iff_eq.mpr (hits_encodeM rfl m)⟩

theorem EncodingShape.andAx (x : Byte) : EncodingShape.Statement (.andAx x) :=
  fun _ => ⟨17, _, rfl, beq_iff_eq.mpr (hits_encodeI rfl x)⟩

theorem EncodingShape.orAx (x : Byte) : EncodingShape.Statement (.orAx x) :=
  fun _ => ⟨18, _, rfl, beq_iff_eq.mpr (hits_encodeI rfl x)⟩

theorem EncodingShape.xorAx (x : Byte) : EncodingShape.Statement (.xorAx x) :=
  fun _ => ⟨19, _, rfl, beq_iff_eq.mpr (hits_encodeI rfl x)⟩

theorem EncodingShape.cpl (m : DAddr) : EncodingShape.Statement (.cpl m) :=
  fun _ => ⟨20, _, rfl, beq_iff_eq.mpr (hits_encodeM rfl m)⟩

theorem EncodingShape.cpla (m : DAddr) : EncodingShape.Statement (.cpla m) :=
  fun _ => ⟨21, _, rfl, beq_iff_eq.mpr (hits_encodeM rfl m)⟩

theorem EncodingShape.inca (m : DAddr) : EncodingShape.Statement (.inca m) :=
  fun _ => ⟨22, _, rfl, beq_iff_eq.mpr (hits_encodeM rfl m)⟩

theorem EncodingShape.inc (m : DAddr) : EncodingShape.Statement (.inc m) :=
  fun _ => ⟨23, _, rfl, beq_iff_eq.mpr (hits_encodeM rfl m)⟩

theorem EncodingShape.deca (m : DAddr) : EncodingShape.Statement (.deca m) :=
  fun _ => ⟨24, _, rfl, beq_iff_eq.mpr (hits_encodeM rfl m)⟩

theorem EncodingShape.dec (m : DAddr) : EncodingShape.Statement (.dec m) :=
  fun _ => ⟨25, _, rfl, beq_iff_eq.mpr (hits_encodeM rfl m)⟩

theorem EncodingShape.rra (m : DAddr) : EncodingShape.Statement (.rra m) :=
  fun _ => ⟨26, _, rfl, beq_iff_eq.mpr (hits_encodeM rfl m)⟩

theorem EncodingShape.rr (m : DAddr) : EncodingShape.Statement (.rr m) :=
  fun _ => ⟨27, _, rfl, beq_iff_eq.mpr (hits_encodeM rfl m)⟩

theorem EncodingShape.rrca (m : DAddr) : EncodingShape.Statement (.rrca m) :=
  fun _ => ⟨28, _, rfl, beq_iff_eq.mpr (hits_encodeM rfl m)⟩

theorem EncodingShape.rrc (m : DAddr) : EncodingShape.Statement (.rrc m) :=
  fun _ => ⟨29, _, rfl, beq_iff_eq.mpr (hits_encodeM rfl m)⟩

theorem EncodingShape.rla (m : DAddr) : EncodingShape.Statement (.rla m) :=
  fun _ => ⟨30, _, rfl, beq_iff_eq.mpr (hits_encodeM rfl m)⟩

theorem EncodingShape.rl (m : DAddr) : EncodingShape.Statement (.rl m) :=
  fun _ => ⟨31, _, rfl, beq_iff_eq.mpr (hits_encodeM rfl m)⟩

theorem EncodingShape.rlca (m : DAddr) : EncodingShape.Statement (.rlca m) :=
  fun _ => ⟨32, _, rfl, beq_iff_eq.mpr (hits_encodeM rfl m)⟩

theorem EncodingShape.rlc (m : DAddr) : EncodingShape.Statement (.rlc m) :=
  fun _ => ⟨33, _, rfl, beq_iff_eq.mpr (hits_encodeM rfl m)⟩

theorem EncodingShape.movAm (m : DAddr) : EncodingShape.Statement (.movAm m) :=
  fun _ => ⟨34, _, rfl, beq_iff_eq.mpr (hits_encodeM rfl m)⟩

theorem EncodingShape.movmA (m : DAddr) : EncodingShape.Statement (.movmA m) :=
  fun _ => ⟨35, _, rfl, beq_iff_eq.mpr (hits_encodeM rfl m)⟩

theorem EncodingShape.movAx (x : Byte) : EncodingShape.Statement (.movAx x) :=
  fun _ => ⟨36, _, rfl, beq_iff_eq.mpr (hits_encodeI rfl x)⟩

theorem EncodingShape.clrBit (m : DAddr) (i : Nat) : EncodingShape.Statement (.clrBit m i) :=
  fun _ => ⟨37, _, rfl, beq_iff_eq.mpr (hits_encodeB rfl m i)⟩

theorem EncodingShape.setBit (m : DAddr) (i : Nat) : EncodingShape.Statement (.setBit m i) :=
  fun _ => ⟨38, _, rfl, beq_iff_eq.mpr (hits_encodeB rfl m i)⟩

theorem EncodingShape.jmp (addr : PAddr) : EncodingShape.Statement (.jmp addr) :=
  fun _ => ⟨39, _, rfl, beq_iff_eq.mpr (hits_encodeA rfl addr)⟩

theorem EncodingShape.sz (m : DAddr) : EncodingShape.Statement (.sz m) :=
  fun _ => ⟨40, _, rfl, beq_iff_eq.mpr (hits_encodeM rfl m)⟩

theorem EncodingShape.sza (m : DAddr) : EncodingShape.Statement (.sza m) :=
  fun _ => ⟨41, _, rfl, beq_iff_eq.mpr (hits_encodeM rfl m)⟩

theorem EncodingShape.szBit (m : DAddr) (i : Nat) : EncodingShape.Statement (.szBit m i) :=
  fun _ => ⟨42, _, rfl, beq_iff_eq.mpr (hits_encodeB rfl m i)⟩

theorem EncodingShape.snzBit (m : DAddr) (i : Nat) : EncodingShape.Statement (.snzBit m i) :=
  fun _ => ⟨43, _, rfl, beq_iff_eq.mpr (hits_encodeB rfl m i)⟩

theorem EncodingShape.siz (m : DAddr) : EncodingShape.Statement (.siz m) :=
  fun _ => ⟨44, _, rfl, beq_iff_eq.mpr (hits_encodeM rfl m)⟩

theorem EncodingShape.sdz (m : DAddr) : EncodingShape.Statement (.sdz m) :=
  fun _ => ⟨45, _, rfl, beq_iff_eq.mpr (hits_encodeM rfl m)⟩

theorem EncodingShape.siza (m : DAddr) : EncodingShape.Statement (.siza m) :=
  fun _ => ⟨46, _, rfl, beq_iff_eq.mpr (hits_encodeM rfl m)⟩

theorem EncodingShape.sdza (m : DAddr) : EncodingShape.Statement (.sdza m) :=
  fun _ => ⟨47, _, rfl, beq_iff_eq.mpr (hits_encodeM rfl m)⟩

theorem EncodingShape.call (addr : PAddr) : EncodingShape.Statement (.call addr) :=
  fun _ => ⟨48, _, rfl, beq_iff_eq.mpr (hits_encodeA rfl addr)⟩

theorem EncodingShape.ret : EncodingShape.Statement .ret :=
  fun _ => ⟨49, _, rfl, rfl⟩

theorem EncodingShape.retAx (x : Byte) : EncodingShape.Statement (.retAx x) :=
  fun _ => ⟨50, _, rfl, beq_iff_eq.mpr (hits_encodeI rfl x)⟩

theorem EncodingShape.reti : EncodingShape.Statement .reti :=
  fun _ => ⟨51, _, rfl, rfl⟩

theorem EncodingShape.tabrdc (m : DAddr) : EncodingShape.Statement (.tabrdc m) :=
  fun _ => ⟨52, _, rfl, beq_iff_eq.mpr (hits_encodeM rfl m)⟩

theorem EncodingShape.tabrdl (m : DAddr) : EncodingShape.Statement (.tabrdl m) :=
  fun _ => ⟨53, _, rfl, beq_iff_eq.mpr (hits_encodeM rfl m)⟩

theorem EncodingShape.nop : EncodingShape.Statement .nop :=
  fun _ => ⟨54, _, rfl, rfl⟩

theorem EncodingShape.clrMem (m : DAddr) : EncodingShape.Statement (.clrMem m) :=
  fun _ => ⟨55, _, rfl, beq_iff_eq.mpr (hits_encodeM rfl m)⟩

theorem EncodingShape.setMem (m : DAddr) : EncodingShape.Statement (.setMem m) :=
  fun _ => ⟨56, _, rfl, beq_iff_eq.mpr (hits_encodeM rfl m)⟩

theorem EncodingShape.clrWdt : EncodingShape.Statement .clrWdt :=
  fun _ => ⟨57, _, rfl, rfl⟩

theorem EncodingShape.clrWdt1 : EncodingShape.Statement .clrWdt1 :=
  fun _ => ⟨58, _, rfl, rfl⟩

theorem EncodingShape.clrWdt2 : EncodingShape.Statement .clrWdt2 :=
  fun _ => ⟨59, _, rfl, rfl⟩

theorem EncodingShape.swap (m : DAddr) : EncodingShape.Statement (.swap m) :=
  fun _ => ⟨60, _, rfl, beq_iff_eq.mpr (hits_encodeM rfl m)⟩

theorem EncodingShape.swapa (m : DAddr) : EncodingShape.Statement (.swapa m) :=
  fun _ => ⟨61, _, rfl, beq_iff_eq.mpr (hits_encodeM rfl m)⟩

theorem EncodingShape.halt : EncodingShape.Statement .halt :=
  fun _ => ⟨62, _, rfl, rfl⟩

end Sys2Proof.Laws
end

