-- ==== Sys2Proof/Tests/Slice0.lean ====
section
/-! SUPPORT. Tests: the check of WellFormed, a word of every constructor written out from R125, one step of every instruction
from the spec's own vectors (95_test_vectors.md), one step of the machine, and for every statement with hypotheses a state
that meets them. -/

namespace Sys2Proof.Tests

open Sys2Proof Sys2Proof.Machine Sys2Proof.Config

/-! ## WellFormed -/

/-- R123: a bit number is 0 to 7; 8 is refused in each of the four instructions that have one. -/
theorem test_wf_refuses_bit_eight :
    (Instr.clrBit 0x60 8).wf = false ∧ (Instr.setBit 0x60 8).wf = false ∧ (Instr.szBit 0x60 8).wf = false ∧
      (Instr.snzBit 0x60 8).wf = false := by decide

/-- R123: 7 is accepted. -/
theorem test_wf_accepts_bit_seven : (Instr.clrBit 0x60 7).wf = true ∧ (Instr.snzBit 0x7F 7).wf = true := by decide

/-! ## Decoding -/

/-- R126: the ends of the ranges of unassigned words. -/
theorem test_decode_unassigned :
    decode 0x0007#16 = .error (.illegalWord 0x0007#16) ∧ decode 0x08FF#16 = .error (.illegalWord 0x08FF#16) ∧
      decode 0x1E7F#16 = .error (.illegalWord 0x1E7F#16) ∧ decode 0xFFFF#16 = .error (.illegalWord 0xFFFF#16) := by decide

/-- The words of 40_arithmetic.md, written out from the column "word" of R125. -/
theorem test_decode_arithmetic :
    decode 0b0000001101100000#16 = .ok (.addAm 0x60) ∧
    decode 0b0000001110000101#16 = .ok (.addmAm 0x05) ∧
    decode 0b0000101110000001#16 = .ok (.addAx 0x81) ∧
    decode 0b0001001100001010#16 = .ok (.adcAm 0x0A) ∧
    decode 0b0001001110010011#16 = .ok (.adcmAm 0x13) ∧
    decode 0b0000101010000001#16 = .ok (.subAx 0x81) ∧
    decode 0b0000001001100000#16 = .ok (.subAm 0x60) ∧
    decode 0b0000001010000101#16 = .ok (.submAm 0x05) ∧
    decode 0b0001001001111111#16 = .ok (.sbcAm 0x7F) ∧
    decode 0b0001001010001010#16 = .ok (.sbcmAm 0x0A) ∧
    decode 0b0001111010010011#16 = .ok (.daa 0x13) := by
  decide

/-- The words of 41_logic.md, written out from the column "word" of R125. -/
theorem test_decode_logic :
    decode 0b0000011000100101#16 = .ok (.andAm 0x25) ∧
    decode 0b0000010101100000#16 = .ok (.orAm 0x60) ∧
    decode 0b0000010000000101#16 = .ok (.xorAm 0x05) ∧
    decode 0b0000011011111111#16 = .ok (.andmAm 0x7F) ∧
    decode 0b0000010110001010#16 = .ok (.ormAm 0x0A) ∧
    decode 0b0000010010010011#16 = .ok (.xormAm 0x13) ∧
    decode 0b0000111010000001#16 = .ok (.andAx 0x81) ∧
    decode 0b0000110110100101#16 = .ok (.orAx 0xA5) ∧
    decode 0b0000110000111100#16 = .ok (.xorAx 0x3C) ∧
    decode 0b0000000111111111#16 = .ok (.cpl 0x7F) ∧
    decode 0b0000000100001010#16 = .ok (.cpla 0x0A) := by
  decide

/-- The words of 42_incdec.md, written out from the column "word" of R125. -/
theorem test_decode_incdec :
    decode 0b0001010000010011#16 = .ok (.inca 0x13) ∧
    decode 0b0001010010100101#16 = .ok (.inc 0x25) ∧
    decode 0b0001010101100000#16 = .ok (.deca 0x60) ∧
    decode 0b0001010110000101#16 = .ok (.dec 0x05) := by
  decide

/-- The words of 43_rotate.md, written out from the column "word" of R125. -/
theorem test_decode_rotate :
    decode 0b0001100101111111#16 = .ok (.rra 0x7F) ∧
    decode 0b0001100110001010#16 = .ok (.rr 0x0A) ∧
    decode 0b0001101100010011#16 = .ok (.rrca 0x13) ∧
    decode 0b0001101110100101#16 = .ok (.rrc 0x25) ∧
    decode 0b0001100001100000#16 = .ok (.rla 0x60) ∧
    decode 0b0001100010000101#16 = .ok (.rl 0x05) ∧
    decode 0b0001101001111111#16 = .ok (.rlca 0x7F) ∧
    decode 0b0001101010001010#16 = .ok (.rlc 0x0A) := by
  decide

/-- The words of 44_datamove.md, written out from the column "word" of R125. -/
theorem test_decode_datamove :
    decode 0b0000011100010011#16 = .ok (.movAm 0x13) ∧
    decode 0b0000000010100101#16 = .ok (.movmA 0x25) ∧
    decode 0b0000111110100101#16 = .ok (.movAx 0xA5) := by
  decide

/-- The words of 45_bitop.md, written out from the column "word" of R125. -/
theorem test_decode_bitop :
    decode 0b0011010010000101#16 = .ok (.clrBit 0x05 1) ∧
    decode 0b0011000111111111#16 = .ok (.setBit 0x7F 3) := by
  decide

/-- The words of 46_branch.md, written out from the column "word" of R125. -/
theorem test_decode_branch :
    decode 0b0010100100111010#16 = .ok (.jmp 0x13A) ∧
    decode 0b0001000010010011#16 = .ok (.sz 0x13) ∧
    decode 0b0001000000100101#16 = .ok (.sza 0x25) ∧
    decode 0b0011110111100000#16 = .ok (.szBit 0x60 3) ∧
    decode 0b0011101010000101#16 = .ok (.snzBit 0x05 5) ∧
    decode 0b0001011011111111#16 = .ok (.siz 0x7F) ∧
    decode 0b0001011110001010#16 = .ok (.sdz 0x0A) ∧
    decode 0b0001011000010011#16 = .ok (.siza 0x13) ∧
    decode 0b0001011100100101#16 = .ok (.sdza 0x25) ∧
    decode 0b0010001011000101#16 = .ok (.call 0x2C5) ∧
    decode 0b0000000000000011#16 = .ok .ret ∧
    decode 0b0000100110000001#16 = .ok (.retAx 0x81) ∧
    decode 0b0000000000000100#16 = .ok .reti := by
  decide

/-- The words of 47_tableread.md, written out from the column "word" of R125. -/
theorem test_decode_tableread :
    decode 0b0001110100010011#16 = .ok (.tabrdc 0x13) ∧
    decode 0b0001110110100101#16 = .ok (.tabrdl 0x25) := by
  decide

/-- The words of 48_misc.md, written out from the column "word" of R125. -/
theorem test_decode_misc :
    decode 0b0000000000000000#16 = .ok .nop ∧
    decode 0b0001111100000101#16 = .ok (.clrMem 0x05) ∧
    decode 0b0001111111111111#16 = .ok (.setMem 0x7F) ∧
    decode 0b0000000000000001#16 = .ok .clrWdt ∧
    decode 0b0000000000000110#16 = .ok .clrWdt1 ∧
    decode 0b0000000000000101#16 = .ok .clrWdt2 ∧
    decode 0b0001000111100000#16 = .ok (.swap 0x60) ∧
    decode 0b0001000100000101#16 = .ok (.swapa 0x05) ∧
    decode 0b0000000000000010#16 = .ok .halt := by
  decide

/-! ## One step of each instruction -/

/-- The mask options and parameters the tests run with: the conventions of 95_test_vectors.md. -/
def parameters : Params where
  enc := .provisional
  mask := { wdtEn := true, bzFreq := .div4, pa01Bz := false, pa2El := false, oscOnAtHalt := true, paPullHigh := true,
            lcdDuty := .half, lcdClk := .div8 }
  intSlip := false
  tfWakesHalt := false
  lvdSettle := 0

/-- A sample in which nothing happens. -/
def quiet : EnvSample where
  pads := 0xFF
  pins := []
  vddLow := false
  resLow := false
  powerOn := false
  wdtStrike := false
  paWake := false
  seen := 0
  missed := []
  slip := false

/-- The state the tests start from: an instruction at 010H, the rest as after power-on. -/
def ready : State := { State.reset with pc := 0x010, par := parameters, env := [quiet, quiet] }

/-- The word is decoded, its instruction answers a next state, and that state passes the check. -/
def answers (w : Word) (s : State) (p : State → Bool) : Bool :=
  match decode w with
  | .error _ => false
  | .ok i =>
    match exec i s with
    | .next s1 => p s1
    | .fault _ => false
    | .refused _ => false

/-- V1 of 95_test_vectors.md: `ADD A,[60H]`. -/
theorem test_addAm : answers 0x0360#16 { ready with acc := 0x7F, mem := [(0x60, 0x01)] } (fun s => s.pc == 0x011 &&
    s.acc == 0x80 && s.flags.c == false && s.flags.ac == true && s.flags.z == false &&
    s.flags.ov == true) = true := by decide

/-- V3 of 95_test_vectors.md: `ADD A,[00H]`. -/
theorem test_addAm_again : answers 0x0300#16 { ready with acc := 0x01, mp0 := 0x60, mem := [(0x60, 0xFF)] } (fun s =>
    s.pc == 0x011 && s.acc == 0x00 && lookup s.mem 0x60 == some 0xFF && s.flags.c == true && s.flags.ac == true &&
    s.flags.z == true && s.flags.ov == false) = true := by decide

/-- V8 of 95_test_vectors.md: `ADDM A,[06H]`. -/
theorem test_addmAm : answers 0x0386#16 { ready with pc := 0x120, acc := 0x03 } (fun s => s.pc == 0x124 &&
    s.acc == 0x03 && s.flags.c == false && s.flags.ac == false && s.flags.z == false &&
    s.flags.ov == false) = true := by decide

/-- V12 of 95_test_vectors.md: `ADDM A,[09H]`. -/
theorem test_addmAm_again : answers 0x0389#16 { ready with acc := 0x0A, rt := 7 } (fun s => s.pc == 0x011 &&
    s.rt == 1 && s.flags.c == false && s.flags.ac == true && s.flags.z == false && s.flags.ov == false) = true := by
    decide

/-- V14 of 95_test_vectors.md: `ADD A,00H`. -/
theorem test_addAx : answers 0x0B00#16
    { ready with acc := 0x00, flags := { ready.flags with c := true, ac := true, ov := true } } (fun s =>
    s.pc == 0x011 && s.acc == 0x00 && s.flags.c == false && s.flags.ac == false && s.flags.z == true &&
    s.flags.ov == false) = true := by decide

/-- V16 of 95_test_vectors.md: `ADC A,[60H]`. -/
theorem test_adcAm : answers 0x1360#16
    { ready with acc := 0x7F, flags := { ready.flags with c := true }, mem := [(0x60, 0x00)] } (fun s =>
    s.pc == 0x011 && s.acc == 0x80 && s.flags.c == false && s.flags.ac == true && s.flags.z == false &&
    s.flags.ov == true) = true := by decide

/-- V17 of 95_test_vectors.md: `ADCM A,[60H]`. -/
theorem test_adcmAm : answers 0x13E0#16
    { ready with acc := 0x10, flags := { ready.flags with c := true }, mem := [(0x60, 0x20)] } (fun s =>
    s.pc == 0x011 && s.acc == 0x10 && lookup s.mem 0x60 == some 0x31 && s.flags.c == false && s.flags.ac == false &&
    s.flags.z == false && s.flags.ov == false) = true := by decide

/-- V19 of 95_test_vectors.md: `SUB A,06H`. -/
theorem test_subAx : answers 0x0A06#16 { ready with acc := 0x05 } (fun s => s.pc == 0x011 && s.acc == 0xFF &&
    s.flags.c == false && s.flags.ac == false && s.flags.z == false && s.flags.ov == false) = true := by decide

/-- V21 of 95_test_vectors.md: `SUB A,80H`. -/
theorem test_subAx_again : answers 0x0A80#16 { ready with acc := 0x00 } (fun s => s.pc == 0x011 && s.acc == 0x80 &&
    s.flags.c == false && s.flags.ac == true && s.flags.z == false && s.flags.ov == true) = true := by decide

/-- V23 of 95_test_vectors.md: `SUB A,[05H]`. -/
theorem test_subAm : answers 0x0205#16 { ready with acc := 0x9C } (fun s => s.pc == 0x011 && s.acc == 0x00 &&
    s.flags.c == true && s.flags.ac == true && s.flags.z == true && s.flags.ov == false) = true := by decide

/-- V25 of 95_test_vectors.md: `SUBM A,[60H]`. -/
theorem test_submAm : answers 0x02E0#16 { ready with acc := 0x01, mem := [(0x60, 0x80)] } (fun s => s.pc == 0x011 &&
    s.acc == 0x01 && lookup s.mem 0x60 == some 0x81 && s.flags.c == false && s.flags.ac == true &&
    s.flags.z == false && s.flags.ov == true) = true := by decide

/-- V26 of 95_test_vectors.md: `SBC A,[60H]`. -/
theorem test_sbcAm : answers 0x1260#16
    { ready with acc := 0x10, flags := { ready.flags with c := false }, mem := [(0x60, 0x0F)] } (fun s =>
    s.pc == 0x011 && s.acc == 0x00 && s.flags.c == true && s.flags.ac == false && s.flags.z == true &&
    s.flags.ov == false) = true := by decide

/-- V30 of 95_test_vectors.md: `SBCM A,[60H]`. -/
theorem test_sbcmAm : answers 0x12E0#16
    { ready with acc := 0x50, flags := { ready.flags with c := false }, mem := [(0x60, 0x60)] } (fun s =>
    s.pc == 0x011 && s.acc == 0x50 && lookup s.mem 0x60 == some 0xEF && s.flags.c == false && s.flags.ac == false &&
    s.flags.z == false && s.flags.ov == false) = true := by decide

/-- V43 of 95_test_vectors.md: `DAA [60H]`. -/
theorem test_daa : answers 0x1EE0#16
    { ready with acc := 0x32, flags := { ready.flags with ac := true, c := true }, mem := [(0x60, 0xEE)] } (fun s =>
    s.pc == 0x011 && s.acc == 0x32 && lookup s.mem 0x60 == some 0x98 && s.flags.c == true && s.flags.ac == true &&
    s.flags.z == false && s.flags.ov == false) = true := by decide

/-- V46 of 95_test_vectors.md: `DAA [60H]`. -/
theorem test_daa_again : answers 0x1EE0#16
    { ready with acc := 0x9F, flags := { ready.flags with ac := false, c := false }, mem := [(0x60, 0xEE)] } (fun s =>
    s.pc == 0x011 && s.acc == 0x9F && lookup s.mem 0x60 == some 0x05 && s.flags.c == true && s.flags.ac == false &&
    s.flags.z == false && s.flags.ov == false) = true := by decide

/-- V60 of 95_test_vectors.md: `AND A,[60H]`. -/
theorem test_andAm : answers 0x0660#16 { ready with acc := 0xF0, mem := [(0x60, 0x3C)] } (fun s => s.pc == 0x011 &&
    s.acc == 0x30 && lookup s.mem 0x60 == some 0x3C && s.flags.z == false) = true := by decide

/-- V62 of 95_test_vectors.md: `OR A,[60H]`. -/
theorem test_orAm : answers 0x0560#16 { ready with acc := 0x00, mem := [(0x60, 0x00)] } (fun s => s.pc == 0x011 &&
    s.acc == 0x00 && lookup s.mem 0x60 == some 0x00 && s.flags.z == true) = true := by decide

/-- V64 of 95_test_vectors.md: `XOR A,[05H]`. -/
theorem test_xorAm : answers 0x0405#16 { ready with acc := 0x7E } (fun s => s.pc == 0x011 && s.acc == 0x00 &&
    s.flags.z == true) = true := by decide

/-- V65 of 95_test_vectors.md: `ANDM A,[60H]`. -/
theorem test_andmAm : answers 0x06E0#16 { ready with acc := 0x0F, mem := [(0x60, 0xA5)] } (fun s => s.pc == 0x011 &&
    s.acc == 0x0F && lookup s.mem 0x60 == some 0x05 && s.flags.z == false) = true := by decide

/-- V73 of 95_test_vectors.md: `ORM A,[0BH]`. -/
theorem test_ormAm : answers 0x058B#16 { ready with acc := 0xFF } (fun s => s.pc == 0x011 && s.intc.toByte == 0x37 &&
    s.flags.z == false) = true := by decide

/-- V76 of 95_test_vectors.md: `XORM A,[06H]`. -/
theorem test_xormAm : answers 0x0486#16 { ready with pc := 0x100, acc := 0xFF } (fun s => s.pc == 0x1FE &&
    s.flags.z == false) = true := by decide

/-- V68 of 95_test_vectors.md: `AND A,0FH`. -/
theorem test_andAx : answers 0x0E0F#16 { ready with acc := 0x3C } (fun s => s.pc == 0x011 && s.acc == 0x0C &&
    s.flags.z == false) = true := by decide

/-- V69 of 95_test_vectors.md: `OR A,01H`. -/
theorem test_orAx : answers 0x0D01#16 { ready with acc := 0x10 } (fun s => s.pc == 0x011 && s.acc == 0x11 &&
    s.flags.z == false) = true := by decide

/-- V70 of 95_test_vectors.md: `XOR A,FFH`. -/
theorem test_xorAx : answers 0x0CFF#16 { ready with acc := 0xFF } (fun s => s.pc == 0x011 && s.acc == 0x00 &&
    s.flags.z == true) = true := by decide

/-- V75 of 95_test_vectors.md: `CPL [12H]`. -/
theorem test_cpl : answers 0x0192#16
    { ready with port := { ready.port with latch := 0x0F, pac := 0xF0, pads := 0xA5 } } (fun s => s.pc == 0x011 &&
    s.port.latch == 0x50 && s.port.pac == 0xF0 && s.flags.z == false) = true := by decide

/-- V72 of 95_test_vectors.md: `CPLA [60H]`. -/
theorem test_cpla : answers 0x0160#16 { ready with acc := 0x11, mem := [(0x60, 0xFF)] } (fun s => s.pc == 0x011 &&
    s.acc == 0x00 && lookup s.mem 0x60 == some 0xFF && s.flags.z == true) = true := by decide

/-- V80 of 95_test_vectors.md: `INCA [60H]`. -/
theorem test_inca : answers 0x1460#16 { ready with acc := 0x11, mem := [(0x60, 0xFF)] } (fun s => s.pc == 0x011 &&
    s.acc == 0x00 && lookup s.mem 0x60 == some 0xFF && s.flags.z == true && s.flags.c == false &&
    s.flags.ov == false) = true := by decide

/-- V81 of 95_test_vectors.md: `INC [60H]`. -/
theorem test_inc : answers 0x14E0#16 { ready with acc := 0x11, mem := [(0x60, 0x7F)] } (fun s => s.pc == 0x011 &&
    s.acc == 0x11 && lookup s.mem 0x60 == some 0x80 && s.flags.z == false && s.flags.c == false &&
    s.flags.ov == false) = true := by decide

/-- V86 of 95_test_vectors.md: `INC [06H]`. -/
theorem test_inc_again : answers 0x1486#16 { ready with pc := 0xFE } (fun s => s.pc == 0x00 &&
    s.flags.z == true) = true := by decide

/-- V82 of 95_test_vectors.md: `DECA [60H]`. -/
theorem test_deca : answers 0x1560#16 { ready with acc := 0x11, mem := [(0x60, 0x00)] } (fun s => s.pc == 0x011 &&
    s.acc == 0xFF && lookup s.mem 0x60 == some 0x00 && s.flags.z == false && s.flags.c == false &&
    s.flags.ov == false) = true := by decide

/-- V83 of 95_test_vectors.md: `DEC [60H]`. -/
theorem test_dec : answers 0x15E0#16 { ready with acc := 0x11, mem := [(0x60, 0x01)] } (fun s => s.pc == 0x011 &&
    s.acc == 0x11 && lookup s.mem 0x60 == some 0x00 && s.flags.z == true && s.flags.c == false &&
    s.flags.ov == false) = true := by decide

/-- V90 of 95_test_vectors.md: `RRA [60H]`. -/
theorem test_rra : answers 0x1960#16 { ready with acc := 0x11, mem := [(0x60, 0x01)] } (fun s => s.pc == 0x011 &&
    s.acc == 0x80 && lookup s.mem 0x60 == some 0x01 && s.flags.c == false && s.flags.z == false) = true := by decide

/-- V91 of 95_test_vectors.md: `RR [60H]`. -/
theorem test_rr : answers 0x19E0#16 { ready with acc := 0x11, mem := [(0x60, 0x81)] } (fun s => s.pc == 0x011 &&
    s.acc == 0x11 && lookup s.mem 0x60 == some 0xC0 && s.flags.c == false && s.flags.z == false) = true := by decide

/-- V92 of 95_test_vectors.md: `RRCA [60H]`. -/
theorem test_rrca : answers 0x1B60#16
    { ready with acc := 0x11, flags := { ready.flags with c := false }, mem := [(0x60, 0x01)] } (fun s =>
    s.pc == 0x011 && s.acc == 0x00 && lookup s.mem 0x60 == some 0x01 && s.flags.c == true &&
    s.flags.z == false) = true := by decide

/-- V93 of 95_test_vectors.md: `RRC [60H]`. -/
theorem test_rrc : answers 0x1BE0#16
    { ready with acc := 0x11, flags := { ready.flags with c := true }, mem := [(0x60, 0x02)] } (fun s =>
    s.pc == 0x011 && s.acc == 0x11 && lookup s.mem 0x60 == some 0x81 && s.flags.c == false &&
    s.flags.z == false) = true := by decide

/-- V94 of 95_test_vectors.md: `RLA [60H]`. -/
theorem test_rla : answers 0x1860#16 { ready with acc := 0x11, mem := [(0x60, 0x80)] } (fun s => s.pc == 0x011 &&
    s.acc == 0x01 && lookup s.mem 0x60 == some 0x80 && s.flags.c == false && s.flags.z == false) = true := by decide

/-- V100 of 95_test_vectors.md: `RL [0AH]`. -/
theorem test_rl : answers 0x188A#16
    { ready with flags := { ready.flags with c := true, ac := false, z := true, ov := false, timeOut := true, pdf := false } } (fun s =>
    s.pc == 0x011 && s.flags.toByte == 0x2A) = true := by decide

/-- V96 of 95_test_vectors.md: `RLCA [60H]`. -/
theorem test_rlca : answers 0x1A60#16
    { ready with acc := 0x11, flags := { ready.flags with c := true }, mem := [(0x60, 0x80)] } (fun s =>
    s.pc == 0x011 && s.acc == 0x01 && lookup s.mem 0x60 == some 0x80 && s.flags.c == true &&
    s.flags.z == false) = true := by decide

/-- V98 of 95_test_vectors.md: `RLC [05H]`. -/
theorem test_rlc : answers 0x1A85#16 { ready with acc := 0xFF, flags := { ready.flags with c := false } } (fun s =>
    s.pc == 0x011 && s.acc == 0xFE && s.flags.c == true) = true := by decide

/-- V117 of 95_test_vectors.md: `MOV A,[0AH]`. -/
theorem test_movAm : answers 0x070A#16
    { ready with flags := { ready.flags with c := true, ac := true, z := false, ov := true, timeOut := true, pdf := true } } (fun s =>
    s.pc == 0x011 && s.acc == 0x3B) = true := by decide

/-- V234 of 95_test_vectors.md: `MOV A,[20H]`. -/
theorem test_movAm_again : answers 0x0720#16
    { ready with timer := { ready.timer with ta := 0x12EF, tb := 0x00 } } (fun s => s.pc == 0x011 && s.acc == 0x12 &&
    s.timer.lbuf == 0xEF && s.timer.src == .rdA) = true := by decide

/-- V116 of 95_test_vectors.md: `MOV [06H],A`. -/
theorem test_movmA : answers 0x0086#16 { ready with pc := 0x1FF, acc := 0x00 } (fun s => s.pc == 0x200) = true := by
    decide

/-- V231 of 95_test_vectors.md: `MOV [23H],A`. -/
theorem test_movmA_again : answers 0x00A3#16
    { ready with acc := 0xFC, timer := { ready.timer with ta := 0x00, tb := 0x00, lbuf := 0x18, src := .wrB }, tmrc := { ready.tmrc with ton := false } } (fun s =>
    s.pc == 0x011 && s.timer.ta == 0xFC18 && s.timer.tb == 0xFC18 && s.timer.lbuf == 0x18 &&
    s.timer.src == .wrB) = true := by decide

/-- V113 of 95_test_vectors.md: `MOV A,01H`. -/
theorem test_movAx : answers 0x0F01#16 ready (fun s => s.pc == 0x011 && s.acc == 0x01) = true := by decide

/-- V130 of 95_test_vectors.md: `CLR [60H].3`. -/
theorem test_clrBit : answers 0x35E0#16 { ready with mem := [(0x60, 0xFF)] } (fun s => s.pc == 0x011 &&
    lookup s.mem 0x60 == some 0xF7) = true := by decide

/-- V135 of 95_test_vectors.md: `SET [12H].0`. -/
theorem test_setBit : answers 0x3012#16
    { ready with port := { ready.port with latch := 0x00, pac := 0xF0, pads := 0xA5 } } (fun s => s.pc == 0x011 &&
    s.port.latch == 0xA1) = true := by decide

/-- V133 of 95_test_vectors.md: `SET [0AH].5`. -/
theorem test_setBit_again : answers 0x328A#16 { ready with flags := { ready.flags with timeOut := false } } (fun s =>
    s.pc == 0x011 && s.flags.timeOut == false && s.flags.toByte == 0x00) = true := by decide

/-- V181 of 95_test_vectors.md: `JMP 3FFH`. -/
theorem test_jmp : answers 0x2BFF#16 { ready with pc := 0x00 } (fun s => s.pc == 0x3FF) = true := by decide

/-- V165 of 95_test_vectors.md: `SZ [60H]`. -/
theorem test_sz : answers 0x10E0#16 { ready with pc := 0x3FF, mem := [(0x60, 0x00)] } (fun s =>
    s.pc == 0x01) = true := by decide

/-- V151 of 95_test_vectors.md: `SZ [60H]`. -/
theorem test_sz_again : answers 0x10E0#16 { ready with pc := 0x20, mem := [(0x60, 0x01)] } (fun s =>
    s.pc == 0x21) = true := by decide

/-- V153 of 95_test_vectors.md: `SZA [60H]`. -/
theorem test_sza : answers 0x1060#16 { ready with pc := 0x20, acc := 0x99, mem := [(0x60, 0x42)] } (fun s =>
    s.acc == 0x42 && s.pc == 0x21) = true := by decide

/-- V154 of 95_test_vectors.md: `SZ [60H].0`. -/
theorem test_szBit : answers 0x3C60#16 { ready with pc := 0x30, mem := [(0x60, 0xFE)] } (fun s =>
    s.pc == 0x32) = true := by decide

/-- V156 of 95_test_vectors.md: `SNZ [0BH].4`. -/
theorem test_snzBit : answers 0x3A0B#16 { ready with pc := 0x30, intc := { ready.intc with tf := true } } (fun s =>
    s.pc == 0x32 && s.intc.tf == true) = true := by decide

/-- V158 of 95_test_vectors.md: `SIZ [60H]`. -/
theorem test_siz : answers 0x16E0#16
    { ready with pc := 0x40, flags := { ready.flags with z := false }, mem := [(0x60, 0xFF)] } (fun s =>
    lookup s.mem 0x60 == some 0x00 && s.pc == 0x42 && s.flags.z == false) = true := by decide

/-- V161 of 95_test_vectors.md: `SDZ [60H]`. -/
theorem test_sdz : answers 0x17E0#16 { ready with pc := 0x40, mem := [(0x60, 0x00)] } (fun s =>
    lookup s.mem 0x60 == some 0xFF && s.pc == 0x41) = true := by decide

/-- V162 of 95_test_vectors.md: `SIZA [60H]`. -/
theorem test_siza : answers 0x1660#16 { ready with pc := 0x40, acc := 0x99, mem := [(0x60, 0xFF)] } (fun s =>
    s.acc == 0x00 && lookup s.mem 0x60 == some 0xFF && s.pc == 0x42) = true := by decide

/-- V164 of 95_test_vectors.md: `SDZA [60H]`. -/
theorem test_sdza : answers 0x1760#16 { ready with pc := 0x40, acc := 0x99, mem := [(0x60, 0x02)] } (fun s =>
    s.acc == 0x01 && lookup s.mem 0x60 == some 0x02 && s.pc == 0x41) = true := by decide

/-- V184 of 95_test_vectors.md: `CALL 300H`. -/
theorem test_call : answers 0x2300#16 { ready with pc := 0x200, sp := 2, stk0 := 0x11, stk1 := 0x101 } (fun s =>
    s.pc == 0x300 && s.sp == 2 && s.stk0 == 0x101 && s.stk1 == 0x201) = true := by decide

/-- V185 of 95_test_vectors.md: `CALL 000H`. -/
theorem test_call_again : answers 0x2000#16 { ready with pc := 0x3FF, sp := 0 } (fun s => s.pc == 0x00 && s.sp == 1 &&
    s.stk0 == 0x00) = true := by decide

/-- V187 of 95_test_vectors.md: `RET`. -/
theorem test_ret : answers 0x0003#16 { ready with pc := 0x200, sp := 2, stk0 := 0x11, stk1 := 0x101 } (fun s =>
    s.pc == 0x101 && s.sp == 1 && s.stk0 == 0x11) = true := by decide

/-- V189 of 95_test_vectors.md: `RET A,3FH`. -/
theorem test_retAx : answers 0x093F#16 { ready with pc := 0x100, sp := 1, stk0 := 0x11, acc := 0x00 } (fun s =>
    s.pc == 0x11 && s.sp == 0 && s.acc == 0x3F) = true := by decide

/-- V190 of 95_test_vectors.md: `RETI`. -/
theorem test_reti : answers 0x0004#16
    { ready with pc := 0x04, sp := 1, stk0 := 0x55, intc := { ready.intc with emi := false } } (fun s =>
    s.pc == 0x55 && s.sp == 0 && s.intc.emi == true) = true := by decide

/-- V202 of 95_test_vectors.md: `TABRDC [60H]`. -/
theorem test_tabrdc : answers 0x1D60#16 { ready with pc := 0x1FF, tblp := 0x10, rom := [(0x210, 0xBEEF)] } (fun s =>
    s.pc == 0x200 && lookup s.mem 0x60 == some 0xEF && s.tblh == 0xBE && s.tblp == 0x10) = true := by decide

/-- V206 of 95_test_vectors.md: `TABRDL [06H]`. -/
theorem test_tabrdl : answers 0x1D86#16 { ready with pc := 0x20, tblp := 0x01, rom := [(0x301, 0x0040)] } (fun s =>
    s.pc == 0x40 && s.tblh == 0x00) = true := by decide

/-- V205 of 95_test_vectors.md: `TABRDL [08H]`. -/
theorem test_tabrdl_again : answers 0x1D88#16
    { ready with tblp := 0x00, tblh := 0x00, rom := [(0x300, 0x7788)] } (fun s => s.pc == 0x011 &&
    s.tblh == 0x77) = true := by decide

/-- V250 of 95_test_vectors.md: `NOP`. -/
theorem test_nop : answers 0x0000#16 ready (fun s => s.pc == 0x11) = true := by decide

/-- V253 of 95_test_vectors.md: `CLR [0AH]`. -/
theorem test_clrMem : answers 0x1F0A#16
    { ready with flags := { ready.flags with c := true, ac := true, z := true, ov := true, timeOut := true, pdf := true } } (fun s =>
    s.pc == 0x011 && s.flags.toByte == 0x30) = true := by decide

/-- V255 of 95_test_vectors.md: `SET [0BH]`. -/
theorem test_setMem : answers 0x1F8B#16 ready (fun s => s.pc == 0x011 && s.intc.toByte == 0x37) = true := by decide

/-- V259 of 95_test_vectors.md: `CLR WDT`. -/
theorem test_clrWdt : answers 0x0001#16
    { ready with flags := { ready.flags with timeOut := true, pdf := true }, wdt := { ready.wdt with age := 30000 } } (fun s =>
    s.pc == 0x011 && s.wdt.age == 0 && s.flags.timeOut == false && s.flags.pdf == false && s.wdt.w1 == false &&
    s.wdt.w2 == false) = true := by decide

/-- V260 of 95_test_vectors.md: `CLR WDT1`. -/
theorem test_clrWdt1 : answers 0x0006#16
    { ready with flags := { ready.flags with timeOut := true, pdf := true }, wdt := { ready.wdt with age := 30000, w1 := false, w2 := false } } (fun s =>
    s.pc == 0x011 && s.wdt.age == 30000 && s.flags.timeOut == true && s.flags.pdf == true && s.wdt.w1 == true &&
    s.wdt.w2 == false) = true := by decide

/-- V261 of 95_test_vectors.md: `CLR WDT2`. -/
theorem test_clrWdt2 : answers 0x0005#16
    { ready with flags := { ready.flags with timeOut := true, pdf := true }, wdt := { ready.wdt with age := 30000, w1 := true, w2 := false } } (fun s =>
    s.pc == 0x011 && s.wdt.age == 0 && s.flags.timeOut == false && s.flags.pdf == false && s.wdt.w1 == false &&
    s.wdt.w2 == false) = true := by decide

/-- V257 of 95_test_vectors.md: `SWAP [60H]`. -/
theorem test_swap : answers 0x11E0#16 { ready with mem := [(0x60, 0xA5)] } (fun s => s.pc == 0x011 &&
    lookup s.mem 0x60 == some 0x5A) = true := by decide

/-- V258 of 95_test_vectors.md: `SWAPA [60H]`. -/
theorem test_swapa : answers 0x1160#16 { ready with acc := 0x00, mem := [(0x60, 0x1F)] } (fun s => s.pc == 0x011 &&
    s.acc == 0xF1 && lookup s.mem 0x60 == some 0x1F) = true := by decide

/-- V265 of 95_test_vectors.md: `HALT`. -/
theorem test_halt : answers 0x0002#16
    { ready with pc := 0x50, flags := { ready.flags with timeOut := true, pdf := false }, wdt := { ready.wdt with age := 30000, w1 := true } } (fun s =>
    s.pc == 0x51 && s.flags.timeOut == false && s.flags.pdf == true && s.halted && s.wdt.age == 0 &&
    s.wdt.w1 == false && s.wdt.w2 == false) = true := by decide

/-! ## One step of the machine -/

/-- A step that answers a next state that passes the check. -/
def steps (s : State) (p : State → Bool) : Bool :=
  match step s with
  | .next s1 => p s1
  | .fault _ => false
  | .refused _ => false

/-- R307, R421: the entry of the timer/event counter interrupt, two cycles after which the PC is 004H. -/
theorem test_step_enters_interrupt :
    steps { ready with entering := some .timer, intc := { ready.intc with emi := true, eti := true, tf := true } } (fun s =>
      s.pc == 0x004 && s.stk0 == 0x010 && s.sp == 1 && s.intc.emi == false && s.intc.tf == false && s.mft == 8) = true := by
  decide

/-- R319, R420: a NOP takes four clocks of the multi-function timer and the watchdog. -/
theorem test_step_nop :
    steps { ready with rom := [(0x10, 0x0000)] } (fun s => s.pc == 0x011 && s.mft == 4 && s.wdt.age == 4) = true := by decide

/-- R126: an unassigned word is the named stop. -/
theorem test_step_illegal :
    (match step { ready with rom := [(0x10, 0x0007)] } with
      | .fault f => f == .illegalWord 0x010 0x0007
      | _ => false) = true := by decide

/-! ## States for the witnesses -/

/-- RAM location 60H holds 3CH and 7FH holds C3H. -/
def withRam : State := { ready with acc := 0x51, mem := [(0x60, 0x3C), (0x7F, 0xC3)] }

/-- A/D converter mode with the counter off. -/
def converter : State := { ready with adcr := { ready.adcr with adc := true } }

/-- In HALT, with the counter off. -/
def asleep : State := { ready with halted := true, flags := { ready.flags with pdf := true } }

/-- In HALT with the oscillator off by mask option. -/
def frozen : State := { asleep with par := { parameters with mask := { parameters.mask with oscOnAtHalt := false } } }

/-- Both interrupts enabled and requested. -/
def requested : State :=
  { ready with intc := { emi := true, eti := true, etbi := true, tf := true, tbf := true }, rom := [(0x10, 0x0000)] }

/-- A target that is no register with conditions accepts every write. -/
theorem accepted_plain (a : Access) (t : Target) (v : Byte) (s : State) (h1 : ¬TimerLocation t) (h2 : t ≠ .bank0 0x22)
    (h3 : t ≠ .bank0 0x25) : WriteAccepted a t v s :=
  ⟨fun _ _ h => absurd h h1, fun h => absurd h h2, fun h => absurd h h3⟩

/-- RAM is no timer location. -/
theorem ram_no_timer : ¬TimerLocation (.bank0 0x60) ∧ ¬TimerLocation (.bank0 0x7F) ∧ ¬TimerLocation (.bank0 0x05) := by
  unfold TimerLocation
  decide

/-- The operand that the witnesses of the instructions use, at both ends of RAM and at a register. -/
theorem operand_ram : Operand .other 0x60 withRam (.bank0 0x60) 0x3C ∧ Operand .other 0x7F withRam (.bank0 0x7F) 0xC3 ∧
    Operand .other 0x05 withRam (.bank0 0x05) 0x51 ∧ Operand .mov 0x60 withRam (.bank0 0x60) 0x3C :=
  ⟨⟨rfl, _, rfl⟩, ⟨rfl, _, rfl⟩, ⟨rfl, _, rfl⟩, ⟨rfl, _, rfl⟩⟩

/-- A state without anything special has the invariant. -/
theorem inv_of (s : State) (h1 : Memory.wf s.mem = true) (h2 : Rom.wf s.rom = true) (h3 : s.tmrc.ton = false)
    (h4 : s.halted = true → s.intc.tbf = false ∧ s.flags.pdf = true ∧ s.flags.timeOut = false) (h5 : s.timer.pwRun = false)
    (h6 : s.wdt.age = 0) (h7 : s.resLow = false) (h8 : s.entering = none) : s.Inv where
  memory := h1
  program := h2
  mode := by simp [countMode, h3]
  haltMode := fun _ => by simp [countsOutside, h3]
  haltFlags := fun h => (h4 h).2
  haltTimeBase := fun h _ _ => (h4 h).1
  pulse := by simp [h5]
  watchdog := by simp [h6]
  held := fun h => absurd h (by simp [h7])
  entry := .inl h8

/-! ## Witnesses: encoding -/

/-- Another value of ENC: three words. -/
def otherTable : List (Word × Instr) := [(0x1234, .nop), (0x0000, .clrBit 0x7F 7), (0xFFFF, .jmp 0x3FF)]

/-- A list of three words, of which the last is asked for, and the ends of the operands of the default encoding. -/
theorem witness_DecodeOfEncodeIsIdentity :
    ((Instr.clrBit 0x00 0).wf = true ∧ (Instr.snzBit 0x7F 7).wf = true ∧ (Instr.jmp 0x3FF).wf = true) ∧
      (otherTable.map Prod.fst).Nodup ∧ (Encoding.listed otherTable).encode (.jmp 0x3FF) = some 0xFFFF ∧
      (otherTable.map Prod.snd).Nodup ∧ (Encoding.listed otherTable).decode 0xFFFF = .ok (.jmp 0x3FF) := by
  refine ⟨?_, ?_, ?_, ?_, ?_⟩ <;> decide

theorem witness_EncodeOfDecodeIsIdentity :
    decode 0x0000#16 = .ok .nop ∧ decode 0x3FFF#16 = .ok (.szBit 0x7F 7) ∧ decode 0x0080#16 = .ok (.movmA 0x00) := by decide

/-- A state that fetches the word. -/
theorem fetchWord_placed (w : Word) : fetchWord { ready with rom := [(0x10, w)] } = w := by rfl

/-- The ends of the ranges of R126. -/
theorem unassigned_words :
    ∀ w ∈ [(0x0007 : Word), 0x007F, 0x0780, 0x08FF, 0x1C00, 0x1CFF, 0x1E00, 0x1E7F, 0x2400, 0x27FF, 0x2C00, 0x2FFF, 0x4000, 0xFFFF],
      Encoding.provisional.decode w = .error (.illegalWord w) := by
  simp only [List.forall_mem_cons]
  refine ⟨?_, ?_, ?_, ?_, ?_, ?_, ?_, ?_, ?_, ?_, ?_, ?_, ?_, ?_, by simp⟩ <;> decide

theorem otherTable_unlisted : (Encoding.listed otherTable).decode 0x0001 = .error (.illegalWord 0x0001) := by rfl

/-- An unassigned word of every range, at a PC that fetches it under the default encoding, and a word that another one does not
list. -/
theorem witness_UnassignedWordsAreIllegal :
    (∀ w ∈ [(0x0007 : Word), 0x007F, 0x0780, 0x08FF, 0x1C00, 0x1CFF, 0x1E00, 0x1E7F, 0x2400, 0x27FF, 0x2C00, 0x2FFF, 0x4000, 0xFFFF],
      ∃ s : State, s.resLow = false ∧ s.halted = false ∧ s.entering = none ∧ fetchWord s = w ∧
        s.par.enc.decode w = .error (.illegalWord w)) ∧
      ∃ s : State, s.par.enc ≠ .provisional ∧ fetchWord s = 0x0001 ∧ s.par.enc.decode 0x0001 = .error (.illegalWord 0x0001) :=
  ⟨fun w hw => ⟨{ ready with rom := [(0x10, w)] }, rfl, rfl, rfl, fetchWord_placed w, unassigned_words w hw⟩,
    { ready with rom := [(0x10, 0x0001)], par := { parameters with enc := .listed otherTable } }, by decide,
    fetchWord_placed 0x0001, otherTable_unlisted⟩

/-! ## Witnesses: instructions -/

theorem witness_AdditionToAccumulator : Operand .other 0x60 withRam (.bank0 0x60) 0x3C := operand_ram.1

theorem witness_SubtractionToAccumulator : Operand .other 0x7F withRam (.bank0 0x7F) 0xC3 := operand_ram.2.1

theorem witness_AdditionToMemory :
    Operand .other 0x60 withRam (.bank0 0x60) 0x3C ∧ Target.bank0 0x60 ≠ .bank0 0x0A ∧
      WriteAccepted .other (.bank0 0x60) (sumByte withRam.acc 0x3C false) withRam ∧
      WriteAccepted .other (.bank0 0x60) (sumByte withRam.acc 0x3C withRam.flags.c) withRam :=
  ⟨operand_ram.1, by decide, accepted_plain _ _ _ _ ram_no_timer.1 (by decide) (by decide),
    accepted_plain _ _ _ _ ram_no_timer.1 (by decide) (by decide)⟩

theorem witness_SubtractionToMemory :
    Operand .other 0x7F withRam (.bank0 0x7F) 0xC3 ∧ Target.bank0 0x7F ≠ .bank0 0x0A ∧
      WriteAccepted .other (.bank0 0x7F) (differenceByte withRam.acc 0xC3 true) withRam ∧
      WriteAccepted .other (.bank0 0x7F) (differenceByte withRam.acc 0xC3 withRam.flags.c) withRam :=
  ⟨operand_ram.2.1, by decide, accepted_plain _ _ _ _ ram_no_timer.2.1 (by decide) (by decide),
    accepted_plain _ _ _ _ ram_no_timer.2.1 (by decide) (by decide)⟩

/-- V46: 9FH becomes 05H. -/
theorem witness_DecimalAdjustment :
    ∃ (s : State) (r : Byte), resolve s 0x60 = .ok (.bank0 0x60) ∧ Target.bank0 0x60 ≠ .bank0 0x0A ∧
      (∀ lo hi ac1 : Nat, lo = s.acc.toNat % 16 → hi = s.acc.toNat / 16 → (ac1 = if 9 < lo then 1 else 0) →
        r.toNat % 16 = (if 9 < lo ∨ s.flags.ac = true then (lo + 6) % 16 else lo) ∧
        r.toNat / 16 = (if 9 < hi + ac1 ∨ s.flags.c = true then (hi + 6 + ac1) % 16 else (hi + ac1) % 16)) ∧
      WriteAccepted .other (.bank0 0x60) r s := by
  refine ⟨{ ready with acc := 0x9F }, 0x05, rfl, by decide, ?_,
    accepted_plain _ _ _ _ ram_no_timer.1 (by decide) (by decide)⟩
  rintro _ _ _ rfl rfl rfl
  decide

/-- 99 and 99, and 0 and 0. -/
theorem witness_DecimalAdditionIsCorrect :
    (∃ s : State, s.acc.toNat = 16 * 9 + 9 ∧ (0x99 : Byte).toNat = 16 * 9 + 9 ∧ resolve s 0x7F = .ok (.bank0 0x7F)) ∧
      ∃ s : State, s.acc.toNat = 16 * 0 + 0 ∧ (0x00 : Byte).toNat = 16 * 0 + 0 ∧ resolve s 0x60 = .ok (.bank0 0x60) :=
  ⟨⟨{ ready with acc := 0x99 }, rfl, rfl, rfl⟩, ⟨ready, rfl, rfl, rfl⟩⟩

theorem witness_LogicAndStepToAccumulator : Operand .other 0x05 withRam (.bank0 0x05) 0x51 := operand_ram.2.2.1

theorem witness_LogicAndStepToMemory :
    Operand .other 0x60 withRam (.bank0 0x60) 0x3C ∧ Target.bank0 0x60 ≠ .bank0 0x0A ∧
      ∀ r : Byte, WriteAccepted .other (.bank0 0x60) r withRam :=
  ⟨operand_ram.1, by decide, fun _ => accepted_plain _ _ _ _ ram_no_timer.1 (by decide) (by decide)⟩

/-- 3CH turns into 1EH, 78H and C3H. -/
theorem witness_PlainRotateToAccumulator :
    Operand .other 0x60 withRam (.bank0 0x60) 0x3C ∧
      (∀ k : Fin 8, (0x1E : Byte).getLsbD k = (0x3C : Byte).getLsbD ((k + 1) % 8)) ∧
      (∀ k : Fin 8, (0x78 : Byte).getLsbD ((k + 1) % 8) = (0x3C : Byte).getLsbD k) ∧
      (∀ k : Fin 8, (0xC3 : Byte).getLsbD ((k + 4) % 8) = (0x3C : Byte).getLsbD k) :=
  ⟨operand_ram.1, by decide, by decide, by decide⟩

/-- C3H turns into E1H, 87H and 3CH. -/
theorem witness_PlainRotateInMemory :
    Operand .other 0x7F withRam (.bank0 0x7F) 0xC3 ∧ (∀ r : Byte, WriteAccepted .other (.bank0 0x7F) r withRam) ∧
      (∀ k : Fin 8, (0xE1 : Byte).getLsbD k = (0xC3 : Byte).getLsbD ((k + 1) % 8)) ∧
      (∀ k : Fin 8, (0x87 : Byte).getLsbD ((k + 1) % 8) = (0xC3 : Byte).getLsbD k) ∧
      (∀ k : Fin 8, (0x3C : Byte).getLsbD ((k + 4) % 8) = (0xC3 : Byte).getLsbD k) :=
  ⟨operand_ram.2.1, fun _ => accepted_plain _ _ _ _ ram_no_timer.2.1 (by decide) (by decide), by decide, by decide,
    by decide⟩

/-- With C = 0, C3H turns into 61H and 86H. -/
theorem witness_CarryRotateToAccumulator :
    Operand .other 0x7F withRam (.bank0 0x7F) 0xC3 ∧
      (∀ k : Fin 7, (0x61 : Byte).getLsbD k = (0xC3 : Byte).getLsbD (k + 1)) ∧ (0x61 : Byte).getLsbD 7 = withRam.flags.c ∧
      (∀ k : Fin 7, (0x86 : Byte).getLsbD (k + 1) = (0xC3 : Byte).getLsbD k) ∧ (0x86 : Byte).getLsbD 0 = withRam.flags.c :=
  ⟨operand_ram.2.1, by decide, by decide, by decide, by decide⟩

theorem witness_CarryRotateInMemory :
    Operand .other 0x60 withRam (.bank0 0x60) 0x3C ∧ Target.bank0 0x60 ≠ .bank0 0x0A ∧
      (∀ r : Byte, WriteAccepted .other (.bank0 0x60) r withRam) ∧
      (∀ k : Fin 7, (0x1E : Byte).getLsbD k = (0x3C : Byte).getLsbD (k + 1)) ∧ (0x1E : Byte).getLsbD 7 = withRam.flags.c ∧
      (∀ k : Fin 7, (0x78 : Byte).getLsbD (k + 1) = (0x3C : Byte).getLsbD k) ∧ (0x78 : Byte).getLsbD 0 = withRam.flags.c :=
  ⟨operand_ram.1, by decide, fun _ => accepted_plain _ _ _ _ ram_no_timer.1 (by decide) (by decide), by decide, by decide,
    by decide, by decide⟩

/-- Bit 7 and bit 0 of C3H and 3CH, cleared and set. -/
theorem witness_SingleBitWrite :
    Operand .other 0x7F withRam (.bank0 0x7F) 0xC3 ∧ (∀ r : Byte, WriteAccepted .other (.bank0 0x7F) r withRam) ∧
      (∀ k : Fin 8, k ≠ 7 → (0x43 : Byte).getLsbD k = (0xC3 : Byte).getLsbD k) ∧ (0x43 : Byte).getLsbD 7 = false ∧
      (∀ k : Fin 8, k ≠ 0 → (0xC3 : Byte).getLsbD k = (0xC3 : Byte).getLsbD k) ∧ (0xC3 : Byte).getLsbD 0 = true :=
  ⟨operand_ram.2.1, fun _ => accepted_plain _ _ _ _ ram_no_timer.2.1 (by decide) (by decide), by decide, by decide,
    by decide, by decide⟩

theorem witness_LoadAccumulator :
    Operand .mov 0x60 withRam (.bank0 0x60) 0x3C ∧ Target.bank0 0x60 ≠ .bank0 0x20 ∧ Target.bank0 0x60 ≠ .bank0 0x23 :=
  ⟨operand_ram.2.2.2, by decide, by decide⟩

/-- Every clause, in the mode it needs. -/
theorem witness_LoadFromTimer :
    (ready.adcr.adc = true → ready.tmrc.ton = false) ∧ resolve ready 0x20 = .ok (.bank0 0x20) ∧
      (∃ s : State, (s.adcr.adc = true → s.tmrc.ton = false) ∧ resolve s 0x21 = .ok (.bank0 0x21) ∧ s.timer.src = .rdA) ∧
      (converter.adcr.adc = true → converter.tmrc.ton = false) ∧ resolve converter 0x23 = .ok (.bank0 0x23) ∧
      ∃ s : State, (s.adcr.adc = true → s.tmrc.ton = false) ∧ resolve s 0x24 = .ok (.bank0 0x24) ∧ s.adcr.adc = true ∧
        s.timer.src = .rdB :=
  ⟨fun _ => rfl, rfl, ⟨{ ready with timer := { ready.timer with src := .rdA } }, fun _ => rfl, rfl, rfl⟩, fun _ => rfl, rfl,
    ⟨{ converter with timer := { converter.timer with src := .rdB } }, fun _ => rfl, rfl, rfl, rfl⟩⟩

theorem witness_StoreWithoutRead :
    resolve withRam 0x60 = .ok (.bank0 0x60) ∧ WriteAccepted .mov (.bank0 0x60) withRam.acc withRam ∧
      ∀ r : Byte, WriteAccepted .other (.bank0 0x60) r withRam :=
  ⟨rfl, accepted_plain _ _ _ _ ram_no_timer.1 (by decide) (by decide),
    fun _ => accepted_plain _ _ _ _ ram_no_timer.1 (by decide) (by decide)⟩

theorem witness_StoreToTimer :
    (ready.adcr.adc = true → ready.tmrc.ton = false) ∧ resolve ready 0x24 = .ok (.bank0 0x24) ∧
      resolve ready 0x23 = .ok (.bank0 0x23) ∧ (converter.adcr.adc = true → converter.tmrc.ton = false) ∧
      converter.adcr.adc = true ∧ resolve converter 0x21 = .ok (.bank0 0x21) ∧ resolve converter 0x20 = .ok (.bank0 0x20) :=
  ⟨fun _ => rfl, rfl, rfl, fun _ => rfl, rfl, rfl, rfl⟩

/-- The first location of the current page and the last location of the last one. -/
theorem witness_TableReads :
    ∃ (s : State) (w w' : Word), resolve s 0x60 = .ok (.bank0 0x60) ∧
      WriteAccepted .other (.bank0 0x60) (w.extractLsb' 0 8) s ∧ WriteAccepted .other (.bank0 0x60) (w'.extractLsb' 0 8) s ∧
      w = romRead s ((s.pc + 1).extractLsb' 8 2 ++ s.tblp) ∧ w' = romRead s (0x300 + s.tblp.setWidth 10) :=
  ⟨{ ready with rom := [(0x0FF, 0x1234), (0x3FF, 0xBEEF)], tblp := 0xFF }, 0x1234, 0xBEEF, rfl,
    accepted_plain _ _ _ _ ram_no_timer.1 (by decide) (by decide), accepted_plain _ _ _ _ ram_no_timer.1 (by decide) (by decide),
    by decide, by decide⟩

/-- The stack empty, with one address and with two. -/
theorem witness_JumpsCallsAndReturns :
    ready.sp = 0 ∧ (∃ s : State, s.sp = 1 ∧ (0x055 : PAddr) = s.stk0 ∧ (0 : Fin 3) = 0) ∧
      ∃ s : State, s.sp = 2 ∧ (0x3FF : PAddr) = s.stk1 ∧ (1 : Fin 3) = 1 :=
  ⟨rfl, ⟨{ ready with sp := 1, stk0 := 0x055 }, rfl, rfl, rfl⟩, ⟨{ ready with sp := 2, stk1 := 0x3FF }, rfl, rfl, rfl⟩⟩

theorem witness_SkipTests : Operand .other 0x60 withRam (.bank0 0x60) 0x3C := operand_ram.1

theorem witness_SkipAfterStep :
    Operand .other 0x60 withRam (.bank0 0x60) 0x3C ∧ Target.bank0 0x60 ≠ .bank0 0x06 ∧
      ∀ r : Byte, WriteAccepted .other (.bank0 0x60) r withRam :=
  ⟨operand_ram.1, by decide, fun _ => accepted_plain _ _ _ _ ram_no_timer.1 (by decide) (by decide)⟩

/-- The watchdog enabled, with each mark set and clear, and disabled. -/
theorem witness_WatchdogClearsAndNop :
    (ready.par.mask.wdtEn = true ∧ ready.wdt.w1 = false ∧ ready.wdt.w2 = false) ∧
      (∃ s : State, s.par.mask.wdtEn = true ∧ s.wdt.w1 = true ∧ s.wdt.w2 = true) ∧ ∃ s : State, s.par.mask.wdtEn = false :=
  ⟨⟨rfl, rfl, rfl⟩, ⟨{ ready with wdt := { age := 30000, w1 := true, w2 := true } }, rfl, rfl, rfl⟩,
    ⟨{ ready with par := { parameters with mask := { parameters.mask with wdtEn := false } } }, rfl⟩⟩

/-- The counter off, and on in timer mode. -/
theorem witness_HaltEntersPowerDown :
    (ready.tmrc.ton = true → ready.adcr.adc = false ∧ ready.tmrc.tm1 = true ∧ ready.tmrc.tm0 = false) ∧
      ∃ s : State, s.tmrc.ton = true ∧
        (s.tmrc.ton = true → s.adcr.adc = false ∧ s.tmrc.tm1 = true ∧ s.tmrc.tm0 = false) :=
  ⟨fun h => absurd h (by decide),
    ⟨{ ready with tmrc := { te := false, ton := true, tm0 := false, tm1 := true } }, rfl, fun _ => ⟨rfl, rfl, rfl⟩⟩⟩

/-! ## Witnesses: stops and addressing -/

/-- Each clause at the ends of its range. -/
theorem witness_UnresolvedOperandStops :
    memoryOperand (.addAm 0x00) = some 0x00 ∧ memoryOperand (.inc 0x02) = some 0x02 ∧
      (∃ s : State, 0x80 ≤ s.mp0.toNat ∧ (s.bp = 0x00 ∨ s.bp = 0x01) ∧ 0x80 ≤ s.mp1.toNat) ∧
      (∃ s : State, s.bp = 0x01 ∧ (s.mp1.toNat < 0x40 ∨ 0x4D < s.mp1.toNat) ∧ s.mp1.toNat < 0x80) ∧
      ∃ s : State, s.bp ≠ 0x00 ∧ s.bp ≠ 0x01 :=
  ⟨rfl, rfl, ⟨{ ready with mp0 := 0x80, mp1 := 0xFF, bp := 0x01 }, by decide, by decide, by decide⟩,
    ⟨{ ready with bp := 0x01, mp1 := 0x4E }, by decide, by decide, by decide⟩, ⟨{ ready with bp := 0x02 }, by decide, by decide⟩⟩

theorem witness_RefusedForms :
    resolve ready 0x0A = .ok (.bank0 0x0A) ∧ Instr.inc 0x0A ∈ statusForbidden 0x0A ∧ resolve ready 0x06 = .ok (.bank0 0x06) ∧
      resolve ready 0x20 = .ok (.bank0 0x20) ∧ TimerLocation (.bank0 0x20) ∧
      (memoryOperand (.inc 0x20) = some 0x20 ∧ Instr.inc 0x20 ≠ .movAm 0x20 ∧ Instr.inc 0x20 ≠ .movmA 0x20) ∧ ready.sp = 0 :=
  ⟨rfl, by decide, rfl, rfl, .inl rfl, by decide, rfl⟩

/-- MOV, SET, INC and CLR [m].i, with what they would write. -/
theorem witness_RefusedCounterForms :
    (∃ s : State, resolve s 0x24 = .ok (.bank0 0x24) ∧ s.adcr.adc = true ∧ s.tmrc.ton = true) ∧
      (ready.adcr.adc = false ∧ resolve ready 0x23 = .ok (.bank0 0x23) ∧ resolve ready 0x21 = .ok (.bank0 0x21)) ∧
      (∃ s : State, resolve s 0x22 = .ok (.bank0 0x22) ∧ s.tmrc.ton = false ∧ s.acc = 0x10 ∧ s.adcr.adc = false) ∧
      (∃ s : State, Operand .other 0x22 s (.bank0 0x22) 0x08 ∧ storedByte s 0x08 (.setMem 0x22) = some 0xFF ∧
        s.tmrc.ton = false ∧ s.adcr.adc = true) ∧
      (∃ s : State, Operand .other 0x22 s (.bank0 0x22) 0x58 ∧ storedByte s 0x58 (.clrBit 0x22 3) = some 0x50 ∧
        s.tmrc.ton = true ∧ (0x50 : Byte).getLsbD 3 ≠ s.tmrc.te) ∧
      (∃ s : State, Operand .other 0x25 s (.bank0 0x25) 0x09 ∧ storedByte s 0x09 (.inc 0x25) = some 0x0A ∧ s.tmrc.ton = true ∧
        (0x0A : Byte).getLsbD 1 ≠ s.adcr.adc) ∧
      ∃ s : State, s.tmrc.ton = true ∧ (s.tmrc.tm0 = true ∨ s.adcr.adc = true) :=
  ⟨⟨{ converter with tmrc := { ready.tmrc with ton := true, tm1 := true } }, rfl, rfl, rfl⟩, ⟨rfl, rfl, rfl⟩,
    ⟨{ ready with acc := 0x10 }, rfl, rfl, rfl, rfl⟩, ⟨converter, ⟨rfl, _, rfl⟩, rfl, rfl, rfl⟩,
    ⟨{ ready with tmrc := { te := true, ton := true, tm0 := false, tm1 := true } }, ⟨rfl, _, rfl⟩, rfl, rfl, by decide⟩,
    ⟨{ ready with tmrc := { te := true, ton := true, tm0 := false, tm1 := true },
                  adcr := { ready.adcr with bon := true, ovb := true } }, ⟨rfl, _, rfl⟩, rfl, rfl, by decide⟩,
    ⟨{ ready with tmrc := { te := true, ton := true, tm0 := true, tm1 := true } }, rfl, .inl rfl⟩⟩

theorem witness_OperandAddressing :
    ((0x01 : DAddr) ≠ 0x00 ∧ (0x01 : DAddr) ≠ 0x02 ∧ (0x7F : DAddr) ≠ 0x00 ∧ (0x7F : DAddr) ≠ 0x02) ∧
      (∃ s : State, s.mp0.toNat < 0x80 ∧ s.mp0 ≠ 0x00 ∧ s.mp0 ≠ 0x02 ∧ s.bp = 0x00 ∧ s.mp1.toNat < 0x80 ∧ s.mp1 ≠ 0x00 ∧
        s.mp1 ≠ 0x02) ∧
      (∃ s : State, s.bp = 0x01 ∧ 0x40 ≤ s.mp1.toNat ∧ s.mp1.toNat ≤ 0x4D) ∧
      ∃ s : State, (s.mp0 = 0x00 ∨ s.mp0 = 0x02) ∧ s.bp = 0x00 ∧ (s.mp1 = 0x00 ∨ s.mp1 = 0x02) :=
  ⟨by decide, ⟨{ ready with mp0 := 0x7F, mp1 := 0x01 }, by decide⟩, ⟨{ ready with bp := 0x01, mp1 := 0x4D }, by decide⟩,
    ⟨{ ready with mp0 := 0x02 }, by decide⟩⟩

/-- The first and last address of each reserved range; RAM and LCD display memory with a byte stored and without. -/
theorem witness_LocationReads :
    (∀ e ∈ [(0x0C : Byte), 0x11, 0x14, 0x1F, 0x26, 0x5F],
      (0x0C ≤ e.toNat ∧ e.toNat ≤ 0x11) ∨ (0x14 ≤ e.toNat ∧ e.toNat ≤ 0x1F) ∨ (0x26 ≤ e.toNat ∧ e.toNat ≤ 0x5F)) ∧
      lookup withRam.mem 0x60 = some 0x3C ∧ lookup withRam.mem 0x7F = some 0xC3 ∧ lookup withRam.mem 0x61 = none ∧
      lookup withRam.mem 0x14D = none ∧ ∃ s : State, lookup s.mem (256 + (0x40 : Byte).toNat) = some 0x07 :=
  ⟨by decide, rfl, rfl, rfl, rfl, { ready with mem := [(0x140, 0x07)] }, rfl⟩

/-- The detector off, on and settled, and on and not settled; and a period with it on. -/
theorem witness_LowVoltageDetector :
    ready.adcr.bon = false ∧ (∃ s : State, s.adcr.bon = true ∧ s.par.lvdSettle ≤ s.lvdAge) ∧
      (∃ s : State, s.adcr.bon = true ∧ ¬s.par.lvdSettle ≤ s.lvdAge) ∧
      ∃ s s' : State, s.adcr.bon = true ∧ period s 4 1 false s = .next s' ∧ NoReset 4 (nextSample s) s :=
  ⟨rfl, ⟨{ ready with adcr := { ready.adcr with bon := true } }, rfl, by decide⟩,
    ⟨{ ready with adcr := { ready.adcr with bon := true }, par := { parameters with lvdSettle := 1 } }, rfl, by decide⟩,
    { ready with adcr := { ready.adcr with bon := true } }, _, rfl, rfl,
    ⟨rfl, rfl, fun _ _ => ⟨by decide, fun h => absurd h (by decide)⟩⟩⟩

/-- An input line; an output line of each kind, with each option on and off. -/
theorem witness_PadFunctions :
    ready.port.pac.getLsbD 7 = true ∧
      (∃ s : State, (∀ k : Fin 8, s.port.pac.getLsbD k = false) ∧ s.par.mask.pa01Bz = true ∧ s.par.mask.pa2El = true) ∧
      ∃ s : State, (∀ k : Fin 8, s.port.pac.getLsbD k = false) ∧ s.par.mask.pa01Bz = false ∧ s.par.mask.pa2El = false :=
  ⟨by decide,
    ⟨{ ready with port := { ready.port with pac := 0x00 },
                  par := { parameters with mask := { parameters.mask with pa01Bz := true, pa2El := true } } }, by decide, rfl, rfl⟩,
    ⟨{ ready with port := { ready.port with pac := 0x00 } }, by decide, rfl, rfl⟩⟩

/-! ## Witnesses: the whole machine -/

theorem witness_EffectsReservedToTheirInstructions :
    exec .nop ready = .next ready.advance ∧ Instr.nop ∉ [Instr.clrWdt, .clrWdt1, .clrWdt2, .halt] ∧ Instr.nop ≠ .ret ∧
      memoryOperand .nop = none ∧ ∃ s', exec (.inc 0x60) withRam = .next s' :=
  ⟨rfl, by decide, by decide, rfl, _, rfl⟩

/-- A skip taken and one not taken, a store and a table read at PCL and elsewhere, and an instruction of no other line. -/
theorem witness_InstructionCycles :
    Operand .other 0x60 withRam (.bank0 0x60) 0x3C ∧ (∃ s1, exec (.snzBit 0x60 5) withRam = .next s1) ∧
      (0x3C : Byte).getLsbD 5 = true ∧ (∃ s1, exec (.sdz 0x60) withRam = .next s1) ∧ (0x3C : Byte) ≠ 0x01 ∧
      resolve withRam 0x06 = .ok (.bank0 0x06) ∧ resolve withRam 0x60 = .ok (.bank0 0x60) ∧
      (∀ m b v, Instr.addAx 0x01 ∉ storingForms m b ∧ Instr.addAx 0x01 ∉ (skippingForms m b v).map Prod.fst) ∧
      ∀ a x, Instr.addAx 0x01 ∉ [Instr.jmp a, .call a, .ret, .retAx x, .reti] :=
  ⟨operand_ram.1, ⟨_, rfl⟩, by decide, ⟨_, rfl⟩, by decide, rfl, rfl,
    fun _ _ _ => ⟨by simp [storingForms], by simp [skippingForms]⟩, fun _ _ => by simp⟩

/-- The NOP at 010H that the witnesses about steps run. -/
def running : State := { ready with rom := [(0x10, 0x0000)] }

theorem running_inv : running.Inv := inv_of _ rfl rfl rfl (by decide) rfl rfl rfl rfl

theorem witness_StepRunsDecodedInstruction :
    running.resLow = false ∧ running.halted = false ∧ running.entering = none ∧
      running.par.enc.decode (fetchWord running) = .ok .nop :=
  ⟨rfl, rfl, rfl, by rfl⟩

theorem quiet_noReset (n : Nat) (s : State) (hs : nextSample s = quiet) (h : s.wdt.age + n < 0x8000) :
    NoReset n (nextSample s) s := by
  rw [hs]
  exact ⟨rfl, rfl, fun _ _ => ⟨by omega, fun h' => absurd h' (by omega)⟩⟩

/-- In timer/event counter mode, and in A/D converter mode with the counter off. -/
theorem witness_StepKeepsWhatTheInstructionDid :
    ∀ b : Bool, ∃ s : State, s.adcr.adc = b ∧ s.Inv ∧ s.resLow = false ∧ s.halted = false ∧ s.entering = none ∧
      s.par.enc.decode (fetchWord s) = .ok .nop ∧ exec .nop s = .next s.advance ∧
      (s.adcr.adc = true → s.tmrc.ton = false ∧ s.advance.tmrc.ton = false) ∧
      NoReset (4 * cycles .nop s s.advance) (nextSample s.advance) s.advance :=
  fun b => match b with
  | false => ⟨running, rfl, running_inv, rfl, rfl, rfl, by rfl, rfl, fun h => (by cases h), quiet_noReset _ _ rfl (by decide)⟩
  | true => ⟨{ running with adcr := { running.adcr with adc := true } }, rfl, inv_of _ rfl rfl rfl (by decide) rfl rfl rfl rfl,
    rfl, rfl, rfl, by rfl, rfl, fun _ => ⟨rfl, rfl⟩, quiet_noReset _ _ rfl (by decide)⟩

theorem witness_EveryStepKeepsTheInvariant : running.Inv ∧ ∃ s', step running = .next s' := ⟨running_inv, _, rfl⟩

/-! ## Witnesses: interrupts and resets -/

theorem witness_AcknowledgeCondition :
    (requested.halted = false ∧ requested.resLow = false) ∧ asleep.halted = true ∧ ∃ s : State, s.resLow = true :=
  ⟨⟨rfl, rfl⟩, rfl, { ready with resLow := true }, rfl⟩

theorem witness_InterruptEntrySequence :
    requested.sp = 0 ∧ ∃ s : State, s.sp = 1 := ⟨rfl, { requested with sp := 1 }, rfl⟩

/-- INT_SLIP = 0; INT_SLIP = 1 with a boundary that lets an instruction run; and the boundary after one that did. -/
theorem witness_InterruptIsEnteredAtTheBoundary :
    (∃ s1, requested.resLow = false ∧ step requested = .next s1 ∧ pendingInterrupt s1 = some .timer ∧
        s1.par.intSlip = false ∧ s1.entering = some .timer) ∧
      (∃ s s1 : State, s.resLow = false ∧ step s = .next s1 ∧ pendingInterrupt s1 = some .timer ∧
        s1.entering ≠ some .timer) ∧
      ∃ s s1 : State, s.resLow = false ∧ step s = .next s1 ∧ pendingInterrupt s1 = some .timer ∧ s.slipped = true ∧
        s.halted = false ∧ s.entering = none :=
  ⟨⟨_, rfl, rfl, by decide, by decide, by decide⟩,
    ⟨{ requested with par := { parameters with intSlip := true }, env := [{ quiet with slip := true }] }, _, rfl, rfl, by decide,
      by decide⟩,
    ⟨{ requested with par := { parameters with intSlip := true }, slipped := true }, _, rfl, rfl, by decide, rfl, rfl, rfl⟩⟩

/-- The handler that does nothing, and one that changed ACC and INTC, with the stack empty before and with one address. -/
theorem witness_InterruptAndReturn :
    ∀ sp ∈ [(0 : Fin 3), 1], ∃ s h : State, s.sp = sp ∧ s.sp.val < 2 ∧ h.sp = (takeInterrupt .timer s).sp ∧
      h.stk0 = (takeInterrupt .timer s).stk0 ∧ h.stk1 = (takeInterrupt .timer s).stk1 ∧
      h.intc ≠ (takeInterrupt .timer s).intc := by
  intro sp hsp
  refine ⟨{ requested with sp := sp }, { takeInterrupt .timer { requested with sp := sp } with acc := 0x12, intc := ready.intc },
    rfl, ?_, rfl, rfl, rfl, ?_⟩ <;> revert sp <;> decide

/-- Every kind of chip reset but power-on. -/
theorem witness_ChipResetProcedure : ∀ k ∈ [ChipReset.resN, .resH, .wdtN], k ≠ ChipReset.por := by decide

theorem asleep_inv : asleep.Inv := inv_of _ rfl rfl rfl (by decide) rfl rfl rfl rfl

theorem witness_ResetFlagTable : asleep.Inv ∧ asleep.halted = true := ⟨asleep_inv, rfl⟩

/-- A step that ends with RES low, one that begins with it low, and one of a held chip that is powered on again; and a period that
ends with RES low in a core that runs and in one that sleeps on, with the oscillator on and off, and with a counter that counts to
FFFFH and would wake it at an overflow. -/
theorem witness_ResetPadHoldsTheChip :
    (∃ s s' : State, s.Inv ∧ step s = .next s' ∧ s'.resLow = true) ∧
      (∀ b : Bool, ∃ s s' : State, s.Inv ∧ step s = .next s' ∧ s.resLow = true ∧ (nextSample s).powerOn = b) ∧
      (∀ b c : Bool, ∃ s s' : State, period s 1 0 false s = .next s' ∧ (nextSample s).powerOn = false ∧
        (nextSample s).resLow = true ∧ WatchdogSilent 1 (nextSample s) s ∧ s.halted = b ∧ s.par.mask.oscOnAtHalt = c ∧
        SleepsOn 1 s s) ∧
      ∃ s s' : State, period s 1 0 false s = .next s' ∧ (nextSample s).powerOn = false ∧ (nextSample s).resLow = true ∧
        WatchdogSilent 1 (nextSample s) s ∧ s.halted = true ∧ s.tmrc.ton = true ∧ s.intc.tf = false ∧
        s.par.tfWakesHalt = true ∧ s.timer.ta = 0xFFFE ∧ SleepsOn 1 s s := by
  have noTimeOut : ∀ j, 1 ≤ j → j ≤ 1 → ((0 : BitVec 15).toNat + j) % 2 ^ (8 + (7 : BitVec 3).toNat) ≠ 0 := by
    intro j h1 h2
    obtain rfl : j = 1 := by omega
    decide
  refine ⟨⟨{ running with env := [{ quiet with resLow := true }] }, _, inv_of _ rfl rfl rfl (by decide) rfl rfl rfl rfl, rfl, rfl⟩,
    fun b => ⟨{ ready with pc := 0, resLow := true, env := [{ quiet with powerOn := b }] }, _, ?_, rfl, rfl, rfl⟩,
    fun b c => ⟨{ ready with halted := b, env := [{ quiet with resLow := true }],
                             par := { parameters with mask := { parameters.mask with oscOnAtHalt := c } } }, _, rfl, rfl, rfl,
      fun _ _ => ⟨(by decide : 0 + 1 < 0x10000), fun h => absurd h (by decide : ¬0x8000 ≤ 0 + 1)⟩, rfl, rfl,
      fun _ => ⟨.inr ⟨rfl, noTimeOut⟩, .inl rfl⟩⟩,
    { asleep with tmrc := { te := true, ton := true, tm0 := false, tm1 := true }, timer := { ready.timer with ta := 0xFFFE },
                  par := { parameters with tfWakesHalt := true }, env := [{ quiet with resLow := true }] },
    _, rfl, rfl, rfl,
    fun _ _ => ⟨(by decide : 0 + 1 < 0x10000), fun h => absurd h (by decide : ¬0x8000 ≤ 0 + 1)⟩, rfl, rfl, rfl, rfl, rfl,
    fun _ => ⟨.inr ⟨rfl, noTimeOut⟩, .inr (.inr (.inr ⟨rfl, (by decide : 0xFFFE + 1 ≤ 0xFFFF)⟩))⟩⟩
  cases b <;> constructor <;> decide

/-! ## Witnesses: watchdog, counters -/

/-- The ends of the window, with one clock. -/
theorem witness_WatchdogWindow :
    parameters.mask.wdtEn = true ∧ ∀ a ∈ [(0x7FFE, 0x7FFF), (0x7FFF, 0x8000), (0xFFFE, 0xFFFF), (0xFFFF, 0x10000)],
      ({ ready with wdt := { ready.wdt with age := a.1 } } : State).wdt.age + 1 = a.2 := by decide

theorem witness_UnclearedWatchdogResetsTheChip :
    ∃ s s' : State, s.par.mask.wdtEn = true ∧ s.halted = false ∧ 0x10000 ≤ s.wdt.age + 4 ∧ (nextSample s).powerOn = false ∧
      (nextSample s).resLow = false ∧ period s 4 1 false s = .next s' :=
  ⟨{ ready with wdt := { ready.wdt with age := 0xFFFC } }, _, rfl, rfl, by decide, rfl, rfl, rfl⟩

/-- MOV A,[20H] reads the running counter; and the periods of a counter that runs, is off, starts and stops, with and without a read
of TMRAH, on the clock and on RCIN, in both of its uses. -/
theorem witness_CounterInAStep :
    resolve ready 0x20 = .ok (.bank0 0x20) ∧ ∀ a b adc tm drawn : Bool, ∃ before s1 s' : State,
      before.tmrc.ton = a ∧ s1.tmrc.ton = b ∧ s1.adcr.adc = adc ∧ s1.tmrc.tm1 = tm ∧ s1.tmrc.tm0 = (!tm) ∧
        period before 4 1 drawn s1 = .next s' ∧ NoReset 4 (nextSample s1) s1 := by
  refine ⟨rfl, fun a b adc tm drawn => ⟨{ ready with tmrc := { te := true, ton := a, tm0 := !tm, tm1 := tm } },
    { ready with tmrc := { te := true, ton := b, tm0 := !tm, tm1 := tm }, adcr := { ready.adcr with adc := adc } }, ?_⟩⟩
  cases a <;> cases b <;> cases adc <;> cases tm <;> cases drawn <;>
    exact ⟨_, rfl, rfl, rfl, rfl, rfl, rfl, rfl, rfl, fun _ _ => ⟨by decide, fun h => absurd h (by decide)⟩⟩

/-- A rising edge before the second clock and a falling one before the fourth. -/
def pulseIn : EnvSample := { quiet with pins := [[], [.rcinRise], [], [.rcinFall]] }

/-- The counter in pulse-width mode, armed, with both edges coming in one period of four clocks, two of them between the edges. -/
def measuring : State :=
  { ready with
    tmrc := { te := true, ton := true, tm0 := true, tm1 := true }, timer := { ready.timer with ta := 0xFFFD, pwArmed := true },
    env := [pulseIn] }

/-- That state meets the clause of the pulse-width mode, and the clocks between its edges are counted to FFFFH. -/
theorem witness_CounterInAStep_pulse :
    NoReset 4 (nextSample measuring) measuring ∧ clockEvents 4 (nextSample measuring).pins =
        [.clk] ++ .pin .rcinRise :: ([.clk, .clk] ++ .pin .rcinFall :: [.clk]) ∧
      ∃ s' : State, period measuring 4 1 false measuring = .next s' ∧ s'.timer.ta = 0xFFFF ∧ s'.tmrc.ton = false :=
  ⟨⟨rfl, rfl, fun _ _ => ⟨by decide, fun h => absurd h (by decide)⟩⟩, rfl, _, rfl, rfl, rfl⟩

/-- Timer mode, event counter mode and a running pulse-width measurement, at the count before the overflow. -/
theorem witness_CounterCountsAndOverflows :
    (∃ s : State, countMode s.tmrc s.adcr = .timer ∧ s.timer.ta.toNat + clocksIn [.clk] = 0xFFFF) ∧
      (∃ s : State, countMode s.tmrc s.adcr = .event ∧ s.tmrc.te = true ∧
        s.timer.ta.toNat + edgesIn s.tmrc.te [.clk, .pin .rcinFall] = 0xFFFF) ∧
      ∃ s : State, countMode s.tmrc s.adcr = .pulse ∧ s.timer.pwRun = true ∧ [ClockEvent.clk] = List.replicate 1 .clk ∧
        s.timer.ta.toNat + 1 = 0xFFFF :=
  ⟨⟨{ ready with tmrc := { te := false, ton := true, tm0 := false, tm1 := true }, timer := { ready.timer with ta := 0xFFFE } },
      by decide, by decide⟩,
    ⟨{ ready with tmrc := { te := true, ton := true, tm0 := true, tm1 := false }, timer := { ready.timer with ta := 0xFFFE } },
      by decide, rfl, by decide⟩,
    ⟨{ ready with tmrc := { te := true, ton := true, tm0 := true, tm1 := true },
                  timer := { ready.timer with ta := 0xFFFE, pwArmed := true, pwRun := true } }, by decide, rfl, rfl, by decide⟩⟩

theorem witness_PulseWidthMeasurement :
    ∃ s : State, countMode s.tmrc s.adcr = .pulse ∧ s.timer.pwArmed = true ∧ s.timer.pwRun = false ∧
      s.timer.ta.toNat + 0xFFFF ≤ 0xFFFF :=
  ⟨{ ready with tmrc := { te := true, ton := true, tm0 := true, tm1 := true },
                timer := { ready.timer with pwArmed := true } }, by decide, rfl, rfl, by decide⟩

/-- Each clause at its boundary, timer A or timer B one event before its overflow, on the clock and on RCIN. -/
theorem witness_ConversionEndsAtTheSelectedOverflow :
    (∃ s : State, countMode s.tmrc s.adcr = .adcExt ∧ s.tmrc.te = true ∧
      s.timer.ta.toNat + edgesIn s.tmrc.te [.pin .rcinFall, .pin .rcCycle] = 0xFFFF ∧
      s.timer.tb.toNat + rcCyclesIn [.pin .rcinFall, .pin .rcCycle] = 0xFFFF) ∧
    ∃ s : State, countMode s.tmrc s.adcr = .adcSys ∧
      s.timer.ta.toNat + clocksIn [.clk, .pin .rcCycle] = 0xFFFF ∧ s.timer.tb.toNat + rcCyclesIn [.clk, .pin .rcCycle] = 0xFFFF :=
  ⟨⟨{ converter with tmrc := { te := true, ton := true, tm0 := true, tm1 := false },
                     timer := { ready.timer with ta := 0xFFFE, tb := 0xFFFE } }, by decide, rfl, by decide, by decide⟩,
    { converter with tmrc := { te := true, ton := true, tm0 := false, tm1 := true },
                     timer := { ready.timer with ta := 0xFFFE, tb := 0xFFFE } }, by decide, by decide, by decide⟩

/-! ## Witnesses: HALT and the ends of a run -/

theorem frozen_inv : frozen.Inv := inv_of _ rfl rfl rfl (by decide) rfl rfl rfl rfl

theorem witness_StoppedOscillatorFreezesTheChip :
    frozen.Inv ∧ frozen.halted = true ∧ frozen.resLow = false ∧ frozen.par.mask.oscOnAtHalt = false ∧
      (nextSample frozen).powerOn = false ∧ (nextSample frozen).resLow = false ∧ NoStimulus (nextSample frozen) frozen :=
  ⟨frozen_inv, rfl, rfl, rfl, rfl, rfl, .inl rfl⟩

/-- A JMP to itself at 010H. -/
def idling : State := { ready with rom := [(0x10, 0x2810)] }

/-- CLR WDT at 010H and a JMP back to it at 011H. -/
def clearing : State := { ready with rom := [(0x10, 0x0001), (0x11, 0x2810)] }

/-- A permanent HALT with the oscillator off and one with it on; an idle loop at one address, and one that clears the watchdog, at
each of its two addresses; and an idle loop with interrupts enabled. -/
theorem witness_EndsOfARunLast :
    (frozen.Inv ∧ PermanentHalt frozen ∧ (nextSample frozen).powerOn = false ∧ (nextSample frozen).resLow = false ∧
        NoStimulus (nextSample frozen) frozen) ∧
      (∃ s : State, s.Inv ∧ PermanentHalt s ∧ s.par.mask.oscOnAtHalt = true) ∧
      (idling.Inv ∧ IdleLoop idling ∧ AtSelfJump idling ∧ WatchdogSilent 8 (nextSample idling) idling ∧
        idling.adcr.adc = false) ∧
      (clearing.Inv ∧ IdleLoop clearing ∧ ¬AtSelfJump clearing) ∧
      (∃ s : State, s.pc = 0x011 ∧ s.wdt.age = 4 ∧ IdleLoop s) ∧
      ∃ s : State, s.Inv ∧ OpenIdleLoop s :=
  ⟨⟨frozen_inv, ⟨rfl, rfl, rfl, fun h => absurd h (by decide)⟩, rfl, rfl, .inl rfl⟩,
    ⟨{ asleep with par := { parameters with mask := { parameters.mask with wdtEn := false } }, tbfAtHalt := true },
      inv_of _ rfl rfl rfl (by decide) rfl rfl rfl rfl, ⟨rfl, rfl, rfl, fun _ => ⟨rfl, rfl, .inl rfl⟩⟩, rfl⟩,
    ⟨inv_of _ rfl rfl rfl (by decide) rfl rfl rfl rfl, ⟨.inl ⟨by rfl, rfl, rfl⟩, rfl, rfl⟩, ⟨by rfl, rfl, rfl⟩,
      (quiet_noReset _ _ rfl (by decide)).2.2, rfl⟩,
    ⟨inv_of _ rfl rfl rfl (by decide) rfl rfl rfl rfl,
      ⟨.inr ⟨0x010, by rfl, by rfl, .inl ⟨⟨by rfl, rfl, rfl⟩, rfl⟩⟩, rfl, rfl⟩, fun h => absurd h.1 (by decide)⟩,
    ⟨{ clearing with pc := 0x011, wdt := { age := 4, w1 := false, w2 := false } }, rfl, rfl,
      .inr ⟨0x010, by rfl, by rfl, .inr ⟨⟨by rfl, rfl, rfl⟩, rfl, fun _ => by decide⟩⟩, rfl, rfl⟩,
    ⟨{ idling with intc := { idling.intc with emi := true } }, inv_of _ rfl rfl rfl (by decide) rfl rfl rfl rfl,
      .inl ⟨by rfl, rfl, rfl⟩, rfl, rfl⟩⟩

/-- A time base time-out; a port stimulus; an overflow, with both values of TF_WAKES_HALT, with TF at 0 and at 1 before; and a
count without an overflow, the last of them from FFFEH to FFFFH, with TF_WAKES_HALT true and no other way out of HALT. -/
theorem witness_WakeUpFromHalt :
    (∃ s : State, s.Inv ∧ s.halted = true ∧ s.resLow = false ∧ NoReset 1 (nextSample s) s ∧
        s.par.mask.oscOnAtHalt = true ∧ s.tbfAtHalt = false ∧ (s.mft.toNat + 1) % 2 ^ (8 + s.rt.toNat) = 0) ∧
      (∃ s : State, s.Inv ∧ s.halted = true ∧ s.resLow = false ∧ NoReset 1 (nextSample s) s ∧
        (nextSample s).paWake = true ∧ (nextSample s).pads ≠ s.port.pads) ∧
      ∀ (b tf : Bool), ∀ a ∈ [0xFFFF, 0xFFFE, 0x0000], ∃ s : State, s.Inv ∧ s.halted = true ∧ s.resLow = false ∧
        NoReset 1 (nextSample s) s ∧ s.par.mask.oscOnAtHalt = true ∧ s.tmrc.ton = true ∧ s.timer.ta = a ∧ s.intc.tf = tf ∧
        s.par.tfWakesHalt = b ∧ NoStimulus (nextSample s) s ∧ (s.mft.toNat + 1) % 2 ^ (8 + s.rt.toNat) ≠ 0 := by
  refine ⟨⟨{ asleep with mft := 0x7FFF }, inv_of _ rfl rfl rfl (by decide) rfl rfl rfl rfl, rfl, rfl,
      quiet_noReset _ _ rfl (by decide), rfl, rfl, by decide⟩,
    ⟨{ frozen with env := [{ quiet with paWake := true, pads := 0xFE }] },
      inv_of _ rfl rfl rfl (by decide) rfl rfl rfl rfl, rfl, rfl,
      ⟨rfl, rfl, fun _ _ => ⟨by decide, fun h => absurd h (by decide)⟩⟩, rfl, by decide⟩,
    fun b tf a _ => ⟨{ asleep with
                         tmrc := { te := true, ton := true, tm0 := false, tm1 := true },
                         timer := { ready.timer with ta := a }, intc := { asleep.intc with tf := tf },
                         par := { parameters with tfWakesHalt := b } },
      ⟨rfl, rfl, (by decide : countMode { te := true, ton := true, tm0 := false, tm1 := true } asleep.adcr ≠ .unused),
        fun _ => rfl, fun _ => ⟨rfl, rfl⟩, fun _ _ _ => rfl, fun h => absurd h (by decide : ¬ready.timer.pwRun = true),
        fun _ => (by decide : 0 < 0x10000), fun h => absurd h (by decide : ¬asleep.resLow = true), .inl rfl⟩,
      rfl, rfl, quiet_noReset _ _ rfl (by decide : 0 + 1 < 0x8000), rfl, rfl, rfl, rfl, rfl, .inl rfl,
      (by decide : (0 + 1) % 2 ^ (8 + 7) ≠ 0)⟩⟩

end Sys2Proof.Tests
end

