-- ==== Sys2Proof/Proofs/Reserved.lean ====
section
/-! Which instructions may change TO, PDF, the stack, TBLH, INTC, HALTED and the time base counter (O36): a frame that every
operand form keeps, and then the frame of every instruction, with the effects reserved to it taken out. -/

namespace Sys2Proof.Machine

open Sys2Proof

/-! ## The frame of the operand forms -/

/-- From `s` to `s'` nothing has changed of what the spec reserves to a few instructions (R27, R29, R30, R33, R48), where the
operand led to `t`: INTC is free where it is the target. -/
structure ReservedKept (t : Target) (s s' : State) : Prop where
  watchdog : s'.flags.timeOut = s.flags.timeOut ∧ s'.flags.pdf = s.flags.pdf ∧ s'.wdt = s.wdt
  stack : s'.stk0 = s.stk0 ∧ s'.stk1 = s.stk1 ∧ s'.sp = s.sp
  tblh : s'.tblh = s.tblh
  intc : t ≠ .bank0 0x0B → s'.intc = s.intc
  sleep : s'.halted = s.halted ∧ s'.mft = s.mft ∧ s'.tbfAtHalt = s.tbfAtHalt

theorem ReservedKept.refl (t : Target) (s : State) : ReservedKept t s s :=
  ⟨⟨rfl, rfl, rfl⟩, ⟨rfl, rfl, rfl⟩, rfl, fun _ => rfl, ⟨rfl, rfl, rfl⟩⟩

theorem ReservedKept.trans {t : Target} {s s1 s2 : State} (h : ReservedKept t s s1) (h' : ReservedKept t s1 s2) :
    ReservedKept t s s2 where
  watchdog := by
    obtain ⟨hto, hpdf, hwdt⟩ := h.watchdog
    obtain ⟨hto', hpdf', hwdt'⟩ := h'.watchdog
    exact ⟨hto'.trans hto, hpdf'.trans hpdf, hwdt'.trans hwdt⟩
  stack := by
    obtain ⟨h0, h1, hsp⟩ := h.stack
    obtain ⟨h0', h1', hsp'⟩ := h'.stack
    exact ⟨h0'.trans h0, h1'.trans h1, hsp'.trans hsp⟩
  tblh := h'.tblh.trans h.tblh
  intc ht := (h'.intc ht).trans (h.intc ht)
  sleep := by
    obtain ⟨hh, hm, hb⟩ := h.sleep
    obtain ⟨hh', hm', hb'⟩ := h'.sleep
    exact ⟨hh'.trans hh, hm'.trans hm, hb'.trans hb⟩

/-- ACC, the PC, and flags of which TO and PDF are as they were, are nobody's reserve. -/
theorem ReservedKept.with {t : Target} {s s1 : State} (h : ReservedKept t s s1) (acc : Byte) (pc : PAddr) {f : Flags}
    (hto : f.timeOut = s1.flags.timeOut) (hpdf : f.pdf = s1.flags.pdf) :
    ReservedKept t s { s1 with acc := acc, pc := pc, flags := f } :=
  h.trans ⟨⟨hto, hpdf, rfl⟩, ⟨rfl, rfl, rfl⟩, rfl, fun _ => rfl, ⟨rfl, rfl, rfl⟩⟩

theorem ReservedKept.advance (t : Target) (s : State) : ReservedKept t s s.advance :=
  (ReservedKept.refl t s).with s.acc (s.pc + 1) rfl rfl

theorem ReservedKept.skipIf {t : Target} {s s1 : State} (h : ReservedKept t s s1) (c : Bool) :
    ReservedKept t s (s1.skipIf c) := by
  cases c
  · exact h
  · exact h.with s1.acc (s1.pc + 1) rfl rfl

/-- A read draws, or latches a counter's low byte. -/
theorem memRead_reservedKept {a : Access} {t : Target} {v : Byte} {s s1 : State} (h : memRead a t s = .ok (v, s1)) :
    ReservedKept t s s1 := by
  rcases memRead_state a t v s s1 h with ⟨d, rfl⟩ | ⟨_, _, b, tag, rfl⟩ <;>
    exact ⟨⟨rfl, rfl, rfl⟩, ⟨rfl, rfl, rfl⟩, rfl, fun _ => rfl, ⟨rfl, rfl, rfl⟩⟩

/-- No write reaches TO and PDF, not even one of STATUS (R30). -/
theorem StatusWritten.keeps_timeOut_pdf {t : Target} {v : Byte} {f f' : Flags} (h : StatusWritten t v f f') :
    f'.timeOut = f.timeOut ∧ f'.pdf = f.pdf := by
  unfold StatusWritten at h
  split at h <;> subst h <;> exact ⟨rfl, rfl⟩

/-- A write that is answered changes none of it, wherever it goes, but for INTC. -/
theorem memWrite_reservedKept {a : Access} {t : Target} {v : Byte} {s s1 : State} (h : memWrite a t v s = .ok s1) :
    ReservedKept t s s1 := by
  have kept : KeptBut t { s with pc := s.pc - 1 } s1 :=
    memWrite_kept a t v _ s s1 s.draws (by simp) h
  obtain ⟨hto, hpdf⟩ := (memWrite_flags a t v s s1 h).keeps_timeOut_pdf
  obtain ⟨hmft, hwdt, hhalted, htbf, _⟩ := kept.devices
  exact ⟨⟨hto, hpdf, hwdt⟩, kept.stack, kept.tblh, kept.intc, ⟨hhalted, hmft, htbf⟩⟩

/-! ## The operand forms -/

/-- The operand `[m]` led somewhere, and what is reserved is as it was, but for INTC where the operand led there. -/
def OperandReserved (m : DAddr) (s s' : State) : Prop := ∃ t, resolve s m = .ok t ∧ ReservedKept t s s'

/-- A form that only reads keeps what its own effect keeps. -/
theorem readingOp_reserved {m : DAddr} {s s' : State} {k : Byte → State → Result} (h : readingOp m s k = .next s')
    (hk : ∀ t v s1, ReservedKept t s s1 → k v s1 = .next s' → ReservedKept t s s') : OperandReserved m s s' := by
  obtain ⟨t, ht, h1⟩ := withTarget_next h
  obtain ⟨v, s1, h2, h3⟩ := withRead_next h1
  exact ⟨t, ht, hk t v s1 ((ReservedKept.advance t s).trans (memRead_reservedKept h2)) h3⟩

/-- The forms with their result in ACC and flags of their own. -/
theorem accWithFlags_reserved {m : DAddr} {r : Byte → State → Byte} {f : Byte → State → Flags} {s s' : State}
    (h : readingOp m s (fun v s1 => .next { s1 with acc := r v s1, flags := f v s1 }) = .next s')
    (hto : ∀ v s1, (f v s1).timeOut = s1.flags.timeOut) (hpdf : ∀ v s1, (f v s1).pdf = s1.flags.pdf) :
    OperandReserved m s s' :=
  readingOp_reserved h fun _ v s1 h1 h2 => by
    cases h2
    exact h1.with _ s1.pc (hto v s1) (hpdf v s1)

theorem sumToAcc_reserved {m : DAddr} {f : Byte → State → Sum} {s s' : State} (h : sumToAcc m f s = .next s') :
    OperandReserved m s s' := accWithFlags_reserved h (fun _ _ => rfl) (fun _ _ => rfl)

theorem zToAcc_reserved {m : DAddr} {f : Byte → State → Byte} {s s' : State} (h : zToAcc m f s = .next s') :
    OperandReserved m s s' := accWithFlags_reserved h (fun _ _ => rfl) (fun _ _ => rfl)

theorem carryToAcc_reserved {m : DAddr} {r : Byte → Bool → Byte} {c : Byte → Bool} {s s' : State}
    (h : carryToAcc m r c s = .next s') : OperandReserved m s s' :=
  accWithFlags_reserved (r := fun v s1 => r v s1.flags.c) (f := fun v s1 => s1.flags.withC (c v)) h
    (fun _ _ => rfl) (fun _ _ => rfl)

theorem plainToAcc_reserved {m : DAddr} {f : Byte → Byte} {s s' : State} (h : plainToAcc m f s = .next s') :
    OperandReserved m s s' :=
  readingOp_reserved h fun _ _ s1 h1 h2 => by
    cases h2
    exact h1.with _ s1.pc rfl rfl

theorem testAndSkip_reserved {m : DAddr} {f : Byte → Bool} {s s' : State} (h : testAndSkip m f s = .next s') :
    OperandReserved m s s' :=
  readingOp_reserved h fun _ _ _ h1 h2 => by
    cases h2
    exact h1.skipIf _

theorem accAndSkip_reserved {m : DAddr} {f : Byte → Byte} {s s' : State} (h : accAndSkip m f s = .next s') :
    OperandReserved m s s' :=
  readingOp_reserved h fun _ _ s1 h1 h2 => by
    cases h2
    exact (h1.with _ s1.pc rfl rfl).skipIf _

theorem execMovAm_reserved {m : DAddr} {s s' : State} (h : execMovAm m s = .next s') : OperandReserved m s s' := by
  obtain ⟨t, ht, h1⟩ := withTarget_next h
  obtain ⟨v, s1, h2, h3⟩ := withRead_next h1
  cases h3
  exact ⟨t, ht, ((ReservedKept.advance t s).trans (memRead_reservedKept h2)).with v s1.pc rfl rfl⟩

/-- The read-modify-write form that writes flags of its own: they are written over those of the state that was read. -/
theorem modifyWithFlags_reserved {m : DAddr} {r : Byte → State → Byte} {f : Byte → State → Flags} {s s' : State}
    (h : modifyWithFlags m r f s = .next s') (hto : ∀ v s1, (f v s1).timeOut = s1.flags.timeOut)
    (hpdf : ∀ v s1, (f v s1).pdf = s1.flags.pdf) : OperandReserved m s s' := by
  obtain ⟨t, ht, h1⟩ := withTarget_next h
  split at h1
  · cases h1
  · obtain ⟨v, s1, h2, h3⟩ := withRead_next h1
    obtain ⟨s2, h4, h5⟩ := withWrite_next h3
    cases h5
    have read := (ReservedKept.advance t s).trans (memRead_reservedKept h2)
    have write := memWrite_reservedKept h4
    obtain ⟨wto, wpdf, _⟩ := write.watchdog
    exact ⟨t, ht, (read.trans write).with s2.acc s2.pc ((hto v s1).trans wto.symm) ((hpdf v s1).trans wpdf.symm)⟩

theorem sumToMem_reserved {m : DAddr} {f : Byte → State → Sum} {s s' : State} (h : sumToMem m f s = .next s') :
    OperandReserved m s s' := modifyWithFlags_reserved h (fun _ _ => rfl) (fun _ _ => rfl)

theorem zToMem_reserved {m : DAddr} {f : Byte → State → Byte} {s s' : State} (h : zToMem m f s = .next s') :
    OperandReserved m s s' := modifyWithFlags_reserved h (fun _ _ => rfl) (fun _ _ => rfl)

theorem carryToMem_reserved {m : DAddr} {r : Byte → Bool → Byte} {c : Byte → Bool} {s s' : State}
    (h : carryToMem m r c s = .next s') : OperandReserved m s s' :=
  modifyWithFlags_reserved h (fun _ _ => rfl) (fun _ _ => rfl)

theorem execDaa_reserved {m : DAddr} {s s' : State} (h : execDaa m s = .next s') : OperandReserved m s s' := by
  obtain ⟨t, ht, h1⟩ := withTarget_next h
  split at h1
  · cases h1
  · obtain ⟨s2, h4, h5⟩ := withWrite_next h1
    cases h5
    exact ⟨t, ht, ((ReservedKept.advance t s).trans (memWrite_reservedKept h4)).with s2.acc s2.pc rfl rfl⟩

theorem plainToMem_reserved {m : DAddr} {f : Byte → Byte} {s s' : State} (h : plainToMem m f s = .next s') :
    OperandReserved m s s' := by
  obtain ⟨t, ht, h1⟩ := withTarget_next h
  obtain ⟨v, s1, h2, h3⟩ := withRead_next h1
  obtain ⟨s2, h4, h5⟩ := withWrite_next h3
  cases h5
  exact ⟨t, ht, ((ReservedKept.advance t s).trans (memRead_reservedKept h2)).trans (memWrite_reservedKept h4)⟩

theorem storeOnly_reserved {a : Access} {m : DAddr} {f : State → Byte} {s s' : State} (h : storeOnly a m f s = .next s') :
    OperandReserved m s s' := by
  obtain ⟨t, ht, h1⟩ := withTarget_next h
  obtain ⟨s2, h4, h5⟩ := withWrite_next h1
  cases h5
  exact ⟨t, ht, (ReservedKept.advance t s).trans (memWrite_reservedKept h4)⟩

theorem memAndSkip_reserved {m : DAddr} {f : Byte → Byte} {s s' : State} (h : memAndSkip m f s = .next s') :
    OperandReserved m s s' := by
  obtain ⟨t, ht, h1⟩ := withTarget_next h
  split at h1
  · cases h1
  · obtain ⟨v, s1, h2, h3⟩ := withRead_next h1
    obtain ⟨s2, h4, h5⟩ := withWrite_next h3
    cases h5
    exact ⟨t, ht, (((ReservedKept.advance t s).trans (memRead_reservedKept h2)).trans (memWrite_reservedKept h4)).skipIf _⟩

/-- A table read loads TBLH, and then keeps what every write keeps. -/
theorem tableRead_reserved {m : DAddr} {entry : State → PAddr} {s s' : State} (h : tableRead m entry s = .next s') :
    OperandReserved m { s with tblh := highByte (romRead s.advance (entry s.advance)) } s' := by
  obtain ⟨t, ht, h1⟩ := withTarget_next h
  obtain ⟨s2, h4, h5⟩ := withWrite_next h1
  cases h5
  exact ⟨t, ht, (ReservedKept.advance t _).trans (memWrite_reservedKept h4)⟩

/-! ## Every instruction -/

/-- What the instruction `i` leaves of what the spec reserves to a few, each part but for the instructions it is reserved to. -/
structure KeepsOthersReserve (i : Instr) (s s' : State) : Prop where
  watchdog : i ∉ [Instr.clrWdt, .clrWdt1, .clrWdt2, .halt] →
    s'.flags.timeOut = s.flags.timeOut ∧ s'.flags.pdf = s.flags.pdf ∧ s'.wdt = s.wdt
  stack : (∀ a, i ≠ .call a) → i ≠ .ret → (∀ x, i ≠ .retAx x) → i ≠ .reti →
    s'.stk0 = s.stk0 ∧ s'.stk1 = s.stk1 ∧ s'.sp = s.sp
  tblh : (∀ m, i ≠ .tabrdc m ∧ i ≠ .tabrdl m) → s'.tblh = s.tblh
  intc : i ≠ .reti → (∀ m, memoryOperand i = some m → resolve s m ≠ .ok (.bank0 0x0B)) → s'.intc = s.intc
  sleep : i ≠ .halt → s'.halted = s.halted ∧ s'.mft = s.mft ∧ s'.tbfAtHalt = s.tbfAtHalt

/-- An instruction that only sets ACC, the PC and flags other than TO and PDF. -/
theorem KeepsOthersReserve.ofNoOperand {i : Instr} {s s' : State} (h : ReservedKept .self s s') :
    KeepsOthersReserve i s s' :=
  ⟨fun _ => h.watchdog, fun _ _ _ _ => h.stack, fun _ => h.tblh, fun _ _ => h.intc (by simp), fun _ => h.sleep⟩

/-- An instruction of an operand form. -/
theorem KeepsOthersReserve.ofOperand {i : Instr} {m : DAddr} {s s' : State} (hm : memoryOperand i = some m)
    (h : OperandReserved m s s') : KeepsOthersReserve i s s' := by
  obtain ⟨t, ht, k⟩ := h
  refine ⟨fun _ => k.watchdog, fun _ _ _ _ => k.stack, fun _ => k.tblh, fun _ hi => k.intc ?_, fun _ => k.sleep⟩
  rintro rfl
  exact hi m hm ht

/-- A table read. -/
theorem KeepsOthersReserve.ofTableRead {i : Instr} {m : DAddr} {b : Byte} {s s' : State}
    (hi : i = .tabrdc m ∨ i = .tabrdl m) (h : OperandReserved m { s with tblh := b } s') : KeepsOthersReserve i s s' := by
  have k : KeepsOthersReserve i { s with tblh := b } s' := .ofOperand (by rcases hi with rfl | rfl <;> rfl) h
  refine ⟨k.watchdog, k.stack, fun hn => ?_, k.intc, k.sleep⟩
  obtain ⟨hc, hl⟩ := hn m
  exact absurd hi (by simp [hc, hl])

/-- CALL changes the stack and the PC. -/
theorem execCall_reserve {a : PAddr} {s s' : State} (h : execCall a s = .next s') : KeepsOthersReserve (.call a) s s' := by
  cases h
  exact ⟨fun _ => by simp, fun hc => absurd rfl (hc a), fun _ => by simp, fun _ _ => by simp, fun _ => by simp⟩

/-- RET and RET A,x change the stack, the PC and ACC. -/
theorem return_reserve {i : Instr} {acc : State → Byte} {s s' : State} (hi : i = .ret ∨ ∃ x, i = .retAx x)
    (h : returning (popPc s) (fun s1 => { s1 with acc := acc s1 }) = .next s') : KeepsOthersReserve i s s' := by
  obtain ⟨s1, h1, rfl⟩ := returning_next h
  obtain ⟨pc, sp, rfl⟩ := popPc_kept h1
  refine ⟨fun _ => ⟨rfl, rfl, rfl⟩, fun _ hr hx _ => ?_, fun _ => rfl, fun _ _ => rfl, fun _ => ⟨rfl, rfl, rfl⟩⟩
  rcases hi with hi | ⟨x, hi⟩
  · exact absurd hi hr
  · exact absurd hi (hx x)

/-- RETI changes the stack, the PC and EMI. -/
theorem execReti_reserve {s s' : State} (h : execReti s = .next s') : KeepsOthersReserve .reti s s' := by
  obtain ⟨s1, h1, rfl⟩ := returning_next h
  obtain ⟨s2, h2, rfl⟩ := returnFromInterrupt_cases h1
  obtain ⟨pc, sp, rfl⟩ := popPc_kept h2
  exact ⟨fun _ => ⟨rfl, rfl, rfl⟩, fun _ _ _ hr => absurd rfl hr, fun _ => rfl, fun hr => absurd rfl hr,
    fun _ => ⟨rfl, rfl, rfl⟩⟩

/-- The three watchdog instructions change the watchdog, TO and PDF, and the PC. -/
theorem clrWdts_reserve {i : Instr} {s s' : State} (hi : i ∈ [Instr.clrWdt, .clrWdt1, .clrWdt2])
    (h : exec i s = .next s') : KeepsOthersReserve i s s' := by
  have update : ∃ f w, s' = { s.advance with flags := f, wdt := w } := by
    simp only [List.mem_cons, List.not_mem_nil, or_false] at hi
    rcases hi with rfl | rfl | rfl <;> cases h <;> exact ⟨_, _, rfl⟩
  obtain ⟨f, w, rfl⟩ := update
  refine ⟨fun hn => absurd ?_ hn, fun _ _ _ _ => ⟨rfl, rfl, rfl⟩, fun _ => rfl, fun _ _ => rfl, fun _ => ⟨rfl, rfl, rfl⟩⟩
  exact List.mem_append_left [Instr.halt] hi

/-- HALT changes the watchdog, TO and PDF, its own three, and the PC. -/
theorem execHalt_reserve {s s' : State} (h : execHalt s = .next s') : KeepsOthersReserve .halt s s' := by
  obtain ⟨_, rfl⟩ := execHalt_next h
  exact ⟨fun hn => absurd (by simp) hn, fun _ _ _ _ => ⟨rfl, rfl, rfl⟩, fun _ => rfl, fun _ _ => rfl,
    fun hn => absurd rfl hn⟩

/-- Every instruction leaves alone what is reserved to others. -/
theorem exec_keepsOthersReserve {i : Instr} {s s' : State} (h : exec i s = .next s') : KeepsOthersReserve i s s' := by
  have update : ∀ {f : Flags} (acc : Byte) (pc : PAddr), f.timeOut = s.flags.timeOut → f.pdf = s.flags.pdf →
      KeepsOthersReserve i s { s with acc := acc, pc := pc, flags := f } :=
    fun acc pc hto hpdf => .ofNoOperand ((ReservedKept.refl .self s).with acc pc hto hpdf)
  cases i with
  | addAm | adcAm | subAm | sbcAm => exact .ofOperand rfl (sumToAcc_reserved h)
  | addmAm | adcmAm | submAm | sbcmAm => exact .ofOperand rfl (sumToMem_reserved h)
  | daa => exact .ofOperand rfl (execDaa_reserved h)
  | andAm | orAm | xorAm | cpla | inca | deca => exact .ofOperand rfl (zToAcc_reserved h)
  | andmAm | ormAm | xormAm | cpl | inc | dec => exact .ofOperand rfl (zToMem_reserved h)
  | rra | rla | swapa => exact .ofOperand rfl (plainToAcc_reserved h)
  | rr | rl | swap | clrBit | setBit => exact .ofOperand rfl (plainToMem_reserved h)
  | rrca | rlca => exact .ofOperand rfl (carryToAcc_reserved h)
  | rrc | rlc => exact .ofOperand rfl (carryToMem_reserved h)
  | movAm => exact .ofOperand rfl (execMovAm_reserved h)
  | movmA => exact .ofOperand rfl (storeOnly_reserved h)
  | clrMem => exact .ofOperand rfl (storeOnly_reserved (f := fun _ => 0x00) h)
  | setMem => exact .ofOperand rfl (storeOnly_reserved (f := fun _ => 0xFF) h)
  | sz | szBit | snzBit => exact .ofOperand rfl (testAndSkip_reserved h)
  | sza | siza | sdza => exact .ofOperand rfl (accAndSkip_reserved h)
  | siz | sdz => exact .ofOperand rfl (memAndSkip_reserved h)
  | tabrdc => exact .ofTableRead (.inl rfl) (tableRead_reserved h)
  | tabrdl => exact .ofTableRead (.inr rfl) (tableRead_reserved h)
  | addAx | subAx | andAx | orAx | xorAx | movAx => cases h; exact update _ _ rfl rfl
  | nop | jmp => cases h; exact update s.acc _ rfl rfl
  | call => exact execCall_reserve h
  | ret => exact return_reserve (acc := State.acc) (.inl rfl) h
  | retAx x => exact return_reserve (acc := fun _ => x) (.inr ⟨x, rfl⟩) h
  | reti => exact execReti_reserve h
  | clrWdt | clrWdt1 | clrWdt2 => exact clrWdts_reserve (by simp) h
  | halt => exact execHalt_reserve h

/-- No instruction changes the program, the parameters, the pads or the samples to come. -/
theorem exec_fixed {i : Instr} {s s' : State} (h : exec i s = .next s') :
    s'.rom = s.rom ∧ s'.par = s.par ∧ s'.port.pads = s.port.pads ∧ s'.env = s.env := by
  by_cases hi : i = .halt
  · subst hi
    obtain ⟨_, rfl⟩ := execHalt_next h
    exact ⟨rfl, rfl, rfl, rfl⟩
  · obtain ⟨hrom, hpar, henv, hpads, _⟩ := (exec_kept h hi).fixed
    exact ⟨hrom, hpar, hpads, henv⟩

/-- Settles O36: every operand form keeps what is reserved, and each instruction with an effect of its own keeps the rest. -/
theorem effectsReservedToTheirInstructions : Obligations.EffectsReservedToTheirInstructions := by
  intro i s s' h
  have k := exec_keepsOthersReserve h
  exact ⟨k.watchdog, k.stack, k.tblh, k.intc, k.sleep, exec_fixed h⟩

end Sys2Proof.Machine
end

