-- ==== Sys2Proof/Proofs/StepKeeps.lean ====
section
/-! What a step adds to its instruction (O39): with no conversion running the counter's part is answered, and with no reset the
devices change what they own and nothing else. -/

namespace Sys2Proof.Machine

open Sys2Proof Sys2Proof.Config

/-! ## The step answers -/

/-- The step of a running core whose instruction answers `s1` is that instruction's period. -/
theorem step_of_exec_next {s s1 : State} {i : Instr} (hres : s.resLow = false) (hhalt : s.halted = false)
    (hent : s.entering = none) (hdec : s.par.enc.decode (fetchWord s) = .ok i) (hexec : exec i s = .next s1) :
    step s = period s (4 * cycles i s s1) (cycles i s s1) (readsRunningCounter i s) s1 := by
  simp only [step, hres, hhalt, hent, hdec, hexec, afterInstr]
  rfl

/-- A step answers where the counter's part of it does. -/
theorem period_of_timerPeriod {before s1 s3 : State} {clocks cyc : Nat} {drawn : Bool}
    (h : timerPeriod before clocks drawn (nextSample s1) (dropSample s1) = .ok s3) :
    period before clocks cyc drawn s1 =
      .next (boundary (nextSample s1) (otherDevices clocks cyc before.adcr.bon s1.intc.tf (nextSample s1) s3)) := by
  simp only [period, h]

/-- The counter's part of a step is answered where the counter is off before and after. -/
theorem timerPeriod_off {before s : State} {n : Nat} {drawn : Bool} {e : EnvSample} (hb : before.tmrc.ton = false)
    (hs : s.tmrc.ton = false) : timerPeriod before n drawn e s = .ok s := by
  cases drawn <;> simp [timerPeriod, drawnPeriod, hb, hs, runCounter_off hs]

/-- An instruction writes one of TMRC and ADCR at most, keeps ADC/TM while the counter is on, and never makes it count without
a mode. -/
theorem exec_counterControl {i : Instr} {s s1 : State} (h : exec i s = .next s1) :
    (s1.tmrc = s.tmrc ∨ s1.adcr = s.adcr) ∧ (s.tmrc.ton = true → s1.adcr.adc = s.adcr.adc) ∧
      (countMode s.tmrc s.adcr ≠ .unused → countMode s1.tmrc s1.adcr ≠ .unused) := by
  by_cases hi : i = .halt
  · subst hi
    obtain ⟨_, rfl⟩ := execHalt_next h
    exact ⟨.inl rfl, fun _ => rfl, id⟩
  · have k := exec_kept h hi
    exact ⟨k.oneWrite, k.personality, k.mode⟩

/-- The mode depends on ADC/TM alone of ADCR. -/
theorem countMode_congr {t : Tmrc} {a a' : Adcr} (h : a'.adc = a.adc) : countMode t a' = countMode t a := by
  unfold countMode
  rw [h]

/-- With no conversion running before or after, the counter's part of the step after an instruction is answered: ADC/TM is 0
before and after, or the counter is off before and after. -/
theorem timerPeriod_answers {s s1 : State} {i : Instr} {n : Nat} {drawn : Bool} {e : EnvSample}
    (hmode : countMode s.tmrc s.adcr ≠ .unused) (hexec : exec i s = .next s1)
    (hadc : s.adcr.adc = true → s.tmrc.ton = false ∧ s1.tmrc.ton = false) :
    ∃ s3, timerPeriod s n drawn e (dropSample s1) = .ok s3 := by
  obtain ⟨hone, hpers, hkeep⟩ := exec_counterControl hexec
  by_cases hsame : s1.adcr.adc = s.adcr.adc
  · cases ha : s.adcr.adc with
    | true =>
      obtain ⟨hb, h1⟩ := hadc ha
      exact ⟨_, timerPeriod_off hb h1⟩
    | false =>
      exact timerPeriod_completes (hsame.trans ha) (by rwa [dropSample_adcr, countMode_congr hsame]) (hkeep hmode)
  · have hoff : s.tmrc.ton = false := Bool.eq_false_iff.mpr fun h => hsame (hpers h)
    have htmrc : s1.tmrc = s.tmrc := hone.resolve_right fun h => hsame (by rw [h])
    exact ⟨_, timerPeriod_off hoff (by simp [htmrc, hoff])⟩

/-! ## What the devices leave alone -/

/-- The program finds its state as it was, a core that runs goes on running, and a request flag that is set stays set. -/
structure DevicesKeep (s s' : State) : Prop where
  program : SameProgramState s s'
  running : s.halted = false → s'.halted = false
  timerRequest : s.intc.tf = true → s'.intc.tf = true
  timeBaseRequest : s.intc.tbf = true → s'.intc.tbf = true

theorem SameProgramState.refl (s : State) : SameProgramState s s := by constructor <;> simp

theorem SameProgramState.trans {s s1 s2 : State} (h : SameProgramState s s1) (h' : SameProgramState s1 s2) :
    SameProgramState s s2 where
  registers := by simpa [h.registers] using h'.registers
  control := by simpa [h.control] using h'.control
  interrupts := by simpa [h.interrupts] using h'.interrupts
  port := by simpa [h.port] using h'.port
  modes := by simpa [h.modes] using h'.modes
  buffer := by simpa [h.buffer] using h'.buffer
  mem a := (h'.mem a).trans (h.mem a)
  watchdog := by simpa [h.watchdog] using h'.watchdog
  parameters := by simpa [h.parameters] using h'.parameters

theorem DevicesKeep.trans {s s1 s2 : State} (h : DevicesKeep s s1) (h' : DevicesKeep s1 s2) : DevicesKeep s s2 :=
  ⟨h.program.trans h'.program, fun hs => h'.running (h.running hs), fun hs => h'.timerRequest (h.timerRequest hs),
    fun hs => h'.timeBaseRequest (h.timeBaseRequest hs)⟩

/-- Taking a sample changes the samples to come. -/
theorem dropSample_keeps (s : State) : DevicesKeep s (dropSample s) :=
  ⟨by constructor <;> simp, id, id, id⟩

/-- The counter owns its two counts, the marks of a measurement, TF and TON. -/
theorem CounterMoved.keeps {s s' : State} (h : CounterMoved s s') : DevicesKeep s s' := by
  obtain ⟨ta, tb, armed, run, tf, ton, rfl, htf, _, _⟩ := h
  exact ⟨by constructor <;> simp, id, htf, id⟩

/-- The other devices, where they bring no reset, own TBF, the end of HALT, the watchdog's age, BLF and the pads. -/
theorem otherDevices_keeps {clocks cyc : Nat} {b tf : Bool} {e : EnvSample} {s : State} (h : NoReset clocks e s) :
    DevicesKeep s (otherDevices clocks cyc b tf e s) ∧ (otherDevices clocks cyc b tf e s).port.pads = e.pads := by
  obtain ⟨m, tbf, halted, heq, htbf, hhalted⟩ := otherDevices_noReset (cyc := cyc) (b := b) (tf := tf) h
  rw [heq]
  refine ⟨⟨by constructor <;> simp, fun hs => ?_, id, htbf⟩, rfl⟩
  exact Bool.eq_false_iff.mpr fun hh => by simp [hhalted hh] at hs

/-- The interrupt check changes its own two marks alone. -/
theorem boundary_eq (e : EnvSample) (s : State) : ∃ k b, boundary e s = { s with entering := k, slipped := b } := by
  rcases boundary_cases e s with ⟨_, h⟩ | ⟨k, _, ⟨_, _, _, h⟩ | ⟨_, h⟩⟩ <;> exact ⟨_, _, h⟩

theorem boundary_keeps (e : EnvSample) (s : State) : DevicesKeep s (boundary e s) := by
  obtain ⟨k, b, h⟩ := boundary_eq e s
  rw [h]
  exact ⟨by constructor <;> simp, id, id, id⟩

/-- The counter moves neither the watchdog nor the parameters, so it brings no reset. -/
theorem NoReset.of_counterMoved {n : Nat} {e : EnvSample} {s s' : State} (h : NoReset n e s) (hm : CounterMoved s s') :
    NoReset n e s' := by
  obtain ⟨_, _, _, _, _, _, rfl, _⟩ := hm
  exact h

/-- Settles O39: the counter's part of the step is answered, and what the sample, the counter, the other devices and the
interrupt check keep is chained. -/
theorem stepKeepsWhatTheInstructionDid : Obligations.StepKeepsWhatTheInstructionDid := by
  intro s s1 i hinv hres hhalt hent hdec hexec hadc hno
  obtain ⟨s3, h3⟩ := timerPeriod_answers (n := 4 * cycles i s s1) (drawn := readsRunningCounter i s)
    (e := nextSample s1) hinv.mode hexec hadc
  have hmoved := timerPeriod_moved h3
  have hno3 : NoReset (4 * cycles i s s1) (nextSample s1) s3 := NoReset.of_counterMoved (s := dropSample s1) hno hmoved
  obtain ⟨hother, hpads⟩ := otherDevices_keeps (cyc := cycles i s s1) (b := s.adcr.bon) (tf := s1.intc.tf) hno3
  obtain ⟨_, _, hb⟩ := boundary_eq (nextSample s1)
    (otherDevices (4 * cycles i s s1) (cycles i s s1) s.adcr.bon s1.intc.tf (nextSample s1) s3)
  have k := (((dropSample_keeps s1).trans hmoved.keeps).trans hother).trans (boundary_keeps (nextSample s1) _)
  exact ⟨_, (step_of_exec_next hres hhalt hent hdec hexec).trans (period_of_timerPeriod h3), k.program, k.running,
    k.timerRequest, k.timeBaseRequest, by rw [hb]; exact hpads⟩

end Sys2Proof.Machine
end

