-- ==== Sys2Proof/Proofs/Resets.lean ====
section
/-! What the resets leave (O46 to O48): every kind of chip reset is the common part, the flags of its kind, and five registers
that power-on alone changes. -/

namespace Sys2Proof.Machine

open Sys2Proof

/-- All that a chip reset can do (R402): the common part, the flags of its kind, and five registers of which each kind but
power-on leaves what they hold. -/
theorem chipReset_registers (k : ChipReset) (s : State) : ∃ acc mp0 mp1 tblp tblh : Byte,
    chipReset k s = { chipResetCommon s with
      flags := s.flags.afterReset k (s.draws + 2), acc := acc, mp0 := mp0, mp1 := mp1, tblp := tblp, tblh := tblh } ∧
    (k ≠ .por → acc = s.acc ∧ mp0 = s.mp0 ∧ mp1 = s.mp1 ∧ tblp = s.tblp ∧ tblh = s.tblh) := by
  cases k with
  | por => exact ⟨_, _, _, _, _, rfl, fun h => absurd rfl h⟩
  | resN | resH | wdtN => exact ⟨_, _, _, _, _, rfl, fun _ => ⟨rfl, rfl, rfl, rfl, rfl⟩⟩

/-- Power-on alone makes the arithmetic flags unknown (R402). -/
theorem afterReset_keeps_arithmetic {k : ChipReset} (hk : k ≠ .por) (d : Nat) (f : Flags) :
    (f.afterReset k d).c = f.c ∧ (f.afterReset k d).ac = f.ac ∧ (f.afterReset k d).z = f.z ∧ (f.afterReset k d).ov = f.ov := by
  cases k with
  | por => exact absurd rfl hk
  | resN | resH | wdtN => exact ⟨rfl, rfl, rfl, rfl⟩

/-- Settles O46, field by field. -/
theorem resetState : Obligations.ResetState :=
  ⟨rfl, rfl, rfl, rfl, rfl, rfl, rfl, rfl, rfl, rfl, rfl, rfl, rfl, rfl, rfl, rfl, rfl, rfl, rfl, rfl⟩

/-- Settles O47: the reset table is the common part, and the rest is what power-on alone changes. -/
theorem chipResetProcedure : Obligations.ChipResetProcedure := by
  rintro k s _ rfl
  obtain ⟨acc, mp0, mp1, tblp, tblh, heq, hkept⟩ := chipReset_registers k s
  rw [heq]
  refine ⟨rfl, rfl, rfl, rfl, rfl, rfl, rfl, rfl, rfl, rfl, rfl, rfl, rfl, rfl, rfl, rfl, rfl, lookup_nil, fun hk => ?_,
    rfl, rfl, rfl⟩
  obtain ⟨hacc, hmp0, hmp1, htblp, htblh⟩ := hkept hk
  exact ⟨hacc, hmp0, hmp1, htblp, htblh, afterReset_keeps_arithmetic hk _ _⟩

/-- Settles O48: a chip reset of each kind sets the flags of that kind, and the warm reset sets TO in a core whose PDF the
HALT has set. -/
theorem resetFlagTable : Obligations.ResetFlagTable := by
  intro s
  exact ⟨⟨rfl, rfl⟩, ⟨rfl, rfl⟩, ⟨rfl, rfl⟩, ⟨rfl, rfl⟩, fun hinv hhalt => ⟨rfl, (hinv.haltFlags hhalt).1⟩⟩

end Sys2Proof.Machine
end

