-- ==== Sys2Proof/Proofs/Invariant.lean ====
section
/-! Every step keeps the invariant (O40), and the state after power-on has it (O41). Most of its clauses hold at every point
within a step, since the core's own effect and each device keep them one by one. The other three are made good on the way: the
one about the time base by the time base's own wake-up, the one about RES where the pads are sampled, and the one about the
interrupt to be entered by the interrupt check. -/

namespace Sys2Proof.Machine

open Sys2Proof Sys2Proof.Config

/-! ## Within a step -/

/-- What holds of every state `s` within a step that began in `s0`: its program and parameters, and the clauses of the invariant
that the core and the devices keep one by one. -/
structure MidStep (s0 s : State) : Prop where
  rom : s.rom = s0.rom
  par : s.par = s0.par
  memory : Memory.wf s.mem = true
  program : Rom.wf s.rom = true
  mode : countMode s.tmrc s.adcr ≠ .unused
  haltMode : s.halted = true → countsOutside s = false
  haltFlags : s.halted = true → s.flags.pdf = true ∧ s.flags.timeOut = false
  pulse : s.timer.pwRun = true → s.timer.pwArmed = true
  watchdog : s.par.mask.wdtEn = true → s.wdt.age < 0x10000

/-- From the time base's wake-up on, a core still in HALT has had no time base time-out there (R364). -/
structure Woken (s0 s : State) : Prop extends MidStep s0 s where
  haltTimeBase : s.halted = true → s.par.mask.oscOnAtHalt = true → s.tbfAtHalt = false → s.intc.tbf = false

/-- A step begins in the middle. -/
theorem State.Inv.woken {s : State} (h : s.Inv) : Woken s s :=
  ⟨⟨rfl, rfl, h.memory, h.program, h.mode, h.haltMode, h.haltFlags, h.pulse, h.watchdog⟩, h.haltTimeBase⟩

/-- The end of HALT, by whatever wakes the core. -/
theorem MidStep.awake {s0 s : State} (h : MidStep s0 s) : Woken s0 { s with halted := false } :=
  ⟨⟨h.rom, h.par, h.memory, h.program, h.mode, by simp, by simp, h.pulse, h.watchdog⟩, by simp⟩

/-! ## Resets -/

/-- What the invariant says of a chip held in reset (R401, R402). -/
def AtReset (s : State) : Prop :=
  s.pc = 0 ∧ s.sp = 0 ∧ s.halted = false ∧
    s.intc = { emi := false, eti := false, etbi := false, tf := false, tbf := false } ∧ s.tmrc.ton = false ∧
    s.port.latch = 0xFF ∧ s.port.pac = 0xFF

theorem chipReset_atReset (k : ChipReset) (s : State) : AtReset (chipReset k s) := by
  obtain ⟨_, _, _, _, _, heq, _⟩ := chipReset_registers k s
  rw [heq]
  exact ⟨rfl, rfl, rfl, rfl, rfl, rfl, rfl⟩

@[simp] theorem chipReset_entering (k : ChipReset) (s : State) : (chipReset k s).entering = none := by
  cases k <;> rfl

/-- A running core with the counter off, no measurement, a cleared watchdog and no data memory, such as a reset leaves. -/
theorem Woken.ofQuiet {s0 s : State} (hrom : s.rom = s0.rom) (hpar : s.par = s0.par) (hwf : Rom.wf s0.rom = true)
    (hmem : s.mem = []) (hhalt : s.halted = false) (hton : s.tmrc.ton = false) (hrun : s.timer.pwRun = false)
    (hage : s.wdt.age = 0) : Woken s0 s where
  rom := hrom
  par := hpar
  memory := by rw [hmem]; exact Memory.wf_nil
  program := by rw [hrom]; exact hwf
  mode := by simp [countMode, hton]
  haltMode := by simp [hhalt]
  haltFlags := by simp [hhalt]
  pulse := by simp [hrun]
  watchdog := by simp [hage]
  haltTimeBase := by simp [hhalt]

/-- A chip reset keeps the program and the parameters, and leaves nothing else to ask for. -/
theorem chipReset_woken {s0 s : State} (k : ChipReset) (hrom : s.rom = s0.rom) (hpar : s.par = s0.par)
    (hwf : Rom.wf s.rom = true) : Woken s0 (chipReset k s) := by
  obtain ⟨_, _, _, _, _, heq, _⟩ := chipReset_registers k s
  rw [heq]
  exact .ofQuiet hrom hpar (hrom ▸ hwf) rfl rfl rfl rfl rfl

/-! ## The core's own effect -/

/-- Entering an interrupt changes the PC, the stack and INTC. -/
theorem takeInterrupt_midStep {s : State} (k : IntSource) (h : s.Inv) : MidStep s (takeInterrupt k s) where
  rom := by simp
  par := by simp
  memory := by simpa using h.memory
  program := by simpa using h.program
  mode := by simpa using h.mode
  haltMode := by simpa [countsOutside] using h.haltMode
  haltFlags := by simpa using h.haltFlags
  pulse := by simpa using h.pulse
  watchdog := by simpa using h.watchdog

/-- An instruction leaves the core running, or is a HALT, which sets PDF, clears TO, and is refused while the counter is on
outside timer mode. -/
theorem exec_midStep {i : Instr} {s s1 : State} (h : s.Inv) (hrun : s.halted = false) (hexec : exec i s = .next s1) :
    MidStep s s1 := by
  by_cases hi : i = .halt
  · subst hi
    obtain ⟨hcount, rfl⟩ := execHalt_next hexec
    exact ⟨rfl, rfl, h.memory, h.program, h.mode, fun _ => hcount, fun _ => ⟨rfl, rfl⟩, h.pulse, by simp⟩
  · have k := exec_kept hexec hi
    obtain ⟨hrom, hpar, _⟩ := k.fixed
    have hrun1 : s1.halted = false := k.halted.trans hrun
    exact ⟨hrom, hpar, k.memory h.memory, hrom ▸ h.program, k.mode h.mode, by simp [hrun1], by simp [hrun1], k.pulse h.pulse,
      fun hen => Nat.lt_of_le_of_lt k.age (h.watchdog (hpar ▸ hen))⟩

/-! ## The devices -/

theorem MidStep.dropSample {s0 s : State} (h : MidStep s0 s) : MidStep s0 (dropSample s) :=
  ⟨h.rom, h.par, h.memory, h.program, h.mode, h.haltMode, h.haltFlags, h.pulse, h.watchdog⟩

/-- A counter that is turned off is in no mode without meaning. -/
theorem countMode_ton {t : Tmrc} {a : Adcr} {ton : Bool} (hton : ton = true → t.ton = true)
    (h : countMode t a ≠ .unused) : countMode { t with ton := ton } a ≠ .unused := by
  cases ton with
  | false => simp [countMode]
  | true => simpa [countMode, hton rfl] using h

/-- The counter may turn itself off, and a measurement that it runs is armed. -/
theorem MidStep.counterMoved {s0 s s1 : State} (h : MidStep s0 s) (hm : CounterMoved s s1) : MidStep s0 s1 := by
  obtain ⟨ta, tb, armed, run, tf, ton, rfl, _, hton, hpulse⟩ := hm
  refine ⟨h.rom, h.par, h.memory, h.program, countMode_ton hton h.mode, fun hhalt => ?_, h.haltFlags, hpulse h.pulse,
    h.watchdog⟩
  have hold := h.haltMode hhalt
  cases ton with
  | false => rfl
  | true => simpa [countsOutside, hton rfl] using hold

theorem MidStep.timerWake {s0 s : State} (h : MidStep s0 s) (tf : Bool) : MidStep s0 (timerWake tf s) := by
  rcases timerWake_cases tf s with heq | ⟨_, _, _, _, _, heq⟩ <;> rw [heq]
  · exact h
  · exact h.awake.toMidStep

theorem MidStep.runMft {s0 s : State} (h : MidStep s0 s) (n : Nat) : MidStep s0 (runMft n s) := by
  obtain ⟨m, tbf, heq, _⟩ := runMft_moved n s
  rw [heq]
  exact ⟨h.rom, h.par, h.memory, h.program, h.mode, h.haltMode, h.haltFlags, h.pulse, h.watchdog⟩

/-- The wake-up by the time base leaves no core in HALT that it should have woken. -/
theorem MidStep.timeBaseWake {s0 s : State} (h : MidStep s0 s) : Woken s0 (timeBaseWake s) := by
  unfold Machine.timeBaseWake
  split
  · exact h.awake
  · next hsleep =>
    refine ⟨h, fun hhalt hosc htbf => ?_⟩
    simpa [hhalt, hosc, htbf] using hsleep

/-- An enabled watchdog that does not time out is younger than its window: it was before, or it has aged and would have. -/
theorem age_lt_of_silent {n : Nat} {e : EnvSample} {s : State} (hen : s.par.mask.wdtEn = true) (hage : s.wdt.age < 0x10000)
    (h : ¬(n ≠ 0 ∧ wdtTimesOut e (ageWdt n s) = true)) : s.wdt.age + n < 0x10000 := by
  by_contra hout
  refine h ⟨by omega, ?_⟩
  have hlow : 0x8000 ≤ s.wdt.age + n := by omega
  simp [wdtTimesOut, hen, hlow, Nat.le_of_not_lt hout]

theorem Woken.runWdt {s0 s : State} (h : Woken s0 s) (n : Nat) (e : EnvSample) : Woken s0 (runWdt n e s) := by
  rcases runWdt_cases n e s with ⟨heq, hsilent⟩ | ⟨_, _, ⟨_, heq⟩ | ⟨_, heq⟩⟩ <;> rw [heq]
  · exact ⟨⟨h.rom, h.par, h.memory, h.program, h.mode, h.haltMode, h.haltFlags, h.pulse,
      fun hen => age_lt_of_silent hen (h.watchdog hen) hsilent⟩, h.haltTimeBase⟩
  · exact ⟨⟨h.rom, h.par, h.memory, h.program, h.mode, by simp [warmReset], by simp [warmReset], h.pulse,
      by simp [warmReset]⟩, by simp [warmReset]⟩
  · exact chipReset_woken .wdtN h.rom h.par h.program

theorem Woken.runLvd {s0 s : State} (h : Woken s0 s) (n : Nat) (b : Bool) (e : EnvSample) : Woken s0 (runLvd n b e s) :=
  ⟨⟨h.rom, h.par, h.memory, h.program, h.mode, h.haltMode, h.haltFlags, h.pulse, h.watchdog⟩, h.haltTimeBase⟩

theorem Woken.takePads {s0 s : State} (h : Woken s0 s) (e : EnvSample) : Woken s0 (takePads e s) :=
  ⟨⟨h.rom, h.par, h.memory, h.program, h.mode, h.haltMode, h.haltFlags, h.pulse, h.watchdog⟩, h.haltTimeBase⟩

/-- What happens at the pads is a chip reset or at most the end of HALT. -/
theorem Woken.samplePads {s0 s : State} (h : Woken s0 s) (e : EnvSample) : Woken s0 (samplePads e s) := by
  have reset (k : ChipReset) : Woken s0 (chipReset k s) := chipReset_woken k h.rom h.par h.program
  have pads : Woken s0 (padEvents e s) := by
    rcases padEvents_cases e s with ⟨_, heq⟩ | ⟨_, _, ⟨_, heq⟩ | ⟨_, heq⟩⟩ | ⟨_, _, heq⟩ <;> rw [heq]
    · exact reset .por
    · exact reset .resH
    · exact reset .resN
    · rcases portWake_cases e s with heq | ⟨_, _, _, heq⟩ <;> rw [heq]
      · exact h
      · exact h.awake
  exact pads.takePads e

/-- A sample with RES low resets the chip. -/
theorem samplePads_atReset {e : EnvSample} {s : State} (h : (samplePads e s).resLow = true) : AtReset (samplePads e s) := by
  have hlow : e.resLow = true := h
  have pads : AtReset (padEvents e s) := by
    rcases padEvents_cases e s with ⟨_, heq⟩ | ⟨_, _, ⟨_, heq⟩ | ⟨_, heq⟩⟩ | ⟨_, hhigh, _⟩
    · exact heq ▸ chipReset_atReset .por s
    · exact heq ▸ chipReset_atReset .resH s
    · exact heq ▸ chipReset_atReset .resN s
    · simp [hlow] at hhigh
  exact pads

/-- What happens at the pads acknowledges no interrupt. -/
theorem samplePads_entering {e : EnvSample} {s : State} (h : s.entering = none) : (samplePads e s).entering = none := by
  have pads : (padEvents e s).entering = none := by
    rcases padEvents_cases e s with ⟨_, heq⟩ | ⟨_, _, ⟨_, heq⟩ | ⟨_, heq⟩⟩ | ⟨_, _, heq⟩ <;> rw [heq]
    · exact chipReset_entering .por s
    · exact chipReset_entering .resH s
    · exact chipReset_entering .resN s
    · rcases portWake_cases e s with heq | ⟨_, _, _, heq⟩ <;> rw [heq] <;> exact h
  exact pads

theorem MidStep.otherDevices {s0 s : State} (h : MidStep s0 s) (clocks cyc : Nat) (b tf : Bool) (e : EnvSample) :
    Woken s0 (otherDevices clocks cyc b tf e s) :=
  ((((h.timerWake tf).runMft clocks).timeBaseWake.runWdt clocks e).runLvd cyc b e).samplePads e

/-! ## The end of a step -/

/-- The invariant, from what holds within the step and the two clauses made good at its end. -/
theorem Woken.inv {s0 s : State} (h : Woken s0 s) (hheld : s.resLow = true → AtReset s)
    (hentry : s.entering = none ∨ s.entering = pendingInterrupt s) : s.Inv :=
  ⟨h.memory, h.program, h.mode, h.haltMode, h.haltFlags, h.haltTimeBase, h.pulse, h.watchdog, hheld, hentry⟩

/-- The interrupt check records nothing or the interrupt that is pending. -/
theorem boundary_entry (e : EnvSample) (s : State) : ∃ k b, boundary e s = { s with entering := k, slipped := b } ∧
    (k = none ∨ k = pendingInterrupt s) := by
  rcases boundary_cases e s with ⟨_, heq⟩ | ⟨k, hk, ⟨_, _, _, heq⟩ | ⟨_, heq⟩⟩
  · exact ⟨none, false, heq, .inl rfl⟩
  · exact ⟨none, true, heq, .inl rfl⟩
  · exact ⟨some k, false, heq, .inr hk.symm⟩

theorem Woken.boundary {s0 s : State} (h : Woken s0 s) (e : EnvSample) (hheld : s.resLow = true → AtReset s) :
    (boundary e s).Inv ∧ (boundary e s).rom = s0.rom ∧ (boundary e s).par = s0.par := by
  obtain ⟨k, b, heq, hk⟩ := boundary_entry e s
  rw [heq]
  have woken : Woken s0 { s with entering := k, slipped := b } :=
    ⟨⟨h.rom, h.par, h.memory, h.program, h.mode, h.haltMode, h.haltFlags, h.pulse, h.watchdog⟩, h.haltTimeBase⟩
  exact ⟨woken.inv hheld hk, h.rom, h.par⟩

/-- After the core's own effect, the counter, the other devices and the interrupt check complete the invariant. -/
theorem MidStep.period {s0 before s1 s' : State} {clocks cyc : Nat} {drawn : Bool} (h : MidStep s0 s1)
    (hp : period before clocks cyc drawn s1 = .next s') : s'.Inv ∧ s'.rom = s0.rom ∧ s'.par = s0.par := by
  obtain ⟨s3, h3, rfl⟩ := period_cases hp
  have devices := (h.dropSample.counterMoved (timerPeriod_moved h3)).otherDevices clocks cyc before.adcr.bon s1.intc.tf
    (nextSample s1)
  exact devices.boundary (nextSample s1) samplePads_atReset

/-- A chip held in reset has no interrupt to enter, and gets none. -/
theorem heldStep_keeps {s : State} (h : s.Inv) (hlow : s.resLow = true) :
    (heldStep s).Inv ∧ (heldStep s).rom = s.rom ∧ (heldStep s).par = s.par := by
  have hentry : s.entering = none := h.entry.elim id fun hk => hk.trans (by simp [pendingInterrupt, hlow])
  have dropped : Woken s (dropSample s) := ⟨h.woken.toMidStep.dropSample, h.haltTimeBase⟩
  have woken : Woken s (heldStep s) := dropped.samplePads (nextSample s)
  exact ⟨woken.inv samplePads_atReset (.inl (samplePads_entering hentry)), woken.rom, woken.par⟩

/-- Settles O40, by the four things a step can be: each leaves the core's own effect in the middle of a step, and the end of the
period completes the invariant. -/
theorem everyStepKeepsTheInvariant : Obligations.EveryStepKeepsTheInvariant := by
  intro s s' hinv hstep
  rcases step_cases hstep with ⟨hlow, rfl⟩ | ⟨_, _, _, hp⟩ | ⟨_, _, k, _, hp⟩ | ⟨_, hrun, _, i, s1, _, hexec, hp⟩
  · exact heldStep_keeps hinv hlow
  · exact hinv.woken.toMidStep.period hp
  · exact (takeInterrupt_midStep k hinv).period hp
  · exact (exec_midStep hinv hrun hexec).period hp

/-- Settles O41: after power-on the core runs with everything off. -/
theorem resetHasTheInvariant : Obligations.ResetHasTheInvariant :=
  (Woken.ofQuiet (s0 := State.reset) rfl rfl rfl rfl rfl rfl rfl rfl).inv (fun _ => ⟨rfl, rfl, rfl, rfl, rfl, rfl, rfl⟩) (.inl rfl)

end Sys2Proof.Machine
end

