-- ==== Sys2Proof/Proofs/ControlFlow.lean ====
section
/-! Jumps, calls and returns (O24): what the stack does at each depth, and what each instruction adds to it. -/

namespace Sys2Proof.Machine

open Sys2Proof

/-! ## The stack -/

theorem push_empty {s : State} (h : s.sp = 0) (v : PAddr) : push v s = { s with stk0 := v, sp := 1 } := by
  simp [push, h]

theorem push_one {s : State} (h : s.sp = 1) (v : PAddr) : push v s = { s with stk1 := v, sp := 2 } := by
  simp [push, h]

/-- A push on a full stack loses the oldest entry (R27). -/
theorem push_full {s : State} (h : s.sp = 2) (v : PAddr) : push v s = { s with stk0 := s.stk1, stk1 := v } := by
  simp [push, h]

theorem popPc_empty {s : State} (h : s.sp = 0) : popPc s = .error .stackUnderflow := by
  simp [popPc, h]

/-- A pop with an entry held takes the youngest one. -/
theorem popPc_youngest {s : State} {ret : PAddr} {depth : Fin 3}
    (h : (s.sp = 1 ∧ ret = s.stk0 ∧ depth = 0) ∨ (s.sp = 2 ∧ ret = s.stk1 ∧ depth = 1)) :
    popPc s = .ok { s with pc := ret, sp := depth } := by
  rcases h with ⟨hsp, rfl, rfl⟩ | ⟨hsp, rfl, rfl⟩ <;> simp [popPc, hsp]

/-! ## The instructions -/

theorem exec_call (a : PAddr) (s : State) : exec (.call a) s = .next { push (s.pc + 1) s with pc := a } := rfl

/-- A return is a pop, and then the instruction's own effect, if the pop is answered. -/
theorem exec_returns_of_pop {s s1 : State} (x : Byte) (h : popPc s = .ok s1) :
    exec .ret s = .next s1 ∧ exec (.retAx x) s = .next { s1 with acc := x } ∧
      exec .reti s = .next { s1 with intc := { s1.intc with emi := true } } := by
  simp [exec, execRet, execRetAx, execReti, returnFromInterrupt, returning, h]

/-- If it is not, each of the three stops with the pop's fault. -/
theorem exec_returns_of_fault {s : State} {f : Fault} (x : Byte) (h : popPc s = .error f) :
    exec .ret s = .fault f ∧ exec (.retAx x) s = .fault f ∧ exec .reti s = .fault f := by
  simp [exec, execRet, execRetAx, execReti, returnFromInterrupt, returning, h]

/-- Settles O24, by the depth of the stack. -/
theorem jumpsCallsAndReturns : Obligations.JumpsCallsAndReturns := by
  intro s a
  refine ⟨rfl, fun h => ?_, fun h => ?_, fun h => ?_, fun x ret depth h => ?_⟩
  · rw [exec_call, push_empty h]
  · rw [exec_call, push_one h]
  · rw [exec_call, push_full h]
  · exact exec_returns_of_pop x (popPc_youngest h)

end Sys2Proof.Machine
end

