-- ==== Sys2Proof/Proofs/RefusedForms.lean ====
section
/-! The forms the spec refuses by name (O30): STATUS under an instruction that writes flags of its own (U5), PCL under SIZ and
SDZ (U6), a timer location under anything but MOV (U10), and a return with nothing on the stack (U3). -/

namespace Sys2Proof.Machine

open Sys2Proof

/-! ## STATUS and PCL -/

theorem modifyWithFlags_status {m : DAddr} {s : State} (h : resolve s m = .ok (.bank0 0x0A)) (r : Byte → State → Byte)
    (f : Byte → State → Flags) : modifyWithFlags m r f s = .refused .statusCollision := by
  simp [modifyWithFlags, withTarget, h, Target.isStatus]

theorem execDaa_status {m : DAddr} {s : State} (h : resolve s m = .ok (.bank0 0x0A)) :
    execDaa m s = .refused .statusCollision := by
  simp [execDaa, withTarget, h, Target.isStatus]

theorem memAndSkip_pcl {m : DAddr} {s : State} (h : resolve s m = .ok (.bank0 0x06)) (f : Byte → Byte) :
    memAndSkip m f s = .refused .skipOnPcl := by
  simp [memAndSkip, withTarget, h, Target.isPcl]

/-- Every instruction that writes flags of its own refuses STATUS: DAA, and those of the read-modify-write form. -/
theorem statusForbidden_refused {m : DAddr} {s : State} (h : resolve s m = .ok (.bank0 0x0A)) {i : Instr}
    (hi : i ∈ statusForbidden m) : exec i s = .refused .statusCollision := by
  simp only [statusForbidden, List.mem_cons, List.not_mem_nil, or_false] at hi
  rcases hi with rfl | rfl | rfl | rfl | rfl | rfl | rfl | rfl | rfl | rfl | rfl | rfl | rfl
  case inr.inr.inr.inr.inl => exact execDaa_status h
  all_goals exact modifyWithFlags_status h _ _

/-! ## The timer locations -/

/-- An instruction other than MOV may not read a timer location (R98). -/
theorem memRead_other_timer {t : Target} (ht : TimerLocation t) (s : State) :
    memRead .other t s = .error .timerAccessForbidden := by
  rcases ht with rfl | rfl | rfl | rfl <;> rfl

/-- Nor write one. -/
theorem memWrite_other_timer {t : Target} (ht : TimerLocation t) (v : Byte) (s : State) :
    memWrite .other t v s = .error .timerAccessForbidden := by
  rcases ht with rfl | rfl | rfl | rfl <;> rfl

theorem timerLocation_not_status {t : Target} (ht : TimerLocation t) : t.isStatus = false := by
  rcases ht with rfl | rfl | rfl | rfl <;> rfl

theorem timerLocation_not_pcl {t : Target} (ht : TimerLocation t) : t.isPcl = false := by
  rcases ht with rfl | rfl | rfl | rfl <;> rfl

section Timer

variable {m : DAddr} {s : State} {t : Target} (h : resolve s m = .ok t) (ht : TimerLocation t)
include h ht

theorem readingOp_timer (k : Byte → State → Result) : readingOp m s k = .refused .timerAccessForbidden := by
  simp [readingOp, withTarget, withRead, h, memRead_other_timer ht]

theorem modifyWithFlags_timer (r : Byte → State → Byte) (f : Byte → State → Flags) :
    modifyWithFlags m r f s = .refused .timerAccessForbidden := by
  simp [modifyWithFlags, withTarget, withRead, h, timerLocation_not_status ht, memRead_other_timer ht]

theorem execDaa_timer : execDaa m s = .refused .timerAccessForbidden := by
  simp [execDaa, withTarget, withWrite, h, timerLocation_not_status ht, memWrite_other_timer ht]

theorem plainToMem_timer (f : Byte → Byte) : plainToMem m f s = .refused .timerAccessForbidden := by
  simp [plainToMem, withTarget, withRead, h, memRead_other_timer ht]

theorem storeOnly_timer (v : State → Byte) : storeOnly .other m v s = .refused .timerAccessForbidden := by
  simp [storeOnly, withTarget, withWrite, h, memWrite_other_timer ht]

theorem memAndSkip_timer (f : Byte → Byte) : memAndSkip m f s = .refused .timerAccessForbidden := by
  simp [memAndSkip, withTarget, withRead, h, timerLocation_not_pcl ht, memRead_other_timer ht]

theorem tableRead_timer (entry : State → PAddr) : tableRead m entry s = .refused .timerAccessForbidden := by
  simp [tableRead, withTarget, withWrite, h, memWrite_other_timer ht]

/-- Every instruction with an operand but the two MOVs is of a form that refuses a timer location. -/
theorem exec_timer {i : Instr} (hm : memoryOperand i = some m) (hread : i ≠ .movAm m) (hwrite : i ≠ .movmA m) :
    exec i s = .refused .timerAccessForbidden := by
  cases i <;> cases hm
  case movAm => exact absurd rfl hread
  case movmA => exact absurd rfl hwrite
  case daa => exact execDaa_timer h ht
  case addmAm | adcmAm | submAm | sbcmAm | andmAm | ormAm | xormAm | cpl | inc | dec | rrc | rlc =>
    exact modifyWithFlags_timer h ht _ _
  case rr | rl | swap | clrBit | setBit => exact plainToMem_timer h ht _
  case clrMem => exact storeOnly_timer h ht (fun _ => 0x00)
  case setMem => exact storeOnly_timer h ht (fun _ => 0xFF)
  case siz | sdz => exact memAndSkip_timer h ht _
  case tabrdc | tabrdl => exact tableRead_timer h ht _
  all_goals exact readingOp_timer h ht _

end Timer

/-- Settles O30: each form is refused by the check that names it, and a return stops where the pop does. -/
theorem refusedForms : Obligations.RefusedForms := by
  intro s m t h
  refine ⟨?_, ?_, fun ht i hm hread hwrite => exec_timer h ht hm hread hwrite, fun hsp x => ?_⟩
  · rintro rfl i hi
    exact statusForbidden_refused h hi
  · rintro rfl
    exact ⟨memAndSkip_pcl h _, memAndSkip_pcl h _⟩
  · exact exec_returns_of_fault x (popPc_empty hsp)

end Sys2Proof.Machine
end

