-- ==== Sys2Proof/Proofs/Addressing.lean ====
section
/-! Where an operand leads (O32), and that one which leads nowhere is the named stop of its instruction (O29): every instruction
with an operand resolves it before anything else. -/

namespace Sys2Proof.Machine

open Sys2Proof

/-! ## The pointers -/

theorem resolve_mp0 (s : State) : resolve s 0x00 = resolveBank0 s.mp0 := rfl

theorem resolve_mp1_bank0 {s : State} (h : s.bp = 0x00) : resolve s 0x02 = resolveBank0 s.mp1 :=
  if_pos h

theorem resolve_mp1_bank1 {s : State} (h : s.bp = 0x01) : resolve s 0x02 = resolveBank1 s.mp1 := by
  simp [resolve, h]

theorem resolve_mp1_badBank {s : State} (h0 : s.bp ≠ 0x00) (h1 : s.bp ≠ 0x01) : resolve s 0x02 = .error .badBank :=
  (if_neg h0).trans (if_neg h1)

theorem resolveBank0_unmapped {e : Byte} (h : 0x80 ≤ e.toNat) : resolveBank0 e = .error .unmappedData :=
  if_pos h

/-- An indirect addressing register is no location that a pointer can reach (R88). -/
theorem resolveBank0_self {e : Byte} (h : e = 0x00 ∨ e = 0x02) : resolveBank0 e = .ok .self := by
  rcases h with rfl | rfl <;> rfl

theorem resolveBank0_location {e : Byte} (h : e.toNat < 0x80) (h0 : e ≠ 0x00) (h2 : e ≠ 0x02) :
    resolveBank0 e = .ok (.bank0 e) := by
  simp only [resolveBank0, if_neg (Nat.not_le.mpr h), h0, h2, or_self, if_false]

theorem resolveBank1_unmapped {e : Byte} (h : 0x80 ≤ e.toNat) : resolveBank1 e = .error .unmappedData :=
  if_pos h

theorem resolveBank1_lcd {e : Byte} (h1 : 0x40 ≤ e.toNat) (h2 : e.toNat ≤ 0x4D) : resolveBank1 e = .ok (.lcd e) := by
  have h : ¬0x80 ≤ e.toNat := by omega
  simp only [resolveBank1, if_neg h, h1, h2, and_self, if_true]

theorem resolveBank1_outside {e : Byte} (h : e.toNat < 0x40 ∨ 0x4D < e.toNat) (h80 : e.toNat < 0x80) :
    resolveBank1 e = .error .unmappedBank1 := by
  have hout : ¬(0x40 ≤ e.toNat ∧ e.toNat ≤ 0x4D) := by omega
  simp only [resolveBank1, if_neg (Nat.not_le.mpr h80), if_neg hout]

/-- Settles O32: the clauses are the cases of the resolution, one lemma each. -/
theorem operandAddressing : Obligations.OperandAddressing := by
  intro s a v
  refine ⟨fun m h0 h2 => ?_, fun h h0 h2 => ?_, fun hb h h0 h2 => ?_, fun hb h1 h2 => ?_, fun h => ?_, fun hb h => ?_, rfl, rfl⟩
  · rw [resolve_direct s m h0 h2, BitVec.ofNat_toNat]
  · rw [resolve_mp0, resolveBank0_location h h0 h2]
  · rw [resolve_mp1_bank0 hb, resolveBank0_location h h0 h2]
  · rw [resolve_mp1_bank1 hb, resolveBank1_lcd h1 h2]
  · rw [resolve_mp0, resolveBank0_self h]
  · rw [resolve_mp1_bank0 hb, resolveBank0_self h]

/-! ## The stops -/

section Unresolved

variable {m : DAddr} {s : State} {f : Fault} (h : resolve s m = .error f)
include h

theorem readingOp_unresolved (k : Byte → State → Result) : readingOp m s k = .fault f :=
  withTarget_fault m s _ f h

theorem modifyWithFlags_unresolved (r : Byte → State → Byte) (g : Byte → State → Flags) :
    modifyWithFlags m r g s = .fault f :=
  withTarget_fault m s _ f h

theorem plainToMem_unresolved (g : Byte → Byte) : plainToMem m g s = .fault f :=
  withTarget_fault m s _ f h

theorem storeOnly_unresolved (a : Access) (v : State → Byte) : storeOnly a m v s = .fault f :=
  withTarget_fault m s _ f h

theorem memAndSkip_unresolved (g : Byte → Byte) : memAndSkip m g s = .fault f :=
  withTarget_fault m s _ f h

theorem tableRead_unresolved (entry : State → PAddr) : tableRead m entry s = .fault f :=
  withTarget_fault m s _ f h

theorem execMovAm_unresolved : execMovAm m s = .fault f :=
  withTarget_fault m s _ f h

theorem execDaa_unresolved : execDaa m s = .fault f :=
  withTarget_fault m s _ f h

/-- Every instruction with an operand is of a form that resolves it before anything else. -/
theorem exec_unresolved {i : Instr} (hm : memoryOperand i = some m) : exec i s = .fault f := by
  cases i <;> cases hm
  case movAm => exact execMovAm_unresolved h
  case daa => exact execDaa_unresolved h
  case addmAm | adcmAm | submAm | sbcmAm | andmAm | ormAm | xormAm | cpl | inc | dec | rrc | rlc =>
    exact modifyWithFlags_unresolved h _ _
  case rr | rl | swap | clrBit | setBit => exact plainToMem_unresolved h _
  case movmA => exact storeOnly_unresolved h .mov State.acc
  case clrMem => exact storeOnly_unresolved h .other fun _ => 0x00
  case setMem => exact storeOnly_unresolved h .other fun _ => 0xFF
  case siz | sdz => exact memAndSkip_unresolved h _
  case tabrdc | tabrdl => exact tableRead_unresolved h _
  all_goals exact readingOp_unresolved h _

end Unresolved

/-- Settles O29: each case is a resolution that fails. -/
theorem unresolvedOperandStops : Obligations.UnresolvedOperandStops := by
  intro s i m hm
  refine ⟨?_, ?_, ?_, ?_⟩
  · rintro rfl h
    exact exec_unresolved ((resolve_mp0 s).trans (resolveBank0_unmapped h)) hm
  · rintro rfl (hb | hb) h
    · exact exec_unresolved ((resolve_mp1_bank0 hb).trans (resolveBank0_unmapped h)) hm
    · exact exec_unresolved ((resolve_mp1_bank1 hb).trans (resolveBank1_unmapped h)) hm
  · rintro rfl hb h h80
    exact exec_unresolved ((resolve_mp1_bank1 hb).trans (resolveBank1_outside h h80)) hm
  · rintro rfl h0 h1
    exact exec_unresolved (resolve_mp1_badBank h0 h1) hm

end Sys2Proof.Machine
end

