-- ==== Sys2Proof/Proofs/CounterAccess.lean ====
section
/-! The two MOVs on the counter's locations (O20, O22), and the stores that read nothing (O21): what the low byte buffer brings to
an access, the port that answers it, and the MOV around it. -/

namespace Sys2Proof.Machine

open Sys2Proof

/-! ## The two MOVs -/

/-- MOV A,[m], once its operand has resolved. -/
theorem exec_movAm_resolved {m : DAddr} {s : State} {t : Target} (h : resolve s m = .ok t) :
    exec (.movAm m) s = withRead .mov t s.advance fun v s1 => .next { s1 with acc := v } := by
  simp only [exec, execMovAm, withTarget, resolve_advance, h]

theorem exec_movAm_reads {m : DAddr} {s s1 : State} {t : Target} {v : Byte} (h : resolve s m = .ok t)
    (hr : memRead .mov t s.advance = .ok (v, s1)) : exec (.movAm m) s = .next { s1 with acc := v } := by
  rw [exec_movAm_resolved h, withRead, hr]

/-- MOV [m],A, once its operand has resolved. -/
theorem exec_movmA_resolved {m : DAddr} {s : State} {t : Target} (h : resolve s m = .ok t) :
    exec (.movmA m) s = withWrite .mov t s.acc s.advance .next := by
  simp only [exec, execMovmA, storeOnly, withTarget, resolve_advance, h, advance_acc]

theorem exec_movmA_writes {m : DAddr} {s s1 : State} {t : Target} (h : resolve s m = .ok t)
    (hw : memWrite .mov t s.acc s.advance = .ok s1) : exec (.movmA m) s = .next s1 := by
  rw [exec_movmA_resolved h, withWrite, hw]

/-! ## The ports -/

/-- The low byte buffer as a partner: the byte that its own use has left there, and else a free one. -/
theorem bufferByte_cases (tag : BufSource) (s : State) : ∃ low d,
    bufferByte tag s = (low, { s with draws := d }) ∧ (s.timer.src = tag → low = s.timer.lbuf) := by
  obtain ⟨d, hd⟩ := bufferByte_state tag s
  exact ⟨(bufferByte tag s).1, d, Prod.ext rfl hd, fun h => by rw [bufferByte_match tag s h]⟩

section Ports

variable {s : State} (h : s.adcr.adc = true → s.tmrc.ton = false)
include h

/-- With no conversion running, MOV reads timer A in both modes (R95, R96). -/
theorem timerRead_timerA : timerRead .mov .ah s = .ok (latchRead s.timer.ta .rdA s) ∧
    timerRead .mov .al s = .ok (bufferByte .rdA s) := by
  cases ha : s.adcr.adc <;> simp [timerRead, ha, h]

/-- And timer B in A/D converter mode (R96). -/
theorem timerRead_timerB (ha : s.adcr.adc = true) : timerRead .mov .bh s = .ok (latchRead s.timer.tb .rdB s) ∧
    timerRead .mov .bl s = .ok (bufferByte .rdB s) := by
  simp [timerRead, ha, h]

/-- With no conversion running, MOV writes timer A in A/D converter mode (R96). -/
theorem timerWrite_timerA (ha : s.adcr.adc = true) (v : Byte) : timerWrite .mov .ah v s = .ok (loadTa v s) ∧
    timerWrite .mov .al v s = .ok (writeBuffer v .wrA s) := by
  simp [timerWrite, ha, h]

/-- And timer B, or the preload register, in both modes; the load goes on to a counter that is off (R95, R96). -/
theorem timerWrite_timerB (v : Byte) :
    timerWrite .mov .bh v s = .ok (if s.adcr.adc = false ∧ s.tmrc.ton = false then loadTbAndTa v s else loadTb v s) ∧
      timerWrite .mov .bl v s = .ok (writeBuffer v .wrB s) := by
  cases ha : s.adcr.adc <;> cases ht : s.tmrc.ton <;> simp_all [timerWrite]

end Ports

/-! ## The statements -/

/-- Settles O20: what each port answers, seen through the MOV. -/
theorem loadFromTimer : Obligations.LoadFromTimer := by
  intro s m hoff
  obtain ⟨hah, hal⟩ := timerRead_timerA (s := s.advance) hoff
  refine ⟨fun h => exec_movAm_reads h hah, fun h hsrc => ?_, fun h ha => ?_, fun h ha hsrc => ?_⟩
  · exact exec_movAm_reads h (hal.trans (congrArg _ (bufferByte_match .rdA s.advance hsrc)))
  · exact exec_movAm_reads h (timerRead_timerB (s := s.advance) hoff ha).1
  · exact exec_movAm_reads h
      ((timerRead_timerB (s := s.advance) hoff ha).2.trans (congrArg _ (bufferByte_match .rdB s.advance hsrc)))

/-- Settles O22: what each port does with the byte, seen through the MOV. -/
theorem storeToTimer : Obligations.StoreToTimer := by
  intro s m hoff
  obtain ⟨hbh, hbl⟩ := timerWrite_timerB (s := s.advance) hoff s.acc
  refine ⟨fun h => exec_movmA_writes h hbl, fun h => ?_, fun h ha => ?_, fun h ha => ?_⟩
  · obtain ⟨low, d, hbuf, hlow⟩ := bufferByte_cases .wrB s.advance
    refine ⟨low, d, hlow, (exec_movmA_writes h hbh).trans ?_⟩
    simp only [advance_adcr, advance_tmrc, loadTbAndTa, loadTb, hbuf]
    split <;> rfl
  · exact exec_movmA_writes h (timerWrite_timerA (s := s.advance) hoff ha s.acc).2
  · obtain ⟨low, d, hbuf, hlow⟩ := bufferByte_cases .wrA s.advance
    refine ⟨low, d, hlow, (exec_movmA_writes h (timerWrite_timerA (s := s.advance) hoff ha s.acc).1).trans ?_⟩
    simp only [loadTa, hbuf]
    rfl

/-- The form that stores without reading leaves its byte at the destination, where the write has an effect there. -/
theorem leavesAt_of_storeOnly {i : Instr} {a : Access} {m : DAddr} {g : State → Byte} {s : State} {t : Target}
    (hi : exec i s = storeOnly a m g s) (h : resolve s m = .ok t) (hw : WriteAccepted a t (g s.advance) s) :
    LeavesAt i s t (g s.advance) (StatusWritten t (g s.advance) s.flags) := by
  obtain ⟨s', hnext, _, hwritten, hkept, hflags⟩ := storeOnly_completes a m g s t _ h rfl hw
  exact ⟨s', hi.trans hnext, hwritten, hkept, hflags⟩

/-- Settles O21: the three are of one form, and differ in the byte alone. -/
theorem storeWithoutRead : Obligations.StoreWithoutRead := by
  intro s m t h
  exact ⟨leavesAt_of_storeOnly (g := State.acc) rfl h, leavesAt_of_storeOnly (g := fun _ => 0x00) rfl h,
    leavesAt_of_storeOnly (g := fun _ => 0xFF) rfl h⟩

end Sys2Proof.Machine
end

