-- ==== Sys2Proof/Proofs/Reads.lean ====
section
/-! What the locations read as (O33), and ADCR with the low voltage detector behind its BLF (O34). -/

namespace Sys2Proof.Machine

open Sys2Proof Sys2Proof.Config

/-! ## The bits of a read -/

/-- The packed bits of a control register, each in its place. -/
theorem packBits_bits : ∀ b7 b6 b5 b4 b3 b2 b1 b0 : Bool, let v := packBits b7 b6 b5 b4 b3 b2 b1 b0
    v.getLsbD 0 = b0 ∧ v.getLsbD 1 = b1 ∧ v.getLsbD 2 = b2 ∧ v.getLsbD 3 = b3 ∧
      v.getLsbD 4 = b4 ∧ v.getLsbD 5 = b5 ∧ v.getLsbD 6 = b6 ∧ v.getLsbD 7 = b7 := by decide

/-- Port A returns the pad of an input line and the latch of an output line (R93). -/
theorem portRead_bit (p : Port) (k : Fin 8) :
    p.read.getLsbD k = if p.pac.getLsbD k then p.pads.getLsbD k else p.latch.getLsbD k := by
  rw [Port.read, BitVec.getLsbD_or, BitVec.getLsbD_and, BitVec.getLsbD_and, BitVec.getLsbD_not]
  cases p.pac.getLsbD k <;> simp

/-- Three zero bits at the bottom of a byte (R92). -/
theorem low_bits_zero : ∀ v : Byte, v.getLsbD 0 = false → v.getLsbD 1 = false → v.getLsbD 2 = false → v.toNat % 8 = 0 := by
  decide

/-- Three zero bits at the top of a byte (R92). -/
theorem high_bits_zero : ∀ v : Byte, v.getLsbD 5 = false → v.getLsbD 6 = false → v.getLsbD 7 = false → v.toNat < 0x20 := by
  decide

/-! ## Memory and reserved locations -/

theorem readCell_listed {key : Nat} {s : State} {v : Byte} (h : lookup s.mem key = some v) : readCell key s = (v, s) := by
  simp only [readCell, h]

/-- A location that holds no value reads as a draw (R63). -/
theorem readCell_unlisted {key : Nat} {s : State} (h : lookup s.mem key = none) :
    readCell key s = (freeByte s.draws, { s with draws := s.draws + 1 }) := by
  simp only [readCell, h, drawByte]

theorem memRead_ram {e : Byte} (h : 0x60 ≤ e.toNat) (a : Access) (s : State) :
    memRead a (.bank0 e) s = .ok (readCell e.toNat s) := by
  simp only [memRead, locRead, (locate_ram_iff e).mpr h, ramKey]

/-- The three reserved ranges of the map (R90). -/
theorem locate_reserved : ∀ e : Byte,
    (0x0C ≤ e.toNat ∧ e.toNat ≤ 0x11) ∨ (0x14 ≤ e.toNat ∧ e.toNat ≤ 0x1F) ∨ (0x26 ≤ e.toNat ∧ e.toNat ≤ 0x5F) →
      locate e = .reserved := by decide

/-- Settles O33: each register is read off the map, and each of its bits off the packed byte. -/
theorem locationReads : Obligations.LocationReads := by
  intro s a e
  refine ⟨⟨_, rfl, ?_⟩, ⟨_, rfl, ?_⟩, ⟨_, rfl, ?_⟩, ⟨_, rfl, portRead_bit s.port⟩, ⟨_, rfl, ?_⟩, ⟨_, rfl, ?_⟩, rfl, rfl, rfl, rfl,
    rfl, rfl, rfl, fun v h60 h => ?_, fun v h => ?_, fun h60 h => ?_, fun h => ?_, fun h => ?_⟩
  · exact packBits_bits _ _ _ _ _ _ _ _
  · exact packBits_bits _ _ _ _ _ _ _ _
  · obtain ⟨h0, h1, h2, htop⟩ := packBits_bits false s.tmrc.tm1 s.tmrc.tm0 s.tmrc.ton s.tmrc.te false false false
    exact ⟨low_bits_zero _ h0 h1 h2, htop⟩
  · exact BitVec.toNat_setWidth_of_le (by decide)
  · exact BitVec.toNat_setWidth 8 s.pc
  · rw [memRead_ram h60, readCell_listed h]
  · exact congrArg Except.ok (readCell_listed h)
  · rw [memRead_ram h60, readCell_unlisted h]
  · exact congrArg Except.ok (readCell_unlisted h)
  · simp only [memRead, locRead, locate_reserved e h]

/-! ## The low voltage detector -/

theorem memRead_adcr (a : Access) (s : State) : memRead a (.bank0 0x25) s = .ok (readAdcr s) := rfl

theorem blfSettled_iff (s : State) : blfSettled s = true ↔ s.adcr.bon = true ∧ s.par.lvdSettle ≤ s.lvdAge := by
  simp [blfSettled]

theorem Adcr.toByte_bits (r : Adcr) (blf : Bool) :
    (r.toByte blf).getLsbD 0 = r.ovb ∧ (r.toByte blf).getLsbD 1 = r.adc ∧ (r.toByte blf).getLsbD 2 = r.mode ∧
      (r.toByte blf).getLsbD 3 = r.bon ∧ (r.toByte blf).getLsbD 4 = blf ∧ (r.toByte blf).getLsbD 5 = false ∧
      (r.toByte blf).getLsbD 6 = false ∧ (r.toByte blf).getLsbD 7 = false :=
  packBits_bits false false false blf r.bon r.mode r.adc r.ovb

/-- ADCR as a read of it finds it: BLF where it is known, and else a draw in its place (R352). -/
theorem readAdcr_cases (s : State) : ∃ blf s1, readAdcr s = (s.adcr.toByte blf, s1) ∧
    (s.adcr.bon = true ∧ s.par.lvdSettle ≤ s.lvdAge → blf = s.adcr.blf ∧ s1 = s) ∧
    (¬(s.adcr.bon = true ∧ s.par.lvdSettle ≤ s.lvdAge) → blf = freeBit s.draws ∧ s1 = { s with draws := s.draws + 1 }) := by
  rw [← blfSettled_iff]
  unfold readAdcr
  split
  · next h => exact ⟨_, _, rfl, fun _ => ⟨rfl, rfl⟩, fun hn => absurd h hn⟩
  · next h => exact ⟨_, _, rfl, fun hs => absurd hs h, fun _ => ⟨rfl, rfl⟩⟩

/-- The counter leaves the low voltage detector alone. -/
theorem CounterMoved.lvd {s s' : State} (h : CounterMoved s s') : s'.adcr = s.adcr ∧ s'.lvdAge = s.lvdAge := by
  obtain ⟨_, _, _, _, _, _, rfl, _⟩ := h
  exact ⟨rfl, rfl⟩

/-- In a period without a reset the low voltage detector alone changes ADCR and the settling time. -/
theorem otherDevices_lvd {clocks cyc : Nat} {b tf : Bool} {e : EnvSample} {s : State} (h : NoReset clocks e s) :
    (otherDevices clocks cyc b tf e s).adcr = (runLvd cyc b e s).adcr ∧
      (otherDevices clocks cyc b tf e s).lvdAge = (runLvd cyc b e s).lvdAge := by
  obtain ⟨_, _, _, heq, _⟩ := otherDevices_noReset (cyc := cyc) (b := b) (tf := tf) h
  rw [heq]
  exact ⟨rfl, rfl⟩

/-- So a whole period is one of the detector, for BON, BLF and the settling time. -/
theorem period_lvd {before s1 s' : State} {clocks cyc : Nat} {drawn : Bool}
    (hp : period before clocks cyc drawn s1 = .next s') (hno : NoReset clocks (nextSample s1) s1) :
    s'.adcr = (runLvd cyc before.adcr.bon (nextSample s1) s1).adcr ∧
      s'.lvdAge = (runLvd cyc before.adcr.bon (nextSample s1) s1).lvdAge := by
  obtain ⟨s3, h3, rfl⟩ := period_cases hp
  have hmoved := timerPeriod_moved h3
  obtain ⟨hadcr, hage⟩ := hmoved.lvd
  have hno3 : NoReset clocks (nextSample s1) s3 := NoReset.of_counterMoved (s := dropSample s1) hno hmoved
  obtain ⟨hadcr', hage'⟩ := otherDevices_lvd (cyc := cyc) (b := before.adcr.bon) (tf := s1.intc.tf) hno3
  obtain ⟨_, _, hb⟩ := boundary_eq (nextSample s1)
    (otherDevices clocks cyc before.adcr.bon s1.intc.tf (nextSample s1) s3)
  rw [hb]
  simp [hadcr', hage', hadcr, hage]

/-- Settles O34: the read of ADCR by whether BLF is known, and the period as one of the detector. -/
theorem lowVoltageDetector : Obligations.LowVoltageDetector := by
  refine ⟨fun s a => ?_, fun before s1 s' clocks cyc drawn hp hno => ?_⟩
  · obtain ⟨blf, s1, hread, hknown, hfree⟩ := readAdcr_cases s
    obtain ⟨h0, h1, h2, h3, h4, h5, h6, h7⟩ := Adcr.toByte_bits s.adcr blf
    rw [← h4] at hknown hfree
    exact ⟨_, s1, (memRead_adcr a s).trans (congrArg Except.ok hread), h0, h1, h2, h3, high_bits_zero _ h5 h6 h7, hknown, hfree⟩
  · obtain ⟨hadcr, hage⟩ := period_lvd hp hno
    rw [hadcr, hage]
    simp

end Sys2Proof.Machine
end

