-- ==== Sys2Proof/Proofs/RefusedCounter.lean ====
section
/-! The accesses to the counter that the spec refuses by name (O31). A refused MOV is refused by its port. For TMRC and ADCR: each
instruction that writes its operand comes to the write of its byte with the counter's control registers as they were, and the
write is refused there. -/

namespace Sys2Proof.Machine

open Sys2Proof

/-! ## The two MOVs -/

theorem exec_movAm_readRefused {m : DAddr} {s : State} {t : Target} {r : Refusal} (h : resolve s m = .ok t)
    (hr : memRead .mov t s.advance = .error r) : exec (.movAm m) s = .refused r := by
  rw [exec_movAm_resolved h, withRead, hr]

theorem exec_movmA_writeRefused {m : DAddr} {s : State} {t : Target} {r : Refusal} (h : resolve s m = .ok t)
    (hw : memWrite .mov t s.acc s.advance = .error r) : exec (.movmA m) s = .refused r := by
  rw [exec_movmA_resolved h, withWrite, hw]

/-- While a conversion runs no timer location is accessible (R97). -/
theorem timerLocation_converting {t : Target} {s : State} (ht : TimerLocation t) (hadc : s.adcr.adc = true)
    (hton : s.tmrc.ton = true) (v : Byte) : memRead .mov t s = .error .timerAccessForbidden ∧
      memWrite .mov t v s = .error .timerAccessForbidden := by
  have hread (p : TimerPort) : timerRead .mov p s = .error .timerAccessForbidden := by simp [timerRead, hadc, hton]
  have hwrite (p : TimerPort) : timerWrite .mov p v s = .error .timerAccessForbidden := by simp [timerWrite, hadc, hton]
  rcases ht with rfl | rfl | rfl | rfl
  · exact ⟨hread .ah, hwrite .ah⟩
  · exact ⟨hread .al, hwrite .al⟩
  · exact ⟨hread .bh, hwrite .bh⟩
  · exact ⟨hread .bl, hwrite .bl⟩

/-- In timer/event counter mode timer B is not read (R95). -/
theorem memRead_timerB_undescribed {t : Target} {s : State} (hadc : s.adcr.adc = false)
    (ht : t = .bank0 0x23 ∨ t = .bank0 0x24) : memRead .mov t s = .error .timerAccessUndescribed := by
  rcases ht with rfl | rfl
  · show timerRead .mov .bh s = _
    simp [timerRead, hadc]
  · show timerRead .mov .bl s = _
    simp [timerRead, hadc]

/-- Nor is timer A written (R95). -/
theorem memWrite_timerA_undescribed {t : Target} {s : State} (hadc : s.adcr.adc = false)
    (ht : t = .bank0 0x20 ∨ t = .bank0 0x21) (v : Byte) : memWrite .mov t v s = .error .timerAccessUndescribed := by
  rcases ht with rfl | rfl
  · show timerWrite .mov .ah v s = _
    simp [timerWrite, hadc]
  · show timerWrite .mov .al v s = _
    simp [timerWrite, hadc]

/-! ## What an instruction stores -/

/-- The outcome is that of a write of `r` to `t`, in a state that has the counter's control registers of `s`. -/
def ComesToWrite (t : Target) (r : Byte) (s : State) (outcome : Result) : Prop :=
  ∃ a s1 k, s1.tmrc = s.tmrc ∧ s1.adcr = s.adcr ∧ outcome = withWrite a t r s1 k

/-- A write that is refused, whatever the instruction, in every such state is the instruction's refusal. -/
theorem ComesToWrite.refused {t : Target} {r : Byte} {s : State} {outcome : Result} {x : Refusal}
    (h : ComesToWrite t r s outcome)
    (hw : ∀ a s1, s1.tmrc = s.tmrc → s1.adcr = s.adcr → memWrite a t r s1 = .error x) : outcome = .refused x := by
  obtain ⟨a, s1, k, htmrc, hadcr, rfl⟩ := h
  rw [withWrite, hw a s1 htmrc hadcr]

theorem complement_eq_sub : ∀ b : Byte, ~~~b = 255 - b := by decide

/-- The last page begins at 300H (R250). -/
theorem lastPageEntry_eq (s : State) : lastPageEntry s = 0x300 + s.tblp.setWidth 10 := by
  have h : ∀ b : Byte, 0b11#2 ++ b = (0x300 + b.setWidth 10 : PAddr) := by decide
  exact h s.tblp

section Stores

variable {m : DAddr} {s : State} {t : Target} {v : Byte} (h : Operand .other m s t v)
include h

theorem modifyWithFlags_comesToWrite (ht : t ≠ .bank0 0x0A) {result : Byte → State → Byte} {r : Byte}
    (hr : ∀ d, result v { s with pc := s.pc + 1, draws := d } = r) (flags : Byte → State → Flags) :
    ComesToWrite t r s (modifyWithFlags m result flags s) := by
  obtain ⟨d, hd⟩ := operand_read m s t v h
  have hst : t.isStatus = false := Bool.eq_false_iff.mpr (mt (isStatus_iff t).mp ht)
  refine ⟨.other, { s with pc := s.pc + 1, draws := d },
    fun s1 => .next { s1 with flags := flags v { s with pc := s.pc + 1, draws := d } }, rfl, rfl, ?_⟩
  simp only [modifyWithFlags, withTarget, resolve_advance, h.1, hst, withRead, hd, hr, Bool.false_eq_true, if_false]

theorem plainToMem_comesToWrite (g : Byte → Byte) : ComesToWrite t (g v) s (plainToMem m g s) := by
  obtain ⟨d, hd⟩ := operand_read m s t v h
  refine ⟨.other, { s with pc := s.pc + 1, draws := d }, .next, rfl, rfl, ?_⟩
  simp only [plainToMem, withTarget, resolve_advance, h.1, withRead, hd]

theorem memAndSkip_comesToWrite (ht : t ≠ .bank0 0x06) (g : Byte → Byte) : ComesToWrite t (g v) s (memAndSkip m g s) := by
  obtain ⟨d, hd⟩ := operand_read m s t v h
  have hpcl : t.isPcl = false := Bool.eq_false_iff.mpr (mt (isPcl_iff t).mp ht)
  refine ⟨.other, { s with pc := s.pc + 1, draws := d }, fun s1 => .next (s1.skipIf (g v == 0)), rfl, rfl, ?_⟩
  simp only [memAndSkip, withTarget, resolve_advance, h.1, hpcl, withRead, hd, Bool.false_eq_true, if_false]

theorem storeOnly_comesToWrite (a : Access) (g : State → Byte) : ComesToWrite t (g s.advance) s (storeOnly a m g s) :=
  ⟨a, s.advance, .next, rfl, rfl, by simp only [storeOnly, withTarget, resolve_advance, h.1]⟩

theorem tableRead_comesToWrite (entry : State → PAddr) :
    ComesToWrite t (lowByte (romRead s (entry s.advance))) s (tableRead m entry s) :=
  ⟨.other, { s.advance with tblh := highByte (romRead s (entry s.advance)) }, .next, rfl, rfl, by
    simp only [tableRead, withTarget, resolve_advance, h.1]; rfl⟩

theorem execDaa_comesToWrite (ht : t ≠ .bank0 0x0A) :
    ComesToWrite t (daaResult s.acc s.flags.c s.flags.ac) s (execDaa m s) := by
  have hst : t.isStatus = false := Bool.eq_false_iff.mpr (mt (isStatus_iff t).mp ht)
  refine ⟨.other, s.advance, fun s1 => .next { s1 with flags := s1.flags.withC (daaCarry s.acc s.flags.c) }, rfl, rfl, ?_⟩
  simp only [execDaa, withTarget, resolve_advance, h.1, hst, Bool.false_eq_true, if_false]
  rfl

/-- Every instruction but MOV that stores a byte comes to the write of that byte, if its destination is neither STATUS nor PCL. -/
theorem exec_comesToWrite {i : Instr} {r : Byte} (hm : memoryOperand i = some m) (hr : storedByte s v i = some r)
    (hst : t ≠ .bank0 0x0A) (hpcl : t ≠ .bank0 0x06) : ComesToWrite t r s (exec i s) := by
  cases i <;> cases hm <;> cases hr
  case addmAm | adcmAm => exact modifyWithFlags_comesToWrite h hst (fun _ => rfl) _
  case submAm | sbcmAm => exact modifyWithFlags_comesToWrite h hst (fun _ => sub8_result _ _ _) _
  case daa => exact execDaa_comesToWrite h hst
  case andmAm | ormAm | xormAm | inc | dec | rrc | rlc => exact modifyWithFlags_comesToWrite h hst (fun _ => rfl) _
  case cpl => exact modifyWithFlags_comesToWrite h hst (fun _ => complement_eq_sub v) _
  case rr | rl | swap | clrBit | setBit => exact plainToMem_comesToWrite h _
  case siz | sdz => exact memAndSkip_comesToWrite h hpcl _
  case clrMem => exact storeOnly_comesToWrite h .other fun _ => 0x00
  case setMem => exact storeOnly_comesToWrite h .other fun _ => 0xFF
  case tabrdc => exact tableRead_comesToWrite h currentPageEntry
  case tabrdl =>
    rw [← lastPageEntry_eq]
    exact tableRead_comesToWrite h lastPageEntry

/-- With MOV, every instruction that writes its operand. -/
theorem exec_or_movmA_comesToWrite {i : Instr} {r : Byte} (hm : memoryOperand i = some m)
    (hr : storedByte s v i = some r ∨ (i = .movmA m ∧ r = s.acc)) (hst : t ≠ .bank0 0x0A) (hpcl : t ≠ .bank0 0x06) :
    ComesToWrite t r s (exec i s) := by
  rcases hr with hr | ⟨rfl, rfl⟩
  · exact exec_comesToWrite h hm hr hst hpcl
  · exact storeOnly_comesToWrite h .mov State.acc

end Stores

/-! ## The control registers -/

/-- The counter may not start in a mode without meaning (R330). -/
theorem writeTmrc_unused {v : Byte} {s : State} (hton : s.tmrc.ton = false) (h4 : v.getLsbD 4 = true)
    (h56 : v.getLsbD 5 = v.getLsbD 6) (h : v.getLsbD 5 = false ∨ s.adcr.adc = true) :
    writeTmrc v s = .error .unusedCountMode := by
  have hmode : countMode (Tmrc.ofByte v) s.adcr = .unused := by
    have hsel : ∀ adc b, b = false ∨ adc = true → selectedMode adc b b = .unused := by decide
    simp only [countMode, Tmrc.ofByte, h4, if_true, ← h56]
    exact hsel _ _ h
  simp [writeTmrc, hton, hmode]

/-- Its mode may not change while it stays on (R331). -/
theorem writeTmrc_modeChange {v : Byte} {s : State} (hton : s.tmrc.ton = true) (h4 : v.getLsbD 4 = true)
    (h : v.getLsbD 3 ≠ s.tmrc.te ∨ v.getLsbD 5 ≠ s.tmrc.tm0 ∨ v.getLsbD 6 ≠ s.tmrc.tm1) :
    writeTmrc v s = .error .modeChangeWhileOn := by
  refine if_pos ?_
  simp only [Tmrc.ofByte, hton, h4, Bool.and_true, Bool.true_and, Bool.not_eq_true', Bool.and_eq_false_iff,
    beq_eq_false_iff_ne]
  tauto

/-- Nor may ADC/TM (R338). -/
theorem writeAdcr_modeChange {v : Byte} {s : State} (hton : s.tmrc.ton = true) (h : v.getLsbD 1 ≠ s.adcr.adc) :
    writeAdcr v s = .error .modeChangeWhileOn := by
  refine if_pos ?_
  simpa only [Adcr.written, hton, Bool.true_and, Bool.not_eq_true', beq_eq_false_iff_ne] using h

theorem execHalt_counting {s : State} (hton : s.tmrc.ton = true) (h : s.tmrc.tm0 = true ∨ s.adcr.adc = true) :
    execHalt s = .refused .haltWhileCounting := by
  refine if_pos ?_
  rcases h with h | h <;> simp [countsOutside, hton, h]

/-- Settles O31: the MOVs by their ports, the writes of TMRC and ADCR by the byte each instruction comes to write, and HALT. -/
theorem refusedCounterForms : Obligations.RefusedCounterForms := by
  intro s m t h
  refine ⟨fun ht hadc hton => ?_, fun hadc ht => ?_, fun hadc ht => ?_, fun i v r hm hop hr => ⟨?_, ?_, ?_⟩, execHalt_counting⟩
  · obtain ⟨hread, hwrite⟩ := timerLocation_converting (s := s.advance) ht hadc hton s.acc
    exact ⟨exec_movAm_readRefused h hread, exec_movmA_writeRefused h hwrite⟩
  · exact exec_movAm_readRefused h (memRead_timerB_undescribed (s := s.advance) hadc ht)
  · exact exec_movmA_writeRefused h (memWrite_timerA_undescribed (s := s.advance) hadc ht s.acc)
  · rintro rfl hton h4 h56 h5
    refine (exec_or_movmA_comesToWrite hop hm hr (by decide) (by decide)).refused fun a s1 htmrc hadcr => ?_
    exact writeTmrc_unused (htmrc ▸ hton) h4 h56 (hadcr ▸ h5)
  · rintro rfl hton h4 hchange
    refine (exec_or_movmA_comesToWrite hop hm hr (by decide) (by decide)).refused fun a s1 htmrc _ => ?_
    exact writeTmrc_modeChange (htmrc ▸ hton) h4 (htmrc ▸ hchange)
  · rintro rfl hton hchange
    refine (exec_or_movmA_comesToWrite hop hm hr (by decide) (by decide)).refused fun a s1 htmrc hadcr => ?_
    exact writeAdcr_modeChange (htmrc ▸ hton) (hadcr ▸ hchange)

end Sys2Proof.Machine
end

