-- ==== Sys2Proof/Proofs/Encoding.lean ====
section
/-! Decoding and encoding (O1 to O4, O38). Encoding then decoding is shown format by format, for the row that the bare pattern of
the instruction belongs to; decoding then encoding, row by row; and which words belong to no row, block by block, since from word
80H on no row looks below bit 7. -/

namespace Sys2Proof

open Sys2Proof.Machine

/-! ## Decoding the word of an instruction -/

/-- A pattern that belongs to its own row has no bit in a field that the row does not look at. -/
theorem extractLsb'_pattern {p mask : Word} {start len : Nat} (hp : p &&& mask = p) (hmask : mask.extractLsb' start len = 0) :
    p.extractLsb' start len = 0 := by
  rw [← hp, BitVec.extractLsb'_and, hmask]
  exact BitVec.and_zero

/-- A row that is found for a word is a row of the opcode map, and the word keeps its pattern. -/
theorem findRow_opcodeMap {w p mask : Word} {build : Word → Instr} (h : findRow opcodeMap w = some ⟨p, mask, build⟩) :
    ⟨p, mask, build⟩ ∈ opcodeMap ∧ w &&& mask = p :=
  ⟨(findRow_some h).1, beq_iff_eq.mp (findRow_some h).2⟩

/-- Format M (R122, R123): the row of the pattern is the row of every word with that pattern, and gives back the operand. -/
theorem decode_encodeM {p : Word} {f : DAddr → Instr}
    (h : findRow opcodeMap p = some ⟨p, 0xFF80#16, fun w => f (fieldM w)⟩) (m : DAddr) : decode (encodeM p m) = .ok (f m) := by
  obtain ⟨hrow, hp⟩ := findRow_opcodeMap h
  rw [decode_of_row hrow (beq_iff_eq.mpr (hits_encodeM hp m))]
  simp only [fieldM_encodeM p m (extractLsb'_pattern hp rfl)]

/-- Format I. -/
theorem decode_encodeI {p : Word} {f : Byte → Instr}
    (h : findRow opcodeMap p = some ⟨p, 0xFF00#16, fun w => f (fieldX w)⟩) (x : Byte) : decode (encodeI p x) = .ok (f x) := by
  obtain ⟨hrow, hp⟩ := findRow_opcodeMap h
  rw [decode_of_row hrow (beq_iff_eq.mpr (hits_encodeI hp x))]
  simp only [fieldX_encodeI p x (extractLsb'_pattern hp rfl)]

/-- Format A. -/
theorem decode_encodeA {p : Word} {f : PAddr → Instr}
    (h : findRow opcodeMap p = some ⟨p, 0xFC00#16, fun w => f (fieldAddr w)⟩) (a : PAddr) :
    decode (encodeA p a) = .ok (f a) := by
  obtain ⟨hrow, hp⟩ := findRow_opcodeMap h
  rw [decode_of_row hrow (beq_iff_eq.mpr (hits_encodeA hp a))]
  simp only [fieldAddr_encodeA p a (extractLsb'_pattern hp rfl)]

/-- Format B, whose bit number is given back when it is one of a byte. -/
theorem decode_encodeB {p : Word} {f : DAddr → Nat → Instr}
    (h : findRow opcodeMap p = some ⟨p, 0xFC00#16, fun w => f (fieldM w) (fieldI w)⟩) (m : DAddr) {i : Nat}
    (hi : bitNumberOk i = true) : decode (encodeB p m i) = .ok (f m i) := by
  obtain ⟨hrow, hp⟩ := findRow_opcodeMap h
  rw [decode_of_row hrow (beq_iff_eq.mpr (hits_encodeB hp m i))]
  simp only [fieldM_encodeB p m i (extractLsb'_pattern hp rfl),
    fieldI_encodeB p m i (of_decide_eq_true hi) (extractLsb'_pattern hp rfl)]

/-- The default encoding gives every well-formed instruction a word that decodes to it, with every operand (R125). -/
theorem decode_encode {i : Instr} (h : i.wf = true) : decode (encode i) = .ok i := by
  cases i with
  | addAm m | addmAm m | adcAm m | adcmAm m | subAm m | submAm m | sbcAm m | sbcmAm m | daa m
  | andAm m | orAm m | xorAm m | andmAm m | ormAm m | xormAm m | cpl m | cpla m
  | inca m | inc m | deca m | dec m
  | rra m | rr m | rrca m | rrc m | rla m | rl m | rlca m | rlc m
  | movAm m | movmA m
  | sz m | sza m | siz m | sdz m | siza m | sdza m
  | tabrdc m | tabrdl m
  | clrMem m | setMem m | swap m | swapa m => exact decode_encodeM rfl m
  | addAx x | subAx x | andAx x | orAx x | xorAx x | movAx x | retAx x => exact decode_encodeI rfl x
  | jmp a | call a => exact decode_encodeA rfl a
  | clrBit m i | setBit m i | szBit m i | snzBit m i => exact decode_encodeB rfl m h
  | ret | reti | nop | clrWdt | clrWdt1 | clrWdt2 | halt => rfl

/-- Settles O1: format by format under the default encoding; under a listed one the word stands in the list with the instruction,
and looking it up finds no other. -/
theorem decodeOfEncodeIsIdentity : Obligations.DecodeOfEncodeIsIdentity := by
  refine ⟨fun i => decode_encode, fun table i w hwords hwf hencode => ?_⟩
  exact decode_listed_ok.mpr ⟨lookup_of_mem hwords (encode_listed_mem hencode), hwf⟩

/-! ## Encoding what a word decodes to -/

/-- What a row builds from a word of its own is well formed and encoded as that word. -/
def OpcodeRow.EncodesBack (r : OpcodeRow) : Prop :=
  ∀ w, r.hits w = true → (r.build w).wf = true ∧ encode (r.build w) = w

theorem OpcodeRow.EncodesBack.formatM {p : Word} {f : DAddr → Instr}
    (h : ∀ m, (f m).wf = true ∧ encode (f m) = encodeM p m := by exact fun _ => ⟨rfl, rfl⟩) :
    EncodesBack ⟨p, 0xFF80#16, fun w => f (fieldM w)⟩ :=
  fun _ hw => ⟨(h _).1, (h _).2.trans (encodeM_fieldM (beq_iff_eq.mp hw))⟩

theorem OpcodeRow.EncodesBack.formatI {p : Word} {f : Byte → Instr}
    (h : ∀ x, (f x).wf = true ∧ encode (f x) = encodeI p x := by exact fun _ => ⟨rfl, rfl⟩) :
    EncodesBack ⟨p, 0xFF00#16, fun w => f (fieldX w)⟩ :=
  fun _ hw => ⟨(h _).1, (h _).2.trans (encodeI_fieldX (beq_iff_eq.mp hw))⟩

theorem OpcodeRow.EncodesBack.formatA {p : Word} {f : PAddr → Instr}
    (h : ∀ a, (f a).wf = true ∧ encode (f a) = encodeA p a := by exact fun _ => ⟨rfl, rfl⟩) :
    EncodesBack ⟨p, 0xFC00#16, fun w => f (fieldAddr w)⟩ :=
  fun _ hw => ⟨(h _).1, (h _).2.trans (encodeA_fieldAddr (beq_iff_eq.mp hw))⟩

theorem OpcodeRow.EncodesBack.formatB {p : Word} {f : DAddr → Nat → Instr}
    (h : ∀ m i, (f m i).wf = bitNumberOk i ∧ encode (f m i) = encodeB p m i := by exact fun _ _ => ⟨rfl, rfl⟩) :
    EncodesBack ⟨p, 0xFC00#16, fun w => f (fieldM w) (fieldI w)⟩ :=
  fun w hw => ⟨(h _ _).1.trans (decide_eq_true (fieldI_lt w)), (h _ _).2.trans (encodeB_fields (beq_iff_eq.mp hw))⟩

/-- An instruction without an operand has one word. -/
theorem OpcodeRow.EncodesBack.single {p : Word} {i : Instr} (h : i.wf = true ∧ encode i = p := by exact ⟨rfl, rfl⟩) :
    EncodesBack ⟨p, 0xFFFF#16, fun _ => i⟩ := by
  refine fun w hw => ⟨h.1, h.2.trans ?_⟩
  have hword : w &&& BitVec.allOnes 16 = p := beq_iff_eq.mp hw
  exact hword.symm.trans BitVec.and_allOnes

/-- Every row of the opcode map, in the order of R125. -/
theorem opcodeMap_encodesBack : ∀ r ∈ opcodeMap, r.EncodesBack := by
  simp only [opcodeMap, arithmeticRows, logicRows, incDecRows, rotateRows, dataMoveRows, bitOpRows, branchRows, tableReadRows,
    miscRows, List.forall_mem_append, List.forall_mem_cons, List.not_mem_nil, false_implies, implies_true, and_true]
  exact ⟨⟨⟨⟨⟨⟨⟨⟨
    ⟨.formatM, .formatM, .formatI, .formatM, .formatM, .formatI, .formatM, .formatM, .formatM, .formatM, .formatM⟩,
    ⟨.formatM, .formatM, .formatM, .formatM, .formatM, .formatM, .formatI, .formatI, .formatI, .formatM, .formatM⟩⟩,
    ⟨.formatM, .formatM, .formatM, .formatM⟩⟩,
    ⟨.formatM, .formatM, .formatM, .formatM, .formatM, .formatM, .formatM, .formatM⟩⟩,
    ⟨.formatM, .formatM, .formatI⟩⟩,
    ⟨.formatB, .formatB⟩⟩,
    ⟨.formatA, .formatM, .formatM, .formatB, .formatB, .formatM, .formatM, .formatM, .formatM, .formatA, .single, .formatI,
      .single⟩⟩,
    ⟨.formatM, .formatM⟩⟩,
    ⟨.single, .formatM, .formatM, .single, .single, .single, .formatM, .formatM, .single⟩⟩

/-- In a list in which no instruction stands twice, an instruction is given the word that it stands with. -/
theorem encode_listed_of_mem {table : List (Word × Instr)} {w : Word} {i : Instr} (hl : (table.map Prod.snd).Nodup)
    (h : (w, i) ∈ table) : (Config.Encoding.listed table).encode i = some w := by
  obtain ⟨before, after, rfl⟩ := List.append_of_mem h
  have hbefore : ∀ row ∈ before, row.2 ≠ i := by
    rintro row hrow rfl
    rw [List.map_append, List.nodup_append] at hl
    exact hl.2.2 _ (List.mem_map_of_mem hrow) _ (by simp) rfl
  have hfind : (before ++ (w, i) :: after).find? (fun row => row.2 == i) = some (w, i) :=
    List.find?_eq_some_iff_append.mpr ⟨beq_self_eq_true i, before, after, rfl, fun row hrow => by simp [hbefore row hrow]⟩
  simp [Config.Encoding.encode, hfind]

/-- Settles O2: the word belongs to a row, and every row encodes back; under a listed encoding, the word stands in the list with
the instruction. -/
theorem encodeOfDecodeIsIdentity : Obligations.EncodeOfDecodeIsIdentity := by
  refine ⟨fun w i hdecode => ?_, fun table i w hinstrs hdecode => ?_⟩
  · obtain ⟨r, hr, hhits, rfl⟩ := decode_ok hdecode
    exact opcodeMap_encodesBack r hr w hhits
  · obtain ⟨hlookup, hwf⟩ := decode_listed_ok.mp hdecode
    obtain ⟨before, after, rfl, -⟩ := List.lookup_eq_some_iff.mp hlookup
    exact ⟨hwf, encode_listed_of_mem hinstrs (by simp)⟩

/-! ## The unassigned words -/

/-- A number in the ranges of R126. -/
abbrev Unassigned (n : Nat) : Prop :=
  (0x0007 ≤ n ∧ n ≤ 0x007F) ∨ (0x0780 ≤ n ∧ n ≤ 0x08FF) ∨ (0x1C00 ≤ n ∧ n ≤ 0x1CFF) ∨ (0x1E00 ≤ n ∧ n ≤ 0x1E7F) ∨
    (0x2400 ≤ n ∧ n ≤ 0x27FF) ∨ (0x2C00 ≤ n ∧ n ≤ 0x2FFF) ∨ 0x4000 ≤ n

/-- A word is illegal when it belongs to no row. -/
theorem decode_illegal_iff {w : Word} : decode w = .error (.illegalWord w) ↔ ∀ r ∈ opcodeMap, r.hits w = false := by
  rw [← findRow_none]
  unfold decode
  split
  · next r hr => simp [hr]
  · next hr => simp [hr]

/-- The first word of the block of 128 words that a word lies in. -/
def blockStart (w : Word) : Word := w &&& 0xFF80#16

theorem toNat_blockStart (w : Word) : (blockStart w).toNat = 128 * (w.toNat / 128) := by
  have hshift : blockStart w = (w >>> 7) <<< 7 := by
    unfold blockStart
    apply BitVec.eq_of_getLsbD_eq
    intro k hk
    interval_cases k <;> simp
  rw [hshift, BitVec.toNat_shiftLeft, BitVec.toNat_ushiftRight, Nat.shiftRight_eq_div_pow, Nat.shiftLeft_eq]
  omega

/-- A row looks at no bit below bit 7, and its words lie after the first block; or it has one word, which is one of the first
seven. -/
theorem opcodeMap_block_or_single : ∀ r ∈ opcodeMap, (0xFF80#16 &&& r.mask = r.mask ∧ 0x80 ≤ r.pattern.toNat) ∨
    (r.mask = BitVec.allOnes 16 ∧ r.pattern.toNat < 7) := by decide +kernel

/-- A row of one word has no word from 7 on. -/
theorem hits_single_of_ge_seven {r : OpcodeRow} (hmask : r.mask = BitVec.allOnes 16) (hpattern : r.pattern.toNat < 7) {w : Word}
    (hw : 7 ≤ w.toNat) : r.hits w = false := by
  have hword : w &&& r.mask = w := by rw [hmask]; exact BitVec.and_allOnes
  have hne : w ≠ r.pattern := by rintro rfl; omega
  simpa [OpcodeRow.hits, hword] using hne

/-- After the first block, the words of a block belong to the same rows. -/
theorem hits_blockStart {r : OpcodeRow} (hr : r ∈ opcodeMap) {w : Word} (hw : 0x80 ≤ w.toNat) :
    r.hits (blockStart w) = r.hits w := by
  rcases opcodeMap_block_or_single r hr with ⟨hmask, -⟩ | ⟨hmask, hpattern⟩
  · rw [OpcodeRow.hits, OpcodeRow.hits, blockStart, BitVec.and_assoc, hmask]
  · rw [hits_single_of_ge_seven hmask hpattern (w := w) (by omega),
      hits_single_of_ge_seven hmask hpattern (by rw [toNat_blockStart]; omega)]

/-- In the first block no word from 7 on belongs to a row: a row of blocks lies above it, and a row of one word below. -/
theorem noRow_of_firstBlock {w : Word} (h7 : 7 ≤ w.toNat) (h80 : w.toNat < 0x80) : ∀ r ∈ opcodeMap, r.hits w = false := by
  intro r hr
  rcases opcodeMap_block_or_single r hr with ⟨-, hpattern⟩ | ⟨hmask, hpattern⟩
  · have hle : (w &&& r.mask).toNat ≤ w.toNat := by rw [BitVec.toNat_and]; exact Nat.and_le_left
    have hne : w &&& r.mask ≠ r.pattern := fun h => by rw [h] at hle; omega
    simpa [OpcodeRow.hits] using hne
  · exact hits_single_of_ge_seven hmask hpattern h7

/-- The seven instructions without an operand have the words 0 to 6. -/
theorem row_of_lt_seven : ∀ n < 7, ¬ ∀ r ∈ opcodeMap, r.hits (BitVec.ofNat 16 n) = false := by decide +kernel

/-- No row has a word with bit 14 or bit 15. -/
theorem lt_of_hits {r : OpcodeRow} (hr : r ∈ opcodeMap) {w : Word} (h : r.hits w = true) : w.toNat < 2 ^ 14 := by
  have hrows : ∀ r ∈ opcodeMap, r.pattern.toNat < 2 ^ 14 ∧ (~~~r.mask).toNat < 2 ^ 14 := by decide +kernel
  obtain ⟨hpattern, hfree⟩ := hrows r hr
  have hsplit : w = r.pattern ||| (w &&& ~~~r.mask) := by
    rw [← beq_iff_eq.mp h, ← BitVec.and_or_distrib_left, BitVec.or_not_self]
    exact BitVec.and_allOnes.symm
  rw [hsplit, BitVec.toNat_or, BitVec.toNat_and]
  exact Nat.or_lt_two_pow hpattern (Nat.and_le_right.trans_lt hfree)

/-- The blocks below bit 14, each by its first word. -/
theorem findRow_blockStart : ∀ b < 128, findRow opcodeMap (BitVec.ofNat 16 (128 * b)) = none ↔ Unassigned (128 * b) := by
  decide +kernel

/-- After the first block, a word below bit 14 belongs to no row when its block does not, and the ranges are made of whole
blocks. -/
theorem noRow_iff_of_block {w : Word} (h80 : 0x80 ≤ w.toNat) (h14 : w.toNat < 2 ^ 14) :
    (∀ r ∈ opcodeMap, r.hits w = false) ↔ Unassigned w.toNat := by
  have hblock : BitVec.ofNat 16 (128 * (w.toNat / 128)) = blockStart w := by
    rw [← toNat_blockStart, BitVec.ofNat_toNat, BitVec.setWidth_eq]
  calc (∀ r ∈ opcodeMap, r.hits w = false)
    _ ↔ ∀ r ∈ opcodeMap, r.hits (blockStart w) = false := forall₂_congr fun r hr => by rw [hits_blockStart hr h80]
    _ ↔ Unassigned (128 * (w.toNat / 128)) := by rw [← findRow_none, ← hblock]; exact findRow_blockStart _ (by omega)
    _ ↔ Unassigned w.toNat := by unfold Unassigned; omega

/-- The words that belong to no row are those of R126: the first seven words, the rest of the first block, the blocks below bit 14
and the words above are taken apart. -/
theorem noRow_iff_unassigned (w : Word) : (∀ r ∈ opcodeMap, r.hits w = false) ↔ Unassigned w.toNat := by
  rcases Nat.lt_or_ge w.toNat 7 with h | h7
  · have hrow := row_of_lt_seven w.toNat h
    rw [BitVec.ofNat_toNat, BitVec.setWidth_eq] at hrow
    exact iff_of_false hrow (by unfold Unassigned; omega)
  rcases Nat.lt_or_ge w.toNat 0x80 with h | h80
  · exact iff_of_true (noRow_of_firstBlock h7 h) (.inl ⟨h7, Nat.le_of_lt_succ h⟩)
  rcases Nat.lt_or_ge w.toNat (2 ^ 14) with h | h14
  · exact noRow_iff_of_block h80 h
  · refine iff_of_true (fun r hr => ?_) (by unfold Unassigned; omega)
    exact Bool.eq_false_iff.mpr fun hhits => absurd (lt_of_hits hr hhits) (by omega)

/-! ## The step of a core that runs -/

/-- A fetched word that the run's encoding refuses stops the core by name (R126). -/
theorem step_of_illegal {s : State} {e : DecodeError} (hres : s.resLow = false) (hhalt : s.halted = false)
    (hent : s.entering = none) (hdec : s.par.enc.decode (fetchWord s) = .error e) :
    step s = .fault (.illegalWord s.pc (fetchWord s)) := by
  simp [step, hres, hhalt, hent, hdec]

/-- Settles O3: the words that no row has, and the step at a word that does not decode. -/
theorem unassignedWordsAreIllegal : Obligations.UnassignedWordsAreIllegal := by
  intro w
  refine ⟨decode_illegal_iff.trans (noRow_iff_unassigned w), ?_⟩
  rintro s hres hhalt hent rfl hdec
  exact step_of_illegal hres hhalt hent hdec

/-- Settles O4: each word is the encoding of its instruction, and the one that is not lies in the ranges of R126. -/
theorem wordsOfTheSpecDecode : Obligations.WordsOfTheSpecDecode :=
  ⟨decode_encode (i := .addAm 0x60) rfl, decode_encode (i := .addAx 0xA5) rfl,
    decode_illegal_iff.mpr ((noRow_iff_unassigned _).mpr (by decide)),
    decode_encode (i := .movAm 0x05) rfl, decode_encode (i := .movmA 0x20) rfl,
    decode_encode (i := .clrBit 0x60 3) rfl, decode_encode (i := .snzBit 0x12 7) rfl,
    decode_encode (i := .jmp 0x123) rfl, decode_encode (i := .call 0x3FF) rfl,
    decode_encode (i := .daa 0x06) rfl, decode_encode (i := .rlc 0x61) rfl,
    decode_encode (i := .inca 0x00) rfl, decode_encode (i := .tabrdl 0x61) rfl,
    decode_encode (i := .reti) rfl, decode_encode (i := .halt) rfl⟩

/-- Settles O38, by the outcome of the instruction. -/
theorem stepRunsDecodedInstruction : Obligations.StepRunsDecodedInstruction := by
  intro s i hres hhalt hent hdec
  cases hexec : exec i s with
  | next s1 => exact step_of_exec_next hres hhalt hent hdec hexec
  | fault f => simp [step, hres, hhalt, hent, hdec, hexec]
  | refused r => simp [step, hres, hhalt, hent, hdec, hexec]

end Sys2Proof
end

