-- ==== Sys2Proof/Proofs/Arithmetic.lean ====
section
/-! The arithmetic instructions (O5 to O11): each operand form is shown once to leave its result and flags, and the adder's own
facts (`add8_spec`, `sub8_spec`) say which. DAA is read nibble by nibble, and decimal addition digit by digit. -/

namespace Sys2Proof.Machine

open Sys2Proof

/-! ## The operand forms -/

section Forms

variable {i : Instr} {m : DAddr} {s : State} {t : Target} {v r : Byte} {P : Flags → Prop}

/-- The form that only reads, with a result in ACC and flags of its own. -/
theorem leavesInAcc_of_readingOp {result : Byte → State → Byte} {flags : Byte → State → Flags} (h : Operand .other m s t v)
    (hi : exec i s = readingOp m s fun v s1 => .next { s1 with acc := result v s1, flags := flags v s1 })
    (hr : ∀ d, result v { s with pc := s.pc + 1, draws := d } = r)
    (hf : ∀ d, P (flags v { s with pc := s.pc + 1, draws := d })) : LeavesInAcc i s r P := by
  obtain ⟨d, hd⟩ := readingOp_operand m s t v h
  refine ⟨_, d, hf d, ?_⟩
  rw [hi, hd, hr d]

/-- The form with immediate data, which reads no operand and draws nothing. -/
theorem leavesInAcc_of_immediate {f : Flags} (hi : exec i s = .next { s.advance with acc := r, flags := f }) (hf : P f) :
    LeavesInAcc i s r P :=
  ⟨f, s.draws, hf, hi⟩

/-- The read-modify-write form that writes flags of its own. -/
theorem leavesAt_of_modifyWithFlags {result : Byte → State → Byte} {flags : Byte → State → Flags} {f : Flags}
    (h : Operand .other m s t v) (ht : t ≠ .bank0 0x0A) (hi : exec i s = modifyWithFlags m result flags s)
    (hr : ∀ d, result v { s with pc := s.pc + 1, draws := d } = r)
    (hf : ∀ d, flags v { s with pc := s.pc + 1, draws := d } = f) (hP : P f) (hw : WriteAccepted .other t r s) :
    LeavesAt i s t r P := by
  obtain ⟨s', hnext, hwritten, hkept, hflags⟩ := modifyWithFlags_completes m result flags s t v r f h ht hr hf hw
  exact ⟨s', hi.trans hnext, hwritten, hkept, hflags ▸ hP⟩

variable {sum : Sum} (hsum : sum.r = r ∧ P (s.flags.afterSum sum))
include hsum

/-- What is so of the adder's answer is so of ACC and the flags (R150). -/
theorem leavesInAcc_of_sumToAcc {f : Byte → State → Sum} (h : Operand .other m s t v) (hi : exec i s = sumToAcc m f s)
    (hf : ∀ d, f v { s with pc := s.pc + 1, draws := d } = sum) : LeavesInAcc i s r P :=
  leavesInAcc_of_readingOp h hi (fun d => (congrArg Sum.r (hf d)).trans hsum.1) fun d => by rw [hf d]; exact hsum.2

theorem leavesInAcc_of_sumImmediate
    (hi : exec i s = .next { s.advance with acc := sum.r, flags := s.flags.afterSum sum }) : LeavesInAcc i s r P :=
  leavesInAcc_of_immediate (hsum.1 ▸ hi) hsum.2

/-- And, in the other form, of the destination and the flags (R164). -/
theorem leavesAt_of_sumToMem {f : Byte → State → Sum} (h : Operand .other m s t v) (ht : t ≠ .bank0 0x0A)
    (hi : exec i s = sumToMem m f s) (hf : ∀ d, f v { s with pc := s.pc + 1, draws := d } = sum)
    (hw : WriteAccepted .other t r s) : LeavesAt i s t r P :=
  leavesAt_of_modifyWithFlags h ht hi (fun d => (congrArg Sum.r (hf d)).trans hsum.1)
    (fun d => congrArg s.flags.afterSum (hf d)) hsum.2 hw

end Forms

/-! ## Addition and subtraction -/

/-- Settles O5: the adder with the carry-in of each form. -/
theorem additionToAccumulator : Obligations.AdditionToAccumulator := fun s _ _ v h =>
  ⟨leavesInAcc_of_sumToAcc (add8_spec s.acc v false s.flags) h rfl fun _ => rfl,
    leavesInAcc_of_sumToAcc (add8_spec s.acc v s.flags.c s.flags) h rfl fun _ => rfl⟩

/-- Settles O6: the adder with the operand complemented. -/
theorem subtractionToAccumulator : Obligations.SubtractionToAccumulator := fun s _ _ v h =>
  ⟨leavesInAcc_of_sumToAcc (sub8_spec s.acc v true s.flags) h rfl fun _ => rfl,
    leavesInAcc_of_sumToAcc (sub8_spec s.acc v s.flags.c s.flags) h rfl fun _ => rfl⟩

/-- An instruction that writes `Z` alone says whether its result is zero (R170). -/
theorem withZ_eq {f : Flags} {r : Byte} {p : Prop} [Decidable p] (h : r = 0 ↔ p) : f.withZ r = { f with z := decide p } := by
  rw [Flags.withZ, beq_eq_decide, decide_eq_decide.mpr h]

theorem exec_addAx (x : Byte) (s : State) : exec (.addAx x) s =
    .next { s.advance with acc := (add8 s.acc x false).r, flags := s.flags.afterSum (add8 s.acc x false) } := rfl

theorem exec_subAx (x : Byte) (s : State) : exec (.subAx x) s =
    .next { s.advance with acc := (sub8 s.acc x true).r, flags := s.flags.afterSum (sub8 s.acc x true) } := rfl

/-- Settles O7: two sums, three results with `Z`, and a move. -/
theorem immediateOperations : Obligations.ImmediateOperations := fun s x =>
  ⟨leavesInAcc_of_sumImmediate (add8_spec s.acc x false s.flags) (exec_addAx x s),
    leavesInAcc_of_sumImmediate (sub8_spec s.acc x true s.flags) (exec_subAx x s),
    leavesInAcc_of_immediate rfl (withZ_eq Iff.rfl),
    leavesInAcc_of_immediate rfl (withZ_eq BitVec.or_eq_zero_iff),
    leavesInAcc_of_immediate rfl (withZ_eq BitVec.xor_eq_zero_iff),
    leavesInAcc_of_immediate rfl rfl⟩

/-- Settles O8, as O5, with the sum written to where its operand was read. -/
theorem additionToMemory : Obligations.AdditionToMemory := fun s _ _ v h ht =>
  ⟨leavesAt_of_sumToMem (add8_spec s.acc v false s.flags) h ht rfl fun _ => rfl,
    leavesAt_of_sumToMem (add8_spec s.acc v s.flags.c s.flags) h ht rfl fun _ => rfl⟩

/-- Settles O9, as O6. -/
theorem subtractionToMemory : Obligations.SubtractionToMemory := fun s _ _ v h ht =>
  ⟨leavesAt_of_sumToMem (sub8_spec s.acc v true s.flags) h ht rfl fun _ => rfl,
    leavesAt_of_sumToMem (sub8_spec s.acc v s.flags.c s.flags) h ht rfl fun _ => rfl⟩

/-! ## The decimal adjustment (R163) -/

theorem daaAc1_toNat (a : Byte) : (daaAc1 a).toNat = if 9 < a.toNat % 16 then 1 else 0 := by
  rw [daaAc1, Bool.toNat, Bool.cond_decide]

theorem daaHighAdjusts_iff (a : Byte) (c : Bool) :
    daaHighAdjusts a c = true ↔ 9 < a.toNat / 16 + (daaAc1 a).toNat ∨ c = true := by
  simp [daaHighAdjusts]

theorem daaLow_eq (a : Byte) (ac : Bool) :
    daaLow a ac = if 9 < a.toNat % 16 ∨ ac = true then (a.toNat % 16 + 6) % 16 else a.toNat % 16 := by
  simp [daaLow, daaAc1]

theorem daaHigh_eq (a : Byte) (c : Bool) :
    daaHigh a c = if 9 < a.toNat / 16 + (daaAc1 a).toNat ∨ c = true then (a.toNat / 16 + 6 + (daaAc1 a).toNat) % 16
      else (a.toNat / 16 + (daaAc1 a).toNat) % 16 := by
  simp only [daaHigh, daaHighAdjusts_iff, Nat.add_right_comm]

theorem daaCarry_iff (a : Byte) (c : Bool) :
    daaCarry a c = true ↔ c = true ∨ 9 < a.toNat / 16 + (daaAc1 a).toNat := by
  cases c <;> simp [daaCarry, daaHighAdjusts]

/-- The two nibbles of the byte that DAA writes. -/
theorem daaResult_nibbles (a : Byte) (c ac : Bool) :
    (daaResult a c ac).toNat % 16 = daaLow a ac ∧ (daaResult a c ac).toNat / 16 = daaHigh a c := by
  have hlow : daaLow a ac < 16 := by rw [daaLow_eq]; split <;> omega
  have hhigh : daaHigh a c < 16 := by rw [daaHigh_eq]; split <;> omega
  rw [daaResult, BitVec.toNat_ofNat]
  omega

theorem byte_eq_of_nibbles {p q : Byte} (hlow : p.toNat % 16 = q.toNat % 16) (hhigh : p.toNat / 16 = q.toNat / 16) : p = q :=
  BitVec.eq_of_toNat_eq (by omega)

/-- DAA stores the adjusted byte and writes C alone: it reads nothing, and its write does not reach the flags. -/
theorem daa_leavesAt {m : DAddr} {s : State} {t : Target} (h : resolve s m = .ok t) (ht : t ≠ .bank0 0x0A)
    (hw : WriteAccepted .other t (daaResult s.acc s.flags.c s.flags.ac) s) :
    LeavesAt (.daa m) s t (daaResult s.acc s.flags.c s.flags.ac) (· = s.flags.withC (daaCarry s.acc s.flags.c)) := by
  obtain ⟨s2, h2⟩ := (memWrite_answers_iff _ _ _ s.advance).mpr hw
  have hst : t.isStatus = false := Bool.eq_false_iff.mpr (mt (isStatus_iff t).mp ht)
  have hflags : s2.flags = s.flags := by
    have hwritten := memWrite_flags _ _ _ _ _ h2
    rwa [StatusWritten, if_neg ht] at hwritten
  refine ⟨{ s2 with flags := s.flags.withC (daaCarry s.acc s.flags.c) }, ?_,
    (memWrite_written _ _ _ _ _ _ s.draws rfl h2).withFlags _, (memWrite_kept _ _ _ _ _ _ s.draws rfl h2).withFlags _, rfl⟩
  show execDaa m s = _
  simp only [execDaa, withTarget, withWrite, resolve_advance, h, hst, advance_acc, advance_flags, h2, hflags,
    Bool.false_eq_true, if_false]

/-- Settles O10: the byte with the two nibbles is the one that DAA stores. -/
theorem decimalAdjustment : Obligations.DecimalAdjustment := by
  intro s m t r h ht hnibbles hw
  obtain ⟨hlow, hhigh⟩ := hnibbles _ _ _ rfl rfl rfl
  obtain ⟨hdaaLow, hdaaHigh⟩ := daaResult_nibbles s.acc s.flags.c s.flags.ac
  obtain rfl : r = daaResult s.acc s.flags.c s.flags.ac :=
    byte_eq_of_nibbles (by rw [hlow, hdaaLow, daaLow_eq]) (by rw [hhigh, hdaaHigh, daaHigh_eq, daaAc1_toNat])
  have hcarry : daaCarry s.acc s.flags.c =
      (s.flags.c || decide (9 < s.acc.toNat / 16 + if 9 < s.acc.toNat % 16 then 1 else 0)) := by
    rw [Bool.eq_iff_iff, daaCarry_iff, daaAc1_toNat, Bool.or_eq_true, decide_eq_true_iff]
  have hleaves := daa_leavesAt h ht hw
  rwa [Flags.withC, hcarry] at hleaves

/-! ## Decimal addition -/

section Digits

variable {p q : Byte} {a b c d : Nat} (ha : a ≤ 9) (hb : b ≤ 9) (hc : c ≤ 9) (hd : d ≤ 9) (hp : p.toNat = 16 * a + b)
  (hq : q.toNat = 16 * c + d)

include hb hd hp hq

/-- The binary sum of two packed decimal numbers: what the adjustment starts from. -/
theorem add8_packed : (add8 p q false).r.toNat = (16 * (a + c) + (b + d)) % 256 ∧
    ((add8 p q false).ac = true ↔ 16 ≤ b + d) ∧ ((add8 p q false).c = true ↔ 256 ≤ 16 * (a + c) + (b + d)) := by
  simp only [add8, BitVec.toNat_ofNat, Bool.toNat_false, decide_eq_true_iff, hp, hq]
  omega

/-- The low nibble is adjusted exactly where the low digits carry. -/
theorem daaLow_add8 : daaLow (add8 p q false).r (add8 p q false).ac = (b + d) % 10 := by
  obtain ⟨hr, hac, _⟩ := add8_packed hb hd hp hq
  simp only [daaLow_eq, hac, hr]
  split <;> omega

/-- The decimal carry of the low digits has reached the high nibble through the adder or as AC1, so that the high nibble is
adjusted exactly where the high digits with it carry. -/
theorem daaHigh_adjusts_add8_iff :
    (9 < (add8 p q false).r.toNat / 16 + (daaAc1 (add8 p q false).r).toNat ∨ (add8 p q false).c = true) ↔
      10 ≤ a + c + (b + d) / 10 := by
  obtain ⟨hr, _, hcarry⟩ := add8_packed hb hd hp hq
  rw [daaAc1_toNat, hcarry, hr]
  split <;> omega

/-- The carry flag after DAA is the carry out of the high digits. -/
theorem daaCarry_add8_iff :
    daaCarry (add8 p q false).r (add8 p q false).c = true ↔ 100 ≤ 10 * a + b + (10 * c + d) := by
  rw [daaCarry_iff, or_comm, daaHigh_adjusts_add8_iff hb hd hp hq]
  omega

include ha hc

theorem daaHigh_add8 : daaHigh (add8 p q false).r (add8 p q false).c = (a + c + (b + d) / 10) % 10 := by
  obtain ⟨hr, _, _⟩ := add8_packed hb hd hp hq
  simp only [daaHigh_eq, daaHigh_adjusts_add8_iff hb hd hp hq]
  rw [daaAc1_toNat, hr]
  split <;> split <;> omega

/-- The byte that DAA makes of the binary sum holds the digits of the decimal sum. -/
theorem daaResult_add8 :
    10 * ((daaResult (add8 p q false).r (add8 p q false).c (add8 p q false).ac).toNat / 16) +
      (daaResult (add8 p q false).r (add8 p q false).c (add8 p q false).ac).toNat % 16 =
        (10 * a + b + (10 * c + d)) % 100 := by
  obtain ⟨hlow, hhigh⟩ := daaResult_nibbles (add8 p q false).r (add8 p q false).c (add8 p q false).ac
  rw [hlow, hhigh, daaLow_add8 hb hd hp hq, daaHigh_add8 ha hb hc hd hp hq]
  omega

end Digits

/-- A RAM location takes any byte from any instruction (R84). -/
theorem writeAccepted_ram {e : Byte} (he : 0x60 ≤ e.toNat) (a : Access) (v : Byte) (s : State) :
    WriteAccepted a (.bank0 e) v s :=
  (memWrite_answers_iff a (.bank0 e) v s).mp
    ⟨writeCell (ramKey e) v s, by simp only [memWrite, locWrite, (locate_ram_iff e).mpr he]⟩

theorem memKey_ram {e : Byte} (he : 0x60 ≤ e.toNat) : (Target.bank0 e).memKey = some e.toNat := by
  simp [Target.memKey, ramKey, he]

/-- Settles O11: the two digits that DAA leaves, and the carry out of them. -/
theorem decimalAdditionIsCorrect : Obligations.DecimalAdditionIsCorrect := by
  intro s x m e a b c d ha hb hc hd hacc hx hres he
  have hstatus : Target.bank0 e ≠ .bank0 0x0A := by
    rintro ⟨⟩
    exact absurd he (by decide)
  obtain ⟨s2, hdaa, hwritten, _, hflags⟩ := daa_leavesAt
    (s := { s.advance with acc := (add8 s.acc x false).r, flags := s.flags.afterSum (add8 s.acc x false) })
    (m := m) hres hstatus (writeAccepted_ram he _ _ _)
  refine ⟨_, s2, _, exec_addAx x s, hdaa, hwritten.mem _ (memKey_ram he), ?_, ?_⟩
  · exact daaResult_add8 ha hb hc hd hacc hx
  · rw [hflags]
    exact daaCarry_add8_iff hb hd hacc hx

end Sys2Proof.Machine
end

