-- ==== Sys2Proof/Proofs/LogicAndStep.lean ====
section
/-! The logic instructions, the complement, and the steps by one (O12, O13): each operand form is shown once to leave its result
and `Z`, and what is left is when each result is zero. -/

namespace Sys2Proof.Machine

open Sys2Proof

/-! ## When a result is zero -/

theorem complement_eq_zero_iff (v : Byte) : 255 - v = 0 ↔ v = 0xFF := by bv_omega

theorem increment_eq_zero_iff (v : Byte) : v + 1 = 0 ↔ v = 0xFF := by bv_omega

theorem decrement_eq_zero_iff (v : Byte) : v - 1 = 0 ↔ v = 0x01 := by bv_omega

/-! ## The operand forms -/

section Forms

variable {i : Instr} {m : DAddr} {s : State} {t : Target} {v r : Byte} {p : Prop} [Decidable p] {f : Byte → State → Byte}
  (h : Operand .other m s t v) (hr : ∀ d, f v { s with pc := s.pc + 1, draws := d } = r) (hz : r = 0 ↔ p)
include h hr hz

/-- The form that only reads, with a result in ACC and `Z` alone (R170). -/
theorem leavesInAcc_of_zToAcc (hi : exec i s = zToAcc m f s) :
    LeavesInAcc i s r (· = { s.flags with z := decide p }) :=
  leavesInAcc_of_readingOp h hi hr fun d => by rw [hr d]; exact withZ_eq hz

/-- The read-modify-write form that writes `Z` alone. -/
theorem leavesAt_of_zToMem (ht : t ≠ .bank0 0x0A) (hi : exec i s = zToMem m f s) (hw : WriteAccepted .other t r s) :
    LeavesAt i s t r (· = { s.flags with z := decide p }) :=
  leavesAt_of_modifyWithFlags h ht hi hr (fun d => by rw [hr d]; exact withZ_eq hz) rfl hw

end Forms

/-! ## The statements -/

/-- Settles O12: the form that reads, with each result and when it is zero. -/
theorem logicAndStepToAccumulator : Obligations.LogicAndStepToAccumulator := fun _ _ _ v h =>
  ⟨leavesInAcc_of_zToAcc h (fun _ => rfl) Iff.rfl rfl,
    leavesInAcc_of_zToAcc h (fun _ => rfl) Iff.rfl rfl,
    leavesInAcc_of_zToAcc h (fun _ => rfl) BitVec.xor_eq_zero_iff rfl,
    leavesInAcc_of_zToAcc h (fun _ => complement_eq_sub v) (complement_eq_zero_iff v) rfl,
    leavesInAcc_of_zToAcc h (fun _ => rfl) (increment_eq_zero_iff v) rfl,
    leavesInAcc_of_zToAcc h (fun _ => rfl) (decrement_eq_zero_iff v) rfl⟩

/-- Settles O13, as O12, with the result written to where its operand was read. -/
theorem logicAndStepToMemory : Obligations.LogicAndStepToMemory := fun _ _ _ v h ht =>
  ⟨leavesAt_of_zToMem h (fun _ => rfl) Iff.rfl ht rfl,
    leavesAt_of_zToMem h (fun _ => rfl) Iff.rfl ht rfl,
    leavesAt_of_zToMem h (fun _ => rfl) BitVec.xor_eq_zero_iff ht rfl,
    leavesAt_of_zToMem h (fun _ => complement_eq_sub v) (complement_eq_zero_iff v) ht rfl,
    leavesAt_of_zToMem h (fun _ => rfl) (increment_eq_zero_iff v) ht rfl,
    leavesAt_of_zToMem h (fun _ => rfl) (decrement_eq_zero_iff v) ht rfl⟩

end Sys2Proof.Machine
end

