-- ==== Sys2Proof/Proofs/Rotate.lean ====
section
/-! The rotates and the nibble swaps (O14 to O17). The statements give the result bit by bit; the bits that R209 and R261 turn
(`ror_bit` and its like) make it the byte that the model computes, and each operand form is shown once to leave that byte. -/

namespace Sys2Proof.Machine

open Sys2Proof

/-! ## The byte with the given bits -/

section Bits

variable {r v : Byte} {c : Bool}

theorem byte_eq_of_bits {p q : Byte} (h : ∀ k : Fin 8, p.getLsbD k = q.getLsbD k) : p = q :=
  BitVec.eq_of_getLsbD_eq fun k hk => h ⟨k, hk⟩

/-- Where every bit has gone up `n` places in the ring of eight, each bit comes from the place that is `n` below, which is `8 - n`
above. -/
theorem bits_from_of_bits_to {n : Nat} (hn : n ≤ 8) (h : ∀ k : Fin 8, r.getLsbD ((k + n) % 8) = v.getLsbD k) (k : Fin 8) :
    r.getLsbD k = v.getLsbD ((k + (8 - n)) % 8) := by
  have hturn : ((k + (8 - n)) % 8 + n) % 8 = k.val := by omega
  have hbit := h ⟨(k + (8 - n)) % 8, Nat.mod_lt _ (by decide)⟩
  rwa [hturn] at hbit

/-- A right rotate (R209). -/
theorem eq_ror_of_bits (h : ∀ k : Fin 8, r.getLsbD k = v.getLsbD ((k + 1) % 8)) : r = ror v :=
  byte_eq_of_bits fun k => (h k).trans (ror_bit v k).symm

/-- A left rotate (R209). -/
theorem eq_rol_of_bits (h : ∀ k : Fin 8, r.getLsbD ((k + 1) % 8) = v.getLsbD k) : r = rol v :=
  byte_eq_of_bits fun k => (bits_from_of_bits_to (by decide) h k).trans (rol_bit v k).symm

/-- The nibbles interchanged (R261). -/
theorem eq_swapNibbles_of_bits (h : ∀ k : Fin 8, r.getLsbD ((k + 4) % 8) = v.getLsbD k) : r = swapNibbles v :=
  byte_eq_of_bits fun k => (bits_from_of_bits_to (by decide) h k).trans (swapNibbles_bit v k).symm

/-- A right rotate through carry: the seven bits that move down within the byte, and the one that C gives (R209). -/
theorem eq_rorc_of_bits (h : ∀ k : Fin 7, r.getLsbD k = v.getLsbD (k + 1)) (hc : r.getLsbD 7 = c) : r = rorc v c := by
  refine byte_eq_of_bits (Fin.forall_fin_succ'.mpr ⟨fun k => ?_, ?_⟩)
  · rw [rorc_bit, if_neg (by simpa using k.isLt.ne)]
    exact h k
  · rw [rorc_bit, Fin.val_last, if_pos rfl]
    exact hc

/-- A left rotate through carry: the seven bits that move up within the byte, and the one that C gives (R209). -/
theorem eq_rolc_of_bits (h : ∀ k : Fin 7, r.getLsbD (k + 1) = v.getLsbD k) (hc : r.getLsbD 0 = c) : r = rolc v c := by
  refine byte_eq_of_bits (Fin.forall_fin_succ.mpr ⟨?_, fun k => ?_⟩)
  · rw [rolc_bit, Fin.val_zero, if_pos rfl]
    exact hc
  · rw [rolc_bit, if_neg (by simp)]
    exact h k

end Bits

/-! ## The operand forms -/

section Forms

variable {i : Instr} {m : DAddr} {s : State} {t : Target} {v r : Byte} (h : Operand .other m s t v)
include h

/-- The form that only reads, with a result in ACC and no flag. -/
theorem leavesInAcc_of_plainToAcc {g : Byte → Byte} (hi : exec i s = plainToAcc m g s) (hr : r = g v) :
    LeavesInAcc i s r (· = s.flags) :=
  leavesInAcc_of_readingOp (flags := fun _ s1 => s1.flags) h hi (fun _ => hr.symm) fun _ => rfl

/-- The read-modify-write form that writes no flag of its own, so that STATUS is a destination like the others (R30). -/
theorem leavesAt_of_plainToMem {g : Byte → Byte} (hi : exec i s = plainToMem m g s) (hw : WriteAccepted .other t r s)
    (hr : r = g v) : LeavesAt i s t r (StatusWritten t r s.flags) := by
  subst hr
  obtain ⟨s', hnext, hdone⟩ := plainToMem_completes m g s t v h hw
  exact ⟨s', hi.trans hnext, hdone⟩

variable {result : Byte → Bool → Byte} {carry : Byte → Bool}

/-- A rotate through carry with its result in ACC (R200). -/
theorem leavesInAcc_of_carryToAcc (hi : exec i s = carryToAcc m result carry s) (hr : r = result v s.flags.c) :
    LeavesInAcc i s r (· = { s.flags with c := carry v }) :=
  leavesInAcc_of_readingOp h hi (fun _ => hr.symm) fun _ => rfl

/-- A rotate through carry in place (R200, R210). -/
theorem leavesAt_of_carryToMem (ht : t ≠ .bank0 0x0A) (hi : exec i s = carryToMem m result carry s)
    (hw : WriteAccepted .other t r s) (hr : r = result v s.flags.c) :
    LeavesAt i s t r (· = { s.flags with c := carry v }) :=
  leavesAt_of_modifyWithFlags h ht hi (fun _ => hr.symm) (fun _ => rfl) rfl hw

end Forms

/-! ## The statements -/

/-- Settles O14: the form that reads, with the byte that each turn gives. -/
theorem plainRotateToAccumulator : Obligations.PlainRotateToAccumulator := fun _ _ _ _ _ h =>
  ⟨fun hbits => leavesInAcc_of_plainToAcc h rfl (eq_ror_of_bits hbits),
    fun hbits => leavesInAcc_of_plainToAcc h rfl (eq_rol_of_bits hbits),
    fun hbits => leavesInAcc_of_plainToAcc h rfl (eq_swapNibbles_of_bits hbits)⟩

/-- Settles O15, as O14, with the byte written to where its operand was read. -/
theorem plainRotateInMemory : Obligations.PlainRotateInMemory := fun _ _ _ _ _ h hw =>
  ⟨fun hbits => leavesAt_of_plainToMem h rfl hw (eq_ror_of_bits hbits),
    fun hbits => leavesAt_of_plainToMem h rfl hw (eq_rol_of_bits hbits),
    fun hbits => leavesAt_of_plainToMem h rfl hw (eq_swapNibbles_of_bits hbits)⟩

/-- Settles O16: C enters at the end of the byte that the turn leaves free, and takes the bit that leaves it. -/
theorem carryRotateToAccumulator : Obligations.CarryRotateToAccumulator := fun _ _ _ _ _ h =>
  ⟨fun hbits hc => leavesInAcc_of_carryToAcc (carry := rorcCarry) h rfl (eq_rorc_of_bits hbits hc),
    fun hbits hc => leavesInAcc_of_carryToAcc (carry := rolcCarry) h rfl (eq_rolc_of_bits hbits hc)⟩

/-- Settles O17, as O16, with the byte written to where its operand was read. -/
theorem carryRotateInMemory : Obligations.CarryRotateInMemory := fun _ _ _ _ _ h ht hw =>
  ⟨fun hbits hc => leavesAt_of_carryToMem (carry := rorcCarry) h ht rfl hw (eq_rorc_of_bits hbits hc),
    fun hbits hc => leavesAt_of_carryToMem (carry := rolcCarry) h ht rfl hw (eq_rolc_of_bits hbits hc)⟩

end Sys2Proof.Machine
end

