-- ==== Sys2Proof/Proofs/DataMove.lean ====
section
/-! MOV A,[m] away from the high byte locations of the counter (O19): there a read by MOV draws at most, as any other read does. -/

namespace Sys2Proof.Machine

open Sys2Proof

/-- Only a read of TMRAH or TMRBH latches a byte (R95, R96); any other changes the number of draws at most. -/
theorem memRead_unlatched_state {a : Access} {t : Target} {v : Byte} {s s' : State} (h : memRead a t s = .ok (v, s'))
    (h20 : t ≠ .bank0 0x20) (h23 : t ≠ .bank0 0x23) : ∃ d, s' = { s with draws := d } := by
  obtain hdraws | ⟨_, rfl | rfl, _⟩ := memRead_state a t v s s' h
  · exact hdraws
  · exact absurd rfl h20
  · exact absurd rfl h23

/-- Settles O19: the MOV around a read that latches nothing. -/
theorem loadAccumulator : Obligations.LoadAccumulator := by
  intro s m t v ⟨hresolve, s1, hread⟩ h20 h23
  obtain ⟨d, rfl⟩ := memRead_unlatched_state hread h20 h23
  exact ⟨s.flags, d, rfl, exec_movAm_reads hresolve hread⟩

end Sys2Proof.Machine
end

