-- ==== Sys2Proof/Proofs/BitOp.lean ====
section
/-! CLR [m].i and SET [m].i (O18). The statement gives the bit written and says that the other seven are kept; that is the byte the
model computes (`clearBit_bit`, `setBit_bit`), and the operand form is the one of the rotates that write no flag. -/

namespace Sys2Proof.Machine

open Sys2Proof

/-! ## The byte with one bit written -/

section Bits

variable {r v : Byte} {i : Fin 8}

/-- A byte is the one that a write of bit `i` gives when it has bit `i` as written and every other bit as it was. -/
theorem byte_eq_of_bit_written {w : Byte} (hkept : ∀ k : Fin 8, k ≠ i → r.getLsbD k = v.getLsbD k)
    (hkeeps : ∀ k : Fin 8, k ≠ i → w.getLsbD k = v.getLsbD k) (hbit : r.getLsbD i = w.getLsbD i) : r = w := by
  refine byte_eq_of_bits fun k => ?_
  by_cases hk : k = i
  · rw [hk, hbit]
  · rw [hkept k hk, hkeeps k hk]

/-- One bit cleared, the others kept (R220). -/
theorem eq_clearBit_of_bits (hkept : ∀ k : Fin 8, k ≠ i → r.getLsbD k = v.getLsbD k) (hi : r.getLsbD i = false) :
    r = clearBit v i := by
  refine byte_eq_of_bit_written hkept (fun k hk => ?_) ?_
  · simp only [clearBit_bit, hk, decide_false, Bool.not_false, Bool.and_true]
  · simp only [clearBit_bit, hi, decide_true, Bool.not_true, Bool.and_false]

/-- One bit set, the others kept (R221). -/
theorem eq_setBit_of_bits (hkept : ∀ k : Fin 8, k ≠ i → r.getLsbD k = v.getLsbD k) (hi : r.getLsbD i = true) :
    r = setBit v i := by
  refine byte_eq_of_bit_written hkept (fun k hk => ?_) ?_
  · simp only [setBit_bit, hk, decide_false, Bool.or_false]
  · simp only [setBit_bit, hi, decide_true, Bool.or_true]

end Bits

/-! ## The statement -/

/-- Settles O18: each instruction reads and writes the whole byte (R222), and the byte written is the one with the given bits. -/
theorem singleBitWrite : Obligations.SingleBitWrite := fun _ _ _ _ _ _ h hw hkept =>
  ⟨fun hi => leavesAt_of_plainToMem h rfl hw (eq_clearBit_of_bits hkept hi),
    fun hi => leavesAt_of_plainToMem h rfl hw (eq_setBit_of_bits hkept hi)⟩

end Sys2Proof.Machine
end

