-- ==== Sys2Proof/Proofs/Skip.lean ====
section
/-! The instructions that may skip (O25, O26). A skip only sets the PC, so each of the three operand forms is shown once to end at
`skipAddress`, and a form that skips on its result skips on the operand values that make the result 00H. -/

namespace Sys2Proof.Machine

open Sys2Proof

/-! ## The skip -/

/-- From a PC that is already the next address, a skip advances it once more and changes nothing else (R239). -/
theorem skipIf_eq {s s1 : State} (hpc : s1.pc = s.pc + 1) (c : Bool) :
    s1.skipIf c = { s1 with pc := skipAddress s c } := by
  cases c
  case false => exact congrArg (fun a => { s1 with pc := a }) hpc
  case true =>
    have htwo : s1.pc + 1 = s.pc + 2 := by rw [hpc, BitVec.add_assoc]; rfl
    exact congrArg (fun a => { s1 with pc := a }) htwo

/-- The same where the skip is on a result that is 00H. -/
theorem skipIf_zero_eq {s s1 : State} {r : Byte} {p : Prop} [Decidable p] (hpc : s1.pc = s.pc + 1) (hz : r = 0 ↔ p) :
    s1.skipIf (r == 0) = { s1 with pc := skipAddress s (decide p) } := by
  rw [skipIf_eq hpc, beq_eq_decide, decide_eq_decide.mpr hz]

/-! ## The operand forms -/

section Forms

variable {i : Instr} {m : DAddr} {s : State} {v : Byte}

section Reading

variable {d : Nat} (hread : ∀ k, readingOp m s k = k v { s with pc := s.pc + 1, draws := d })
include hread

/-- The form that tests the operand (R227, R229, R230); `hread` is what `readingOp_operand` says of any form that only reads. -/
theorem exec_of_testAndSkip {test : Byte → Bool} (hi : exec i s = testAndSkip m test s) :
    exec i s = .next { s with pc := skipAddress s (test v), draws := d } := by
  rw [hi, testAndSkip, hread, skipIf_eq rfl]

/-- The form whose result goes to ACC (R228, R233, R234). -/
theorem exec_of_accAndSkip {f : Byte → Byte} {p : Prop} [Decidable p] (hz : f v = 0 ↔ p)
    (hi : exec i s = accAndSkip m f s) :
    exec i s = .next { s with pc := skipAddress s (decide p), acc := f v, draws := d } := by
  rw [hi, accAndSkip, hread, skipIf_zero_eq rfl hz]

end Reading

/-- The form whose result goes to where the operand was read (R231, R232): away from PCL the write leaves the PC at the next
address, which is where the skip begins. -/
theorem exec_of_memAndSkip {t : Target} {f : Byte → Byte} {p : Prop} [Decidable p] (h : Operand .other m s t v)
    (ht : t ≠ .bank0 0x06) (hz : f v = 0 ↔ p) (hi : exec i s = memAndSkip m f s) (hw : WriteAccepted .other t (f v) s) :
    ∃ s', exec i s = .next { s' with pc := skipAddress s (decide p) } ∧ Written t (f v) s s' ∧ KeptBut t s s' ∧
      StatusWritten t (f v) s.flags s'.flags := by
  obtain ⟨s', hnext, hwritten, hkept, hflags⟩ := memAndSkip_completes m f s t v h ht hw
  exact ⟨s', by rw [hi, hnext, skipIf_zero_eq (hkept.pc ht) hz], hwritten, hkept, hflags⟩

end Forms

/-! ## The statements -/

/-- Settles O25: the two forms that only read; the six read the same operand, and so draw alike. -/
theorem skipTests : Obligations.SkipTests := by
  intro s m t v i h
  obtain ⟨d, hread⟩ := readingOp_operand m s t v h
  exact ⟨d, exec_of_testAndSkip hread (test := fun v => v == 0) rfl,
    exec_of_testAndSkip hread (test := fun v => !v.getLsbD i) rfl,
    exec_of_testAndSkip hread (test := fun v => v.getLsbD i) rfl,
    exec_of_accAndSkip hread (f := id) Iff.rfl rfl,
    exec_of_accAndSkip hread (f := fun v => v + 1) (increment_eq_zero_iff v) rfl,
    exec_of_accAndSkip hread (f := fun v => v - 1) (decrement_eq_zero_iff v) rfl⟩

/-- Settles O26: the form that writes its operand back, with each step and when it gives 00H. -/
theorem skipAfterStep : Obligations.SkipAfterStep := fun _ _ _ v h ht =>
  ⟨exec_of_memAndSkip (f := fun v => v + 1) h ht (increment_eq_zero_iff v) rfl,
    exec_of_memAndSkip (f := fun v => v - 1) h ht (decrement_eq_zero_iff v) rfl⟩

end Sys2Proof.Machine
end

