-- ==== Sys2Proof/Proofs/TableRead.lean ====
section
/-! TABRDC and TABRDL (O23). A table read loads TBLH and then writes its operand, which leaves TBLH alone (R91, R253). So what a write
leaves and keeps, known from the state with TBLH loaded, is carried back to the state the instruction began in. -/

namespace Sys2Proof.Machine

open Sys2Proof

/-! ## TBLH loaded before the write -/

section Tblh

variable {t : Target} {s s2 : State} {high : Byte}

/-- No clause of `Written` reads TBLH. -/
theorem Written.tblhRestored {low : Byte} (h : Written t low { s with tblh := high } s2) :
    Written t low s { s2 with tblh := s.tblh } :=
  ⟨h.mem, h.acc, h.mp0, h.mp1, h.bp, h.pcl, h.tblp, h.rt, h.intc, h.latch, h.pac, h.tmrc, h.adcr, h.pulse⟩

/-- `KeptBut` names TBLH in one clause, which holds again once the old byte is back. -/
theorem KeptBut.tblhRestored (h : KeptBut t { s with tblh := high } s2) : KeptBut t s { s2 with tblh := s.tblh } :=
  ⟨h.acc, h.mp0, h.mp1, h.bp, h.pc, h.tblp, rfl, h.rt, h.intc, h.latch, h.pac, h.pads, h.tmrc, h.adcr, h.timer, h.mem,
    h.stack, h.devices, h.model⟩

end Tblh

/-! ## The operand form -/

/-- A table read ends with TBLH loaded in the state `s'` that a plain store of the low byte would leave (R253). -/
theorem tableRead_completes {m : DAddr} {entry : State → PAddr} {s : State} {t : Target} {w : Word} (h : resolve s m = .ok t)
    (hword : romRead s.advance (entry s.advance) = w) (hw : WriteAccepted .other t (lowByte w) s) :
    ∃ s', tableRead m entry s = .next { s' with tblh := highByte w } ∧ Written t (lowByte w) s s' ∧ KeptBut t s s' ∧
      StatusWritten t (lowByte w) s.flags s'.flags := by
  obtain ⟨s2, hwrite⟩ := (memWrite_answers_iff .other t (lowByte w) { s.advance with tblh := highByte w }).mpr hw
  have hwritten := memWrite_written _ _ _ { s with tblh := highByte w } _ _ s.draws rfl hwrite
  have hkept := memWrite_kept _ _ _ { s with tblh := highByte w } _ _ s.draws rfl hwrite
  have hflags := memWrite_flags _ _ _ _ _ hwrite
  have hloaded : { s2 with tblh := highByte w } = s2 := congrArg (fun b => { s2 with tblh := b }) hkept.tblh.symm
  have hnext : tableRead m entry s = .next s2 := by
    simp only [tableRead, withTarget, resolve_advance, h, withWrite, hword, hwrite]
  exact ⟨{ s2 with tblh := s.tblh }, hnext.trans (congrArg _ hloaded.symm), hwritten.tblhRestored, hkept.tblhRestored, hflags⟩

/-! ## The statement -/

/-- Settles O23: the two differ in the table location alone. For TABRDC it is the model's own, with the page of the advanced PC (D9);
for TABRDL the last page is 300H plus TBLP. -/
theorem tableReads : Obligations.TableReads := fun s _ _ _ h hw =>
  ⟨fun hword => tableRead_completes (entry := currentPageEntry) h hword.symm hw,
    fun hword => tableRead_completes (entry := lastPageEntry) h
      ((congrArg (romRead s) (lastPageEntry_eq s.advance)).trans hword.symm) hw⟩

end Sys2Proof.Machine
end

