-- ==== Sys2Proof/Proofs/SystemInstr.lean ====
section
/-! CLR WDT, CLR WDT1, CLR WDT2, NOP (O27) and HALT (O28). The three watchdog instructions are one clear under a condition, and the
pair leaves its mark where the condition does not hold. -/

namespace Sys2Proof.Machine

open Sys2Proof

/-! ## The watchdog instructions -/

theorem clearWdtIf_false (s : State) : clearWdtIf false s = s := rfl

theorem clearWdtIf_true (s : State) :
    clearWdtIf true s = { s with
      wdt := { age := 0, w1 := false, w2 := false }, flags := { s.flags with timeOut := false, pdf := false } } := rfl

theorem exec_clrWdt (s : State) : exec .clrWdt s = .next (clearWdtIf s.par.mask.wdtEn s.advance) := rfl

/-- The first of the pair is a clear where the other has been executed, and leaves its mark where it has not (R259). -/
theorem exec_clrWdt1_of_enabled {s : State} (hen : s.par.mask.wdtEn = true) : exec .clrWdt1 s = .next
    (if s.wdt.w2 then clearWdtIf true s.advance else { s.advance with wdt := { s.wdt with w1 := true } }) := by
  cases hw : s.wdt.w2 <;> simp [exec, execClrWdt1, hen, hw, clearWdtIf_false, clearWdtIf_true]

/-- And so is its mirror image (R260). -/
theorem exec_clrWdt2_of_enabled {s : State} (hen : s.par.mask.wdtEn = true) : exec .clrWdt2 s = .next
    (if s.wdt.w1 then clearWdtIf true s.advance else { s.advance with wdt := { s.wdt with w2 := true } }) := by
  cases hw : s.wdt.w1 <;> simp [exec, execClrWdt2, hen, hw, clearWdtIf_false, clearWdtIf_true]

/-- Where the mask option disables the watchdog none of the three does anything. -/
theorem exec_clrWdts_of_disabled {s : State} (hdis : s.par.mask.wdtEn = false) {i : Instr}
    (hi : i ∈ [Instr.clrWdt, .clrWdt1, .clrWdt2]) : exec i s = .next s.advance := by
  simp only [List.mem_cons, List.not_mem_nil, or_false] at hi
  rcases hi with rfl | rfl | rfl
  · rw [exec_clrWdt, hdis, clearWdtIf_false]
  · simp only [exec, execClrWdt1, hdis, Bool.false_and, clearWdtIf_false, Bool.or_false]
  · simp only [exec, execClrWdt2, hdis, Bool.false_and, clearWdtIf_false, Bool.or_false]

/-- Settles O27, by the mask option and then by the mark that the other of the pair has left. -/
theorem watchdogClearsAndNop : Obligations.WatchdogClearsAndNop := by
  rintro s _ rfl
  refine ⟨rfl, fun hen => ⟨?_, fun h2 => ?_, fun h1 => ?_, fun h2 => ?_, fun h1 => ?_⟩,
    fun hdis i hi => exec_clrWdts_of_disabled hdis hi⟩
  · rw [exec_clrWdt, hen]; rfl
  · rw [exec_clrWdt1_of_enabled hen, h2]; rfl
  · rw [exec_clrWdt2_of_enabled hen, h1]; rfl
  · rw [exec_clrWdt1_of_enabled hen, h2]; rfl
  · rw [exec_clrWdt2_of_enabled hen, h1]; rfl

/-! ## HALT -/

/-- HALT is refused where the counter counts outside timer mode (R362), and is answered everywhere else. -/
theorem exec_halt_of_quiet {s : State} (h : countsOutside s = false) : exec .halt s = .next { s with
    pc := s.pc + 1, flags := { s.flags with pdf := true, timeOut := false }, wdt := { age := 0, w1 := false, w2 := false },
    tbfAtHalt := s.intc.tbf, mft := Config.freePhase s.draws, halted := true, draws := s.draws + 1 } := by
  simp only [exec, execHalt, h]
  rfl

/-- Settles O28: a counter that is off, or on in timer mode, does not count outside timer mode. -/
theorem haltEntersPowerDown : Obligations.HaltEntersPowerDown := by
  intro s hmode
  have hquiet : countsOutside s = false := by
    cases hton : s.tmrc.ton with
    | false => simp [countsOutside, hton]
    | true =>
      obtain ⟨hadc, _, htm0⟩ := hmode hton
      simp [countsOutside, hadc, htm0]
  exact ⟨_, _, exec_halt_of_quiet hquiet⟩

end Sys2Proof.Machine
end

