-- ==== Sys2Proof/Proofs/Interrupts.lean ====
section
/-! Which interrupt is acknowledged (O42), its entry sequence (O43), and the return from it (O45). -/

namespace Sys2Proof.Machine

open Sys2Proof

/-! ## The acknowledge -/

/-- In HALT and while RES is low nothing is acknowledged (R48, R401). -/
theorem pendingInterrupt_of_asleep {s : State} (h : s.halted = true ∨ s.resLow = true) : pendingInterrupt s = none := by
  rcases h with h | h <;> simp [pendingInterrupt, h]

/-- A core that runs acknowledges the timer/event counter's request first (R305, R308). -/
theorem pendingInterrupt_of_running {s : State} (hhalt : s.halted = false) (hres : s.resLow = false)
    [Decidable (Acknowledgeable .timer s)] [Decidable (Acknowledgeable .timeBase s)] :
    pendingInterrupt s = if Acknowledgeable .timer s then some .timer
      else if Acknowledgeable .timeBase s then some .timeBase else none := by
  have hdepth : s.sp = 2 ↔ ¬s.sp.val < 2 := by omega
  by_cases hfull : s.sp.val < 2 <;> cases hemi : s.intc.emi <;>
    simp [pendingInterrupt, Acknowledgeable, hhalt, hres, hdepth, hfull, hemi]

/-- Settles O42, by which of the two requests can be acknowledged. -/
theorem acknowledgeCondition : Obligations.AcknowledgeCondition := by
  classical
  intro s
  refine ⟨fun hhalt hres => ?_, pendingInterrupt_of_asleep⟩
  rw [pendingInterrupt_of_running hhalt hres]
  by_cases ht : Acknowledgeable .timer s <;> by_cases hb : Acknowledgeable .timeBase s <;> simp [ht, hb]

/-! ## The entry sequence -/

/-- The request that is served and EMI are cleared, and nothing else of INTC (R307). -/
theorem entered_eq (k : IntSource) (i : Intc) : i.entered k =
    { i with emi := false, tf := i.tf && k != .timer, tbf := i.tbf && k != .timeBase } := by
  cases k <;> simp [Intc.entered]

/-- Settles O43, by the depth of the stack. -/
theorem interruptEntrySequence : Obligations.InterruptEntrySequence := by
  rintro s _ k rfl
  refine ⟨fun h => ?_, fun h => ?_⟩
  · cases k <;> simp [takeInterrupt, push_empty h, entered_eq, vector]
  · cases k <;> simp [takeInterrupt, push_one h, entered_eq, vector]

/-! ## The return -/

/-- A pop takes back what the entry of an interrupt pushed, in whatever state keeps the stack of the entry. -/
theorem popPc_of_entered {s h : State} {k : IntSource} (hsp : s.sp.val < 2) (hdepth : h.sp = (takeInterrupt k s).sp)
    (h0 : h.stk0 = (takeInterrupt k s).stk0) (h1 : h.stk1 = (takeInterrupt k s).stk1) :
    popPc h = .ok { h with pc := s.pc, sp := s.sp } := by
  have hcases : s.sp = 0 ∨ s.sp = 1 := by omega
  rcases hcases with hs | hs
  · simp only [takeInterrupt, push_empty hs] at hdepth h0
    rw [popPc_youngest (.inl ⟨hdepth, h0.symm, hs⟩)]
  · simp only [takeInterrupt, push_one hs] at hdepth h1
    rw [popPc_youngest (.inr ⟨hdepth, h1.symm, hs⟩)]

/-- With an entry free the push of an interrupt leaves the address below it where it is. -/
theorem takeInterrupt_keeps_lower {s : State} (k : IntSource) (hsp : s.sp = 1) : (takeInterrupt k s).stk0 = s.stk0 := by
  simp [takeInterrupt, push_one hsp]

/-- Settles O45: RETI pops what the entry pushed, and sets EMI. -/
theorem interruptAndReturn : Obligations.InterruptAndReturn := by
  intro s h k hsp hdepth h0 h1
  have hpop := popPc_of_entered hsp hdepth h0 h1
  obtain ⟨_, _, hreti⟩ := exec_returns_of_pop 0 hpop
  refine ⟨_, hreti, rfl, fun hone => h0.trans (takeInterrupt_keeps_lower k hone), fun hintc => ?_, ?_⟩
  · simp [hintc, entered_eq]
  · rintro rfl
    simp

end Sys2Proof.Machine
end

