-- ==== Sys2Proof/Proofs/TimeBase.lean ====
section
/-! The multi-function timer and the time base (O53), and the three ways in which a device ends HALT: each wake-up clears HALTED
under a condition and does nothing else, so that a period of the devices but the counter has one closed form. What follows from it
for a whole period is said here once. -/

namespace Sys2Proof.Machine

open Sys2Proof Sys2Proof.Config

/-! ## The time base -/

/-- The count wraps at 2^15, which every factor of the time base divides, so that a clock moves it by one modulo the factor. -/
theorem mft_clock_mod (m : BitVec 15) (rt : BitVec 3) (j : Nat) :
    ((m + 1).toNat + j) % 2 ^ (8 + rt.toNat) = (m.toNat + (j + 1)) % 2 ^ (8 + rt.toNat) := by
  have hdvd : 2 ^ (8 + rt.toNat) ∣ 2 ^ 15 := Nat.pow_dvd_pow 2 (by have := rt.isLt; omega)
  have hclock : (m + 1).toNat = (m.toNat + 1) % 2 ^ 15 := by simp [BitVec.toNat_add]
  rw [hclock, Nat.add_mod, Nat.mod_mod_of_dvd _ hdvd, ← Nat.add_mod, Nat.add_assoc, Nat.add_comm 1 j]

/-- One clock less: the first of the clocks from 1 to `n + 1`, or one of those after it. -/
theorem exists_clock_succ {P : Nat → Prop} (n : Nat) :
    (∃ j, 1 ≤ j ∧ j ≤ n + 1 ∧ P j) ↔ P 1 ∨ ∃ j, 1 ≤ j ∧ j ≤ n ∧ P (j + 1) := by
  constructor
  · rintro ⟨_ | _ | j, hlow, hhigh, hj⟩
    · omega
    · exact .inl hj
    · exact .inr ⟨j + 1, by omega, by omega, hj⟩
  · rintro (h | ⟨j, hlow, hhigh, hj⟩)
    · exact ⟨1, by omega, by omega, h⟩
    · exact ⟨j + 1, by omega, by omega, hj⟩

/-- Settles O53, clock by clock. -/
theorem timeBaseTimeOuts : Obligations.TimeBaseTimeOuts := by
  intro n
  induction n with
  | zero => exact fun s => ⟨s.intc.tbf, by simp [runMft], by simp⟩
  | succ n ih =>
    intro s
    obtain ⟨tbf, heq, htbf⟩ := ih (clockMft s)
    refine ⟨tbf, ?_, ?_⟩
    · have hcount : BitVec.ofNat 15 ((s.mft + 1).toNat + n) = BitVec.ofNat 15 (s.mft.toNat + (n + 1)) :=
        BitVec.eq_of_toNat_eq (by simp [BitVec.toNat_add]; omega)
      rw [runMft, heq, clockMft_mft, hcount]
      rfl
    · have hfirst := mft_clock_mod s.mft s.rt 0
      simp only [clockMft_intc, clockMft_mft, clockMft_rt, mft_clock_mod, timeBaseFactor, Bool.or_eq_true, beq_iff_eq] at htbf
      rw [Nat.add_zero] at hfirst
      rw [htbf, exists_clock_succ, hfirst, or_assoc]

/-! ## The ways out of HALT -/

/-- An overflow that sets TF ends HALT (R366): TF was `tf` before. -/
def timerWakes (tf : Bool) (s : State) : Bool := s.par.mask.oscOnAtHalt && s.par.tfWakesHalt && !tf && s.intc.tf

/-- A time base time-out ends HALT (R364): TBF is `tbf` after the period. -/
def timeBaseWakes (tbf : Bool) (s : State) : Bool := s.par.mask.oscOnAtHalt && !s.tbfAtHalt && tbf

/-- A port stimulus ends HALT (R365). -/
def portWakes (e : EnvSample) (s : State) : Bool := e.paWake && e.pads != s.port.pads

/-- A core that leaves HALT under a condition, and changes nothing else. -/
theorem ends_halt_eq (c : Bool) (s : State) :
    (if (s.halted && c) = true then { s with halted := false } else s) = { s with halted := s.halted && !c } := by
  cases hh : s.halted with
  | false => exact congrArg (fun b => { s with halted := b }) hh
  | true =>
    cases c with
    | false => exact congrArg (fun b => { s with halted := b }) hh
    | true => rfl

theorem timerWake_eq (tf : Bool) (s : State) : timerWake tf s = { s with halted := s.halted && !timerWakes tf s } := by
  rw [← ends_halt_eq]
  simp only [timerWake, timerWakes, Bool.and_assoc]

theorem timeBaseWake_eq (s : State) :
    timeBaseWake s = { s with halted := s.halted && !timeBaseWakes s.intc.tbf s } := by
  rw [← ends_halt_eq]
  simp only [timeBaseWake, timeBaseWakes, Bool.and_assoc]

theorem portWake_eq (e : EnvSample) (s : State) : portWake e s = { s with halted := s.halted && !portWakes e s } := by
  rw [portWake, Bool.and_assoc]
  exact ends_halt_eq (portWakes e s) s

/-- What the other devices find as it was when the counter has moved: it changes what stands behind its ports, TF and TON. -/
structure LeftByCounter (s s' : State) : Prop where
  acc : s'.acc = s.acc
  flags : s'.flags = s.flags
  rt : s'.rt = s.rt
  port : s'.port = s.port
  adcr : s'.adcr = s.adcr
  mft : s'.mft = s.mft
  tbf : s'.intc.tbf = s.intc.tbf
  wdt : s'.wdt = s.wdt
  halted : s'.halted = s.halted
  tbfAtHalt : s'.tbfAtHalt = s.tbfAtHalt
  slipped : s'.slipped = s.slipped
  par : s'.par = s.par

/-- The counter's part of a step, after the sample is taken. -/
theorem timerPeriod_leaves {before s s' : State} {n : Nat} {drawn : Bool} {e : EnvSample}
    (h : timerPeriod before n drawn e (dropSample s) = .ok s') : LeftByCounter s s' := by
  obtain ⟨_, _, _, _, _, _, rfl, _⟩ := timerPeriod_moved h
  exact ⟨rfl, rfl, rfl, rfl, rfl, rfl, rfl, rfl, rfl, rfl, rfl, rfl⟩

/-- What stands between the counter and the watchdog in a period of `n` clocks: the multi-function timer and two of the three
wake-ups. -/
theorem timeBase_and_wakes (n : Nat) (tf : Bool) (s : State) : ∃ tbf : Bool,
    timeBaseWake (runMft n (timerWake tf s)) = { s with
      mft := BitVec.ofNat 15 (s.mft.toNat + n), intc := { s.intc with tbf := tbf },
      halted := s.halted && !timerWakes tf s && !timeBaseWakes tbf s } ∧
    (tbf = true ↔ s.intc.tbf = true ∨ ∃ j, 1 ≤ j ∧ j ≤ n ∧ (s.mft.toNat + j) % 2 ^ (8 + s.rt.toNat) = 0) := by
  obtain ⟨tbf, heq, htbf⟩ := timeBaseTimeOuts n { s with halted := s.halted && !timerWakes tf s }
  exact ⟨tbf, by rw [timerWake_eq, heq, timeBaseWake_eq]; rfl, htbf⟩

/-- A period without a reset of all devices but the counter. -/
theorem otherDevices_eq {clocks : Nat} {e : EnvSample} {s : State} (cyc : Nat) (b tf : Bool) (hno : NoReset clocks e s) :
    ∃ tbf : Bool, otherDevices clocks cyc b tf e s = { s with
      mft := BitVec.ofNat 15 (s.mft.toNat + clocks), intc := { s.intc with tbf := tbf },
      halted := s.halted && !timerWakes tf s && !timeBaseWakes tbf s && !portWakes e s,
      wdt := { s.wdt with age := s.wdt.age + clocks },
      adcr := { s.adcr with blf := if s.adcr.bon then e.vddLow else s.adcr.blf },
      lvdAge := if b && s.adcr.bon then s.lvdAge + cyc else 0, resLow := false, port := { s.port with pads := e.pads } } ∧
    (tbf = true ↔ s.intc.tbf = true ∨ ∃ j, 1 ≤ j ∧ j ≤ clocks ∧ (s.mft.toNat + j) % 2 ^ (8 + s.rt.toNat) = 0) := by
  obtain ⟨hpower, hres, hsilent⟩ := hno
  obtain ⟨tbf, heq, htbf⟩ := timeBase_and_wakes clocks tf s
  refine ⟨tbf, ?_, htbf⟩
  have hsilent' : WatchdogSilent clocks e { s with
      mft := BitVec.ofNat 15 (s.mft.toNat + clocks), intc := { s.intc with tbf := tbf },
      halted := s.halted && !timerWakes tf s && !timeBaseWakes tbf s } := hsilent
  rw [otherDevices, heq, runWdt_silent hsilent', samplePads, padEvents, if_neg (by simp [hpower]), if_neg (by simp [hres]),
    portWake_eq, ← hres]
  rfl

/-! ## The whole period -/

/-- What the end of a period of `clocks` clocks without a reset leaves, where the counter's part of it has led to `s`: TF was `tf`
before, and the sample is `e`. -/
structure PeriodEnd (clocks : Nat) (tf : Bool) (e : EnvSample) (s s' : State) : Prop where
  timer : s'.timer = s.timer
  request : s'.intc.tf = s.intc.tf
  tmrc : s'.tmrc = s.tmrc
  tbf : s'.intc.tbf = true ↔
    s.intc.tbf = true ∨ ∃ j, 1 ≤ j ∧ j ≤ clocks ∧ (s.mft.toNat + j) % 2 ^ (8 + s.rt.toNat) = 0
  halted : s'.halted = (s.halted && !timerWakes tf s && !timeBaseWakes s'.intc.tbf s && !portWakes e s)
  wdt : s'.wdt = { s.wdt with age := s.wdt.age + clocks }
  resLow : s'.resLow = false
  entry : s'.entering = none ∨ s'.entering = pendingInterrupt s'

/-- Every period without a reset that is answered ends so. -/
theorem period_end {before s1 s' : State} {clocks cyc : Nat} {drawn : Bool}
    (hp : period before clocks cyc drawn s1 = .next s') (hno : NoReset clocks (nextSample s1) s1) :
    ∃ s3, timerPeriod before clocks drawn (nextSample s1) (dropSample s1) = .ok s3 ∧
      PeriodEnd clocks s1.intc.tf (nextSample s1) s3 s' := by
  obtain ⟨s3, h3, rfl⟩ := period_cases hp
  have hno3 : NoReset clocks (nextSample s1) s3 := NoReset.of_counterMoved (s := dropSample s1) hno (timerPeriod_moved h3)
  obtain ⟨tbf, heq, htbf⟩ := otherDevices_eq cyc before.adcr.bon s1.intc.tf hno3
  obtain ⟨_, _, hb, hentry⟩ := boundary_entry (nextSample s1)
    (otherDevices clocks cyc before.adcr.bon s1.intc.tf (nextSample s1) s3)
  rw [hb]
  rw [heq] at hentry ⊢
  exact ⟨s3, h3, rfl, rfl, rfl, htbf, rfl, rfl, rfl, hentry⟩

/-- And keeps all that the devices do not own. -/
theorem period_keeps {before s1 s' : State} {clocks cyc : Nat} {drawn : Bool}
    (hp : period before clocks cyc drawn s1 = .next s') (hno : NoReset clocks (nextSample s1) s1) : DevicesKeep s1 s' := by
  obtain ⟨s3, h3, rfl⟩ := period_cases hp
  have hmoved := timerPeriod_moved h3
  have hno3 : NoReset clocks (nextSample s1) s3 := NoReset.of_counterMoved (s := dropSample s1) hno hmoved
  exact (((dropSample_keeps s1).trans hmoved.keeps).trans (otherDevices_keeps hno3).1).trans (boundary_keeps _ _)

end Sys2Proof.Machine
end

