-- ==== Sys2Proof/Proofs/Watchdog.lean ====
section
/-! The watchdog and its two resets (O49, O51, O52). -/

namespace Sys2Proof.Machine

open Sys2Proof Sys2Proof.Config

/-! ## The watchdog -/

/-- Settles O49, field by field. -/
theorem warmResetProcedure : Obligations.WarmResetProcedure := fun _ => ⟨_, _, _, rfl⟩

/-- In a period with a clock the watchdog only ages if it does not time out, and resets the chip or the core if it does. -/
theorem runWdt_of_clocks {n : Nat} (hn : 0 < n) (e : EnvSample) (s : State) :
    runWdt n e s = if wdtTimesOut e (ageWdt n s) = true then
      (if s.halted then warmReset (ageWdt n s) else chipReset .wdtN (ageWdt n s)) else ageWdt n s := by
  simp only [runWdt, ne_eq, Nat.pos_iff_ne_zero.mp hn, not_false_eq_true, true_and]

/-- When the watchdog times out, by its age at the end of the period (R321). -/
theorem wdtTimesOut_ageWdt_iff (n : Nat) (e : EnvSample) (s : State) : wdtTimesOut e (ageWdt n s) = true ↔
    s.par.mask.wdtEn = true ∧ 0x8000 ≤ s.wdt.age + n ∧ (0x10000 ≤ s.wdt.age + n ∨ e.wdtStrike = true) := by
  show (decide (0x8000 ≤ s.wdt.age + n) && s.par.mask.wdtEn && (decide (0x10000 ≤ s.wdt.age + n) || e.wdtStrike)) = true ↔ _
  simp only [Bool.and_eq_true, Bool.or_eq_true, decide_eq_true_eq, and_assoc, and_left_comm]

/-- Settles O51, by where the age at the end of the period lies. -/
theorem watchdogWindow : Obligations.WatchdogWindow := by
  rintro n e s _ hn rfl
  have hrun := runWdt_of_clocks hn e s
  simp only [wdtTimesOut_ageWdt_iff] at hrun
  refine ⟨fun hquiet => hrun.trans (if_neg ?_), fun hen hage => hrun.trans (if_pos ?_), fun hen hlow hhigh => ?_⟩
  · rintro ⟨hen, hlow, _⟩
    rcases hquiet with hdis | hage
    · simp [hen] at hdis
    · omega
  · exact ⟨hen, by omega, .inl hage⟩
  · have hstrike : (s.par.mask.wdtEn = true ∧ 0x8000 ≤ s.wdt.age + n ∧ (0x10000 ≤ s.wdt.age + n ∨ e.wdtStrike = true)) ↔
        e.wdtStrike = true := by simp [hen, hlow, Nat.not_le.mpr hhigh]
    simp only [hstrike] at hrun
    exact hrun

theorem runWdt_of_expired {n : Nat} {e : EnvSample} {s : State} (hn : 0 < n) (hen : s.par.mask.wdtEn = true)
    (hage : 0x10000 ≤ s.wdt.age + n) (hrun : s.halted = false) : runWdt n e s = chipReset .wdtN (ageWdt n s) := by
  obtain ⟨_, hexpired, _⟩ := watchdogWindow n e s _ hn rfl
  rw [hexpired hen hage, hrun]
  rfl

/-! ## The whole period -/

/-- The interrupt check where interrupts are disabled. -/
theorem boundary_of_disabled {s : State} (h : s.intc.emi = false) (e : EnvSample) :
    boundary e s = { s with entering := none, slipped := false } := by
  have hnone : pendingInterrupt s = none := by simp [pendingInterrupt, h]
  simp only [boundary, hnone]

/-- The watchdog's reset in a period of the devices but the counter: it comes before the pads, which find the chip reset. -/
theorem otherDevices_of_expired {clocks : Nat} {e : EnvSample} {s : State} (cyc : Nat) (b tf : Bool)
    (hen : s.par.mask.wdtEn = true) (hrun : s.halted = false) (hpos : 0 < clocks) (hage : 0x10000 ≤ s.wdt.age + clocks)
    (hpower : e.powerOn = false) (hres : e.resLow = false) : ∃ s1 : State,
      otherDevices clocks cyc b tf e s = takePads e (runLvd cyc b e (chipReset .wdtN s1)) ∧ s1.flags = s.flags ∧
        s1.acc = s.acc := by
  obtain ⟨tbf, heq, _⟩ := timeBase_and_wakes clocks tf s
  rw [otherDevices, heq, runWdt_of_expired hpos ?enabled ?age ?running, samplePads, padEvents, if_neg (by simp [hpower]),
    if_neg (by simp [hres]), portWake_eq]
  case enabled => exact hen
  case age => exact hage
  case running => simp [hrun]
  exact ⟨_, rfl, rfl, rfl⟩

/-- Settles O52: the watchdog resets the chip, and the interrupt check finds interrupts disabled. -/
theorem unclearedWatchdogResetsTheChip : Obligations.UnclearedWatchdogResetsTheChip := by
  intro before s s' clocks cyc drawn hen hrun hpos hage hpower hres hp
  obtain ⟨s3, h3, rfl⟩ := period_cases hp
  have hleft := timerPeriod_leaves h3
  obtain ⟨s1, heq, hflags, hacc⟩ := otherDevices_of_expired cyc before.adcr.bon s.intc.tf (by rwa [hleft.par])
    (hleft.halted.trans hrun) hpos (by rwa [hleft.wdt]) hpower hres
  rw [heq, boundary_of_disabled rfl]
  have hpdf : s1.flags.pdf = s.flags.pdf := by rw [hflags, hleft.flags]
  exact ⟨rfl, rfl, rfl, hpdf, hacc.trans hleft.acc, rfl, rfl⟩

end Sys2Proof.Machine
end

