-- ==== Sys2Proof/Proofs/Counting.lean ====
section
/-! Counting (O55), pulse-width measurement (O56) and conversion (O57). A list of events of which some are counted, while nothing else
that the mode depends on changes, is as many counts as it holds of those; a conversion is two counts at once. -/

namespace Sys2Proof.Machine

open Sys2Proof Sys2Proof.Config

/-! ## Counts in a row -/

/-- Counting does not move what the mode depends on. -/
structure SameControl (s s' : State) : Prop where
  tmrc : s'.tmrc = s.tmrc
  adcr : s'.adcr = s.adcr
  armed : s'.timer.pwArmed = s.timer.pwArmed
  run : s'.timer.pwRun = s.timer.pwRun

theorem SameControl.refl (s : State) : SameControl s s := ⟨rfl, rfl, rfl, rfl⟩

theorem SameControl.trans {s s1 s2 : State} (h : SameControl s s1) (h' : SameControl s1 s2) : SameControl s s2 :=
  ⟨h'.tmrc.trans h.tmrc, h'.adcr.trans h.adcr, h'.armed.trans h.armed, h'.run.trans h.run⟩

theorem count_sameControl (s : State) : SameControl s (count s) := by
  unfold count
  split <;> exact ⟨rfl, rfl, rfl, rfl⟩

theorem count_iterate_sameControl (n : Nat) : ∀ s : State, SameControl s (count^[n] s) := by
  induction n with
  | zero => exact SameControl.refl
  | succ n ih => exact fun s => (count_sameControl s).trans (ih _)

theorem count_of_max {s : State} (h : s.timer.ta = 0xFFFF) : count s = { s with
    timer := { s.timer with ta := s.timer.tb }, intc := { s.intc with tf := true } } := if_pos h

theorem toNat_lt_max {w : Word} (h : w ≠ 0xFFFF) : w.toNat < 0xFFFF := by
  have hne : w.toNat ≠ 0xFFFF := fun hw => h (BitVec.eq_of_toNat_eq hw)
  have := w.isLt
  omega

theorem toNat_succ {w : Word} (h : w.toNat < 0xFFFF) : (w + 1).toNat = w.toNat + 1 := by
  have hone : (1 : Word).toNat = 1 := rfl
  rw [BitVec.toNat_add, hone]
  omega

theorem ofNat_toNat_add_zero (w : Word) : BitVec.ofNat 16 (w.toNat + 0) = w := by simp

/-- A count further, before the last. -/
theorem ofNat_toNat_succ {w : Word} (h : w.toNat < 0xFFFF) (n : Nat) :
    BitVec.ofNat 16 ((w + 1).toNat + n) = BitVec.ofNat 16 (w.toNat + (n + 1)) := by
  rw [toNat_succ h, Nat.add_right_comm, Nat.add_assoc]

/-- Up to FFFFH counts add up (R332). -/
theorem count_iterate_of_le (n : Nat) : ∀ {s : State}, s.timer.ta.toNat + n ≤ 0xFFFF →
    count^[n] s = { s with timer := { s.timer with ta := BitVec.ofNat 16 (s.timer.ta.toNat + n) } } := by
  induction n with
  | zero => intro s _; rw [ofNat_toNat_add_zero]; rfl
  | succ n ih =>
    intro s h
    have hlt : s.timer.ta.toNat < 0xFFFF := by omega
    have hcount : count s = { s with timer := { s.timer with ta := s.timer.ta + 1 } } :=
      if_neg fun hmax => by simp [hmax] at hlt
    rw [Function.iterate_succ_apply, hcount, ih (by simp only [toNat_succ hlt]; omega)]
    simp only [ofNat_toNat_succ hlt]

theorem count_iterate_moved (n : Nat) : ∀ s : State, CounterMoved s (count^[n] s) := by
  induction n with
  | zero => exact CounterMoved.refl
  | succ n ih => exact fun s => (count_moved s).trans (ih _)

/-- Past FFFFH they set TF. -/
theorem counted_iterate (n : Nat) : ∀ s : State, Counted n s (count^[n] s) := by
  induction n with
  | zero => exact fun s => .zero rfl rfl
  | succ n ih =>
    exact fun s => (ih (count s)).succ (count_iterate_moved n (count s)).keeps.timerRequest

/-- Events that are counted or leave the counter alone, whatever has been counted before them. -/
theorem counterEvents_eq_iterate (counts : ClockEvent → Bool) (es : List ClockEvent) : ∀ {s : State},
    (∀ e ∈ es, ∀ s1, SameControl s s1 → counterEvent s1 e = if counts e then count s1 else s1) →
    counterEvents s es = count^[es.countP counts] s := by
  induction es with
  | nil => exact fun _ => rfl
  | cons e es ih =>
    intro s h
    have hrest : ∀ s1, SameControl s s1 → ∀ e' ∈ es, ∀ s2, SameControl s1 s2 →
        counterEvent s2 e' = if counts e' then count s2 else s2 :=
      fun s1 h1 e' he' s2 h2 => h e' (List.mem_cons_of_mem e he') s2 (h1.trans h2)
    rw [counterEvents, h e List.mem_cons_self s (.refl s), List.countP_cons]
    cases counts e with
    | false => exact ih (hrest s (.refl s))
    | true => exact ih (hrest _ (count_sameControl s))

/-! ## The modes -/

theorem isActiveEdge_iff (te : Bool) (p : PinEvent) : isActiveEdge te p = true ↔ p = if te then .rcinFall else .rcinRise := by
  cases te <;> cases p <;> decide

theorem isStartEdge_iff (te : Bool) (p : PinEvent) : isStartEdge te p = true ↔ p = if te then .rcinRise else .rcinFall := by
  cases te <;> cases p <;> decide

/-- In timer mode the clocks are counted. -/
theorem counterEvents_timer {s : State} (h : countMode s.tmrc s.adcr = .timer) (es : List ClockEvent) :
    counterEvents s es = count^[clocksIn es] s :=
  counterEvents_eq_iterate (· == .clk) es fun e _ s1 h1 => by
    unfold counterEvent
    rw [h1.tmrc, h1.adcr, h]
    cases e <;> rfl

/-- In event counter mode the edges on RCIN that TE selects. -/
theorem counterEvents_event {s : State} (h : countMode s.tmrc s.adcr = .event) (es : List ClockEvent) :
    counterEvents s es = count^[edgesIn s.tmrc.te es] s :=
  counterEvents_eq_iterate (· == .pin (if s.tmrc.te then .rcinFall else .rcinRise)) es fun e _ s1 h1 => by
    unfold counterEvent
    rw [h1.tmrc, h1.adcr, h]
    cases e with
    | clk => rfl
    | pin p => simp [isActiveEdge_iff]

/-- In a pulse-width measurement that runs, up to its stop edge, the clocks (R334). -/
theorem counterEvents_running {s : State} (h : countMode s.tmrc s.adcr = .pulse) (hrun : s.timer.pwRun = true)
    {es : List ClockEvent} (hstop : edgesIn s.tmrc.te es = 0) : counterEvents s es = count^[clocksIn es] s :=
  counterEvents_eq_iterate (· == .clk) es fun e he s1 h1 => by
    have hrun1 : s1.timer.pwRun = true := h1.run.trans hrun
    unfold counterEvent
    rw [h1.tmrc, h1.adcr, h]
    cases e with
    | clk => simp [hrun1]
    | pin p =>
      have hne : p ≠ if s.tmrc.te then .rcinFall else .rcinRise := by
        rintro rfl
        exact List.count_eq_zero.mp hstop he
      simp [isStopEdge, isActiveEdge_iff, hne, startPulse, hrun1]

/-- In one that does not run, up to its start edge, or that is not armed, nothing (R334). -/
theorem counterEvents_waiting {s : State} (h : countMode s.tmrc s.adcr = .pulse) (hrun : s.timer.pwRun = false)
    {es : List ClockEvent} (hstart : s.timer.pwArmed = false ∨ edgesIn (!s.tmrc.te) es = 0) : counterEvents s es = s := by
  rw [counterEvents_eq_iterate (fun _ => false) es, List.countP_false]
  · rfl
  intro e he s1 h1
  have hrun1 : s1.timer.pwRun = false := h1.run.trans hrun
  unfold counterEvent
  rw [h1.tmrc, h1.adcr, h]
  cases e with
  | clk => simp [hrun1]
  | pin p =>
    rcases hstart with harmed | hnone
    · simp [startPulse, stopPulse, hrun1, h1.armed.trans harmed]
    · have hne : p ≠ if s.tmrc.te then .rcinRise else .rcinFall := by
        rintro rfl
        refine List.count_eq_zero.mp hnone ?_
        cases hte : s.tmrc.te <;> simpa [hte] using he
      simp [isStartEdge_iff, hne, stopPulse, hrun1]

/-- The start edge. -/
theorem counterEvent_start {s : State} (h : countMode s.tmrc s.adcr = .pulse) :
    counterEvent s (.pin (if s.tmrc.te then .rcinRise else .rcinFall)) = startPulse s := by
  simp only [counterEvent, h, if_pos ((isStartEdge_iff _ _).mpr rfl)]

theorem startPulse_of_armed {s : State} (harmed : s.timer.pwArmed = true) (hrun : s.timer.pwRun = false) :
    startPulse s = { s with timer := { s.timer with pwRun := true } } := if_pos (by simp [harmed, hrun])

/-- The stop edge. -/
theorem counterEvent_stop {s : State} (h : countMode s.tmrc s.adcr = .pulse) :
    counterEvent s (.pin (if s.tmrc.te then .rcinFall else .rcinRise)) = stopPulse s := by
  have hstart : ¬isStartEdge s.tmrc.te (if s.tmrc.te then .rcinFall else .rcinRise) = true := by
    cases s.tmrc.te <;> decide
  have hstop : isStopEdge s.tmrc.te (if s.tmrc.te then .rcinFall else .rcinRise) = true := (isActiveEdge_iff _ _).mpr rfl
  simp only [counterEvent, h, if_neg hstart, if_pos hstop]

theorem stopPulse_of_running {s : State} (hrun : s.timer.pwRun = true) : stopPulse s = { s with
    timer := { s.timer with pwRun := false, pwArmed := false }, tmrc := { s.tmrc with ton := false } } := if_pos hrun

/-- An armed measurement counts from its start edge on. -/
theorem counterEvents_from_start {s : State} {wait pulse : List ClockEvent} (rest : List ClockEvent)
    (h : countMode s.tmrc s.adcr = .pulse) (harmed : s.timer.pwArmed = true) (hrun : s.timer.pwRun = false)
    (hwait : edgesIn (!s.tmrc.te) wait = 0) (hpulse : edgesIn s.tmrc.te pulse = 0) :
    counterEvents s (wait ++ .pin (if s.tmrc.te then .rcinRise else .rcinFall) :: (pulse ++ rest)) =
      counterEvents (count^[clocksIn pulse] (startPulse s)) rest := by
  rw [counterEvents_append, counterEvents_waiting h hrun (.inr hwait), counterEvents, counterEvent_start h,
    counterEvents_append, startPulse_of_armed harmed hrun]
  exact congrArg (counterEvents · rest) (counterEvents_running (s := { s with timer := { s.timer with pwRun := true } })
    h rfl hpulse)

/-- After the start edge and any counts the measurement runs, in the mode and with the edges it had. -/
theorem count_startPulse_control {s : State} (n : Nat) (harmed : s.timer.pwArmed = true) (hrun : s.timer.pwRun = false) :
    SameControl { s with timer := { s.timer with pwRun := true } } (count^[n] (startPulse s)) := by
  rw [startPulse_of_armed harmed hrun]
  exact count_iterate_sameControl n _

/-- The stop edge ends a measurement that runs, and turns the counter off. -/
theorem counterEvents_from_stop {s s1 : State} (after : List ClockEvent) (hc : SameControl s s1)
    (h : countMode s.tmrc s.adcr = .pulse) (hrun : s.timer.pwRun = true) :
    counterEvents s1 (.pin (if s.tmrc.te then .rcinFall else .rcinRise) :: after) = stopPulse s1 := by
  have hmode : countMode s1.tmrc s1.adcr = .pulse := by rw [hc.tmrc, hc.adcr, h]
  rw [counterEvents, ← hc.tmrc, counterEvent_stop hmode, stopPulse_of_running (hc.run.trans hrun)]
  exact counterEvents_off after _ rfl

/-! ## Counting -/

/-- What the counter counts in each of the three modes, with one event to be counted after it. -/
theorem counterEvents_counted {s : State} {es : List ClockEvent} {e : ClockEvent} {n : Nat}
    (h : (countMode s.tmrc s.adcr = .timer ∧ n = clocksIn es ∧ e = .clk) ∨
      (countMode s.tmrc s.adcr = .event ∧ n = edgesIn s.tmrc.te es ∧
        e = .pin (if s.tmrc.te then .rcinFall else .rcinRise)) ∨
      (countMode s.tmrc s.adcr = .pulse ∧ s.timer.pwRun = true ∧ es = List.replicate n .clk ∧ e = .clk)) :
    counterEvents s es = count^[n] s ∧ counterEvents s (es ++ [e]) = count^[n + 1] s := by
  rcases h with ⟨hmode, rfl, rfl⟩ | ⟨hmode, rfl, rfl⟩ | ⟨hmode, hrun, rfl, rfl⟩
  · have hsucc : clocksIn (es ++ [.clk]) = clocksIn es + 1 := by simp [clocksIn]
    exact ⟨counterEvents_timer hmode es, hsucc ▸ counterEvents_timer hmode _⟩
  · have hsucc : edgesIn s.tmrc.te (es ++ [.pin (if s.tmrc.te then .rcinFall else .rcinRise)]) = edgesIn s.tmrc.te es + 1 := by
      simp [edgesIn]
    exact ⟨counterEvents_event hmode es, hsucc ▸ counterEvents_event hmode _⟩
  · have hclocks : ∀ k, counterEvents s (List.replicate k .clk) = count^[k] s := fun k => by
      have hstop : edgesIn s.tmrc.te (List.replicate k .clk) = 0 := List.count_eq_zero.mpr (by simp)
      rw [counterEvents_running hmode hrun hstop]
      simp [clocksIn]
    exact ⟨hclocks n, List.replicate_succ' ▸ hclocks (n + 1)⟩

/-- Settles O55: the counts add up to FFFFH, and the one after that overflows. -/
theorem counterCountsAndOverflows : Obligations.CounterCountsAndOverflows := by
  intro s es e n h
  obtain ⟨hcounts, hone⟩ := counterEvents_counted h
  refine ⟨fun hle => hcounts.trans (count_iterate_of_le n hle), fun hmax => ?_⟩
  rw [hone, Function.iterate_succ_apply', count_iterate_of_le n (by omega), hmax, count_of_max rfl]

/-! ## Pulse-width measurement -/

/-- Settles O56: nothing, the start edge, the clocks of the pulse, and the stop edge. -/
theorem pulseWidthMeasurement : Obligations.PulseWidthMeasurement := by
  rintro s idle n _ _ hmode harmed hrun hle rfl rfl
  have noEdge (falling : Bool) (k : Nat) : edgesIn falling (List.replicate k .clk) = 0 :=
    List.count_eq_zero.mpr (by simp)
  have hclocks : clocksIn (List.replicate n .clk) = n := by simp [clocksIn]
  have hcounted : count^[n] (startPulse s) = { s with
      timer := { s.timer with ta := BitVec.ofNat 16 (s.timer.ta.toNat + n), pwRun := true } } := by
    rw [startPulse_of_armed harmed hrun]
    exact count_iterate_of_le n hle
  rw [List.append_assoc, List.cons_append, counterEvents_from_start _ hmode harmed hrun (noEdge _ _) (noEdge _ _), hclocks]
  exact (counterEvents_from_stop [] (count_startPulse_control n harmed hrun) hmode rfl).trans (by rw [hcounted]; rfl)

end Sys2Proof.Machine
end

