-- ==== Sys2Proof/Proofs/Conversion.lean ====
section
/-! The A/D converter (O57): timer A counts the one event that its mode selects and timer B the cycles of the RC oscillation, until
one of the two overflows. -/

namespace Sys2Proof.Machine

open Sys2Proof Sys2Proof.Config

/-! ## The events of a conversion -/

/-- The event that clocks timer A in the two modes of the A/D converter (R335). -/
def ClocksTimerA (s : State) (a : ClockEvent) : Prop :=
  countMode s.tmrc s.adcr = .adcSys ∧ a = .clk ∨
    countMode s.tmrc s.adcr = .adcExt ∧ a = .pin (if s.tmrc.te then .rcinFall else .rcinRise)

/-- Each event clocks timer A, timer B or nothing. -/
theorem converterEvent_eq {s : State} {a : ClockEvent} (h : ClocksTimerA s a) (e : ClockEvent) :
    converterEvent s e = if e = a then clockA s else if e = .pin .rcCycle then clockB s else .ok s := by
  unfold converterEvent
  rcases h with ⟨hmode, rfl⟩ | ⟨hmode, rfl⟩ <;> rw [hmode]
  · cases e with
    | clk => rfl
    | pin p => cases p <;> rfl
  · cases e with
    | clk => rfl
    | pin p => cases hte : s.tmrc.te <;> cases p <;> rfl

/-- The cycle of the RC oscillation never clocks timer A. -/
theorem ClocksTimerA.ne_rcCycle {s : State} {a : ClockEvent} (h : ClocksTimerA s a) : ClockEvent.pin .rcCycle ≠ a := by
  rcases h with ⟨_, rfl⟩ | ⟨_, rfl⟩
  · simp
  · cases s.tmrc.te <;> simp

theorem clockA_of_lt {s : State} (h : s.timer.ta.toNat < 0xFFFF) :
    clockA s = .ok { s with timer := { s.timer with ta := s.timer.ta + 1 } } :=
  if_neg fun hmax => by simp [hmax] at h

theorem clockB_of_lt {s : State} (h : s.timer.tb.toNat < 0xFFFF) :
    clockB s = .ok { s with timer := { s.timer with tb := s.timer.tb + 1 } } :=
  if_neg fun hmax => by simp [hmax] at h

theorem converterEvents_cons_ok {s s1 : State} {e : ClockEvent} (h : converterEvent s e = .ok s1) (es : List ClockEvent) :
    converterEvents s (e :: es) = converterEvents s1 es := by simp only [converterEvents, h]

theorem converterEvents_cons_error {s : State} {r : Refusal} {e : ClockEvent} (h : converterEvent s e = .error r)
    (es : List ClockEvent) : converterEvents s (e :: es) = .error r := by simp only [converterEvents, h]

theorem converterEvents_append {es : List ClockEvent} (fs : List ClockEvent) : ∀ {s s1 : State},
    converterEvents s es = .ok s1 → converterEvents s (es ++ fs) = converterEvents s1 fs := by
  induction es with
  | nil => intro s s1 h; cases h; rfl
  | cons e es ih =>
    intro s s1 h
    cases he : converterEvent s e with
    | error r => rw [converterEvents_cons_error he] at h; cases h
    | ok s2 =>
      rw [converterEvents_cons_ok he] at h
      rw [List.cons_append, converterEvents_cons_ok he, ih h]

/-- Nothing counts once the conversion has ended. -/
theorem converterEvents_off (es : List ClockEvent) {s : State} (h : s.tmrc.ton = false) : converterEvents s es = .ok s := by
  induction es with
  | nil => rfl
  | cons e es ih =>
    have he : converterEvent s e = .ok s := by simp [converterEvent, countMode, h]
    rw [converterEvents_cons_ok he, ih]

/-- Up to FFFFH the two counters count side by side. -/
theorem converterEvents_of_le {a : ClockEvent} (es : List ClockEvent) : ∀ {s : State}, ClocksTimerA s a →
    s.timer.ta.toNat + es.count a ≤ 0xFFFF → s.timer.tb.toNat + rcCyclesIn es ≤ 0xFFFF →
    converterEvents s es = .ok { s with timer := { s.timer with
      ta := BitVec.ofNat 16 (s.timer.ta.toNat + es.count a),
      tb := BitVec.ofNat 16 (s.timer.tb.toNat + rcCyclesIn es) } } := by
  unfold rcCyclesIn
  induction es with
  | nil => intro s _ _ _; simp only [List.count_nil, ofNat_toNat_add_zero]; rfl
  | cons e es ih =>
    intro s hclocks hta htb
    have hevent := converterEvent_eq hclocks e
    by_cases ha : e = a
    · subst ha
      have hb := hclocks.ne_rcCycle
      rw [List.count_cons_self] at hta
      rw [List.count_cons_of_ne hb.symm] at htb
      have hlt : s.timer.ta.toNat < 0xFFFF := by omega
      rw [if_pos rfl, clockA_of_lt hlt] at hevent
      rw [converterEvents_cons_ok hevent, ih ?clocks ?timerA ?timerB, List.count_cons_self, List.count_cons_of_ne hb.symm]
      · simp only [ofNat_toNat_succ hlt]
      case clocks => exact hclocks
      case timerA => simp only [toNat_succ hlt]; omega
      case timerB => exact htb
    · rw [List.count_cons_of_ne ha] at hta ⊢
      rw [if_neg ha] at hevent
      by_cases hb : e = .pin .rcCycle
      · subst hb
        rw [List.count_cons_self] at htb ⊢
        have hlt : s.timer.tb.toNat < 0xFFFF := by omega
        rw [if_pos rfl, clockB_of_lt hlt] at hevent
        rw [converterEvents_cons_ok hevent, ih ?clocks ?timerA ?timerB]
        · simp only [ofNat_toNat_succ hlt]
        case clocks => exact hclocks
        case timerA => exact hta
        case timerB => simp only [toNat_succ hlt]; omega
      · rw [if_neg hb] at hevent
        rw [List.count_cons_of_ne hb] at htb ⊢
        rw [converterEvents_cons_ok hevent, ih hclocks hta htb]

/-! ## The overflow -/

/-- The event that makes the selected counter overflow ends the conversion, whatever comes after it. -/
theorem converterEvents_end {s s1 : State} {e : ClockEvent} (h : converterEvent s e = .ok (endConversion s1))
    (after : List ClockEvent) : converterEvents s (e :: after) = .ok (endConversion s1) := by
  rw [converterEvents_cons_ok h, converterEvents_off after rfl]

theorem clockA_of_max {s : State} (h : s.timer.ta = 0xFFFF) : clockA s = if s.adcr.ovb then .error .unselectedOverflow
    else .ok (endConversion { s with timer := { s.timer with ta := 0x0000 } }) := if_pos h

theorem clockB_of_max {s : State} (h : s.timer.tb = 0xFFFF) : clockB s = if s.adcr.ovb then
    .ok (endConversion { s with timer := { s.timer with tb := 0x0000 } }) else .error .unselectedOverflow := if_pos h

/-- Settles O57: both counters count up to the event, which makes one of them overflow. -/
theorem conversionEndsAtTheSelectedOverflow : Obligations.ConversionEndsAtTheSelectedOverflow := by
  intro s es after n e h
  have hclocks : ClocksTimerA s e := h.imp (fun ⟨hmode, _, he⟩ => ⟨hmode, he⟩) (fun ⟨hmode, _, he⟩ => ⟨hmode, he⟩)
  have hn : n = es.count e := by rcases h with ⟨_, rfl, rfl⟩ | ⟨_, rfl, rfl⟩ <;> rfl
  subst hn
  refine ⟨fun hta htb => ?_, fun htb hta => ?_⟩
  · rw [converterEvents_append _ (converterEvents_of_le es hclocks (by omega) htb), hta]
    have hevent := (converterEvent_eq (s := { s with timer := { s.timer with
      ta := 0xFFFF, tb := BitVec.ofNat 16 (s.timer.tb.toNat + rcCyclesIn es) } }) hclocks e).trans
      ((if_pos rfl).trans (clockA_of_max rfl))
    cases hovb : s.adcr.ovb with
    | true => exact converterEvents_cons_error (hevent.trans (if_pos hovb)) after
    | false => exact converterEvents_end (hevent.trans (if_neg (by simp [hovb]))) after
  · rw [converterEvents_append _ (converterEvents_of_le es hclocks hta (by omega)), htb]
    have hevent := (converterEvent_eq (s := { s with timer := { s.timer with
      ta := BitVec.ofNat 16 (s.timer.ta.toNat + es.count e), tb := 0xFFFF } }) hclocks (.pin .rcCycle)).trans
      ((if_neg hclocks.ne_rcCycle).trans ((if_pos rfl).trans (clockB_of_max rfl)))
    cases hovb : s.adcr.ovb with
    | true => exact converterEvents_end (hevent.trans (if_pos hovb)) after
    | false => exact converterEvents_cons_error (hevent.trans (if_neg (by simp [hovb]))) after

end Sys2Proof.Machine
end

