-- ==== Sys2Proof/Proofs/CounterStep.lean ====
section
/-! The counter in a whole step (O54). What it sees is a period of its own, of the clocks and events that happen or of those that are
drawn, in the mode it runs in; the other devices leave it alone. -/

namespace Sys2Proof.Machine

open Sys2Proof Sys2Proof.Config

/-! ## The instruction that reads a running counter -/

theorem targetsTmrah_iff (m : DAddr) (s : State) : targetsTmrah m s = true ↔ resolve s m = .ok (.bank0 0x20) := by
  unfold targetsTmrah
  cases resolve s m <;> simp

theorem readsRunningCounter_movAm (m : DAddr) (s : State) :
    readsRunningCounter (.movAm m) s = (s.tmrc.ton && !s.adcr.adc && targetsTmrah m s) := rfl

theorem readsRunningCounter_of_not_movAm {i : Instr} (h : ∀ m, i ≠ .movAm m) (s : State) :
    readsRunningCounter i s = false := by
  cases i
  case movAm m => exact absurd rfl (h m)
  all_goals rfl

/-- MOV A,[m] alone can read TMRAH (R337). -/
theorem readsRunningCounter_iff (i : Instr) (s : State) : readsRunningCounter i s = true ↔
    s.tmrc.ton = true ∧ s.adcr.adc = false ∧ ∃ m, i = .movAm m ∧ resolve s m = .ok (.bank0 0x20) := by
  by_cases hi : ∃ m, i = .movAm m
  · obtain ⟨m, rfl⟩ := hi
    simp [readsRunningCounter_movAm, targetsTmrah_iff, and_assoc]
  · have hne : ∀ m, i ≠ .movAm m := fun m h => hi ⟨m, h⟩
    simp [readsRunningCounter_of_not_movAm hne, hne]

/-! ## What the counter sees -/

/-- Of a period of `clocks` clocks that ends with the sample `e`, the counter sees `k` clocks and the events `pins`: all, or where
they are drawn (`free`) the environment's choice (R319, R337). -/
structure Seen (free : Prop) (clocks : Nat) (e : EnvSample) (k : Nat) (pins : List (List PinEvent)) : Prop where
  le : k ≤ clocks
  all : ¬free → k = clocks
  drawn : free → e.seen ≤ clocks → k = e.seen
  sublist : pins.flatten.Sublist e.pins.flatten
  pins : ¬free ∨ e.missed = [] → pins = e.pins

theorem Seen.ofPeriod {free : Prop} {clocks k : Nat} {e : EnvSample} {pins : List (List PinEvent)}
    (hfree : free → k = drawnClocks clocks e ∧ pins = seenPins e.missed e.pins)
    (hall : ¬free → k = clocks ∧ pins = e.pins) : Seen free clocks e k pins := by
  by_cases hf : free
  · obtain ⟨rfl, rfl⟩ := hfree hf
    exact ⟨drawnClocks_le _ _, fun h => absurd hf h, fun _ => drawnClocks_seen, seenPins_sublist _ _,
      fun h => by rw [h.resolve_left (fun hn => hn hf), seenPins_nil]⟩
  · obtain ⟨rfl, rfl⟩ := hall hf
    exact ⟨Nat.le_refl _, fun _ => rfl, fun h => absurd h hf, .refl _, fun _ => rfl⟩

/-- Of one kind of event the counter sees at most those that arrive. -/
theorem Seen.count_le {free : Prop} {clocks k : Nat} {e : EnvSample} {pins : List (List PinEvent)}
    (h : Seen free clocks e k pins) (p : PinEvent) : (clockEvents k pins).count (.pin p) ≤ e.pins.flatten.count p := by
  rw [clockEvents_pins]
  exact h.sublist.count_le p

theorem Seen.count_eq {free : Prop} {clocks k : Nat} {e : EnvSample} {pins : List (List PinEvent)}
    (h : Seen free clocks e k pins) (hall : ¬free ∨ e.missed = []) (p : PinEvent) :
    (clockEvents k pins).count (.pin p) = e.pins.flatten.count p := by
  rw [clockEvents_pins, h.pins hall]

/-! ## The counter's part of a step -/

/-- A step in which the counter is on before or after it: the counter runs in the mode `on` and sees what there is to see, and TON is
off after a step that turned it off. -/
theorem period_runs {before s1 s' : State} {clocks cyc : Nat} {drawn : Bool} {e : EnvSample} {on : Tmrc}
    (he : e = nextSample s1) (hon : on = if s1.tmrc.ton then s1.tmrc else before.tmrc) (hton : on.ton = true)
    (hp : period before clocks cyc drawn s1 = .next s') (hno : NoReset clocks e s1) :
    ∃ k pins r s4, Seen (before.tmrc.ton ≠ s1.tmrc.ton ∨ drawn = true) clocks e k pins ∧
      (r.tmrc = on ∧ r.adcr = s1.adcr ∧ r.timer = s1.timer ∧ r.intc = s1.intc) ∧ runCounter k pins r = .ok s4 ∧
      s'.timer = s4.timer ∧ s'.intc.tf = s4.intc.tf ∧ s'.tmrc.ton = (s1.tmrc.ton && s4.tmrc.ton) := by
  subst he
  obtain ⟨s3, h3, hend⟩ := period_end hp hno
  rcases timerPeriod_cases h3 with ⟨hb, hs, _⟩ | ⟨k, pins, s4, hfree, hall, hrun, hs3⟩
  · rw [dropSample_tmrc] at hs
    simp [hon, hs, hb] at hton
  · rw [dropSample_tmrc] at hfree hall hrun hs3
    rw [← hon] at hrun
    refine ⟨k, pins, { dropSample s1 with tmrc := on }, s4, .ofPeriod hfree hall, ⟨rfl, rfl, rfl, rfl⟩, hrun, ?_⟩
    rw [hend.timer, hend.request, hend.tmrc, hs3]
    cases hs : s1.tmrc.ton with
    | true => exact ⟨rfl, rfl, rfl⟩
    | false => exact ⟨rfl, rfl, hs⟩

/-! ## What it counts -/

/-- What has been counted shows in timer A and TF alone. -/
theorem Counted.congr {k : Nat} {s s1 s2 s3 : State} (h : Counted k s s2) (hta : s.timer.ta = s1.timer.ta)
    (htf : s.intc.tf = s1.intc.tf) (hta' : s3.timer.ta = s2.timer.ta) (htf' : s3.intc.tf = s2.intc.tf) :
    Counted k s1 s3 := by
  unfold Counted at h ⊢
  rwa [hta', htf', ← hta, ← htf]

theorem Converted.congr {k j : Nat} {s s1 s2 s3 : State} (h : Converted k j s s2) (htimer : s.timer = s1.timer)
    (htf : s.intc.tf = s1.intc.tf) (htimer' : s3.timer = s2.timer) (htf' : s3.intc.tf = s2.intc.tf) :
    Converted k j s1 s3 := by
  unfold Converted at h ⊢
  rwa [htimer', htf', ← htimer, ← htf]

/-- A conversion without an overflow (R335). -/
theorem converted_converterEvents {a : ClockEvent} {es : List ClockEvent} {s s' : State} (h : ClocksTimerA s a)
    (hrun : converterEvents s es = .ok s') : Converted (es.count a) (rcCyclesIn es) s s' := by
  intro hta htb
  rw [converterEvents_of_le es h hta htb] at hrun
  cases hrun
  exact ⟨rfl, rfl, rfl⟩

/-- Counts of a measurement that goes on. -/
theorem Measured.ofCounts (n : Nat) {s s1 : State} {armed run : Bool} (hta : s1.timer.ta = s.timer.ta)
    (htf : s1.intc.tf = s.intc.tf) (hton : s1.tmrc.ton = s.tmrc.ton) (harmed : s1.timer.pwArmed = armed)
    (hrun : s1.timer.pwRun = run) : Measured n armed run false s (count^[n] s1) where
  counted := (counted_iterate n s1).congr hta htf rfl rfl
  marks := ⟨(count_iterate_sameControl n s1).armed.trans harmed, (count_iterate_sameControl n s1).run.trans hrun⟩
  ton := by simp [(count_iterate_sameControl n s1).tmrc, hton]

/-- Counts of a measurement that the stop edge ends. -/
theorem Measured.ofStop (n : Nat) {s s1 : State} (hta : s1.timer.ta = s.timer.ta) (htf : s1.intc.tf = s.intc.tf)
    (hrun : s1.timer.pwRun = true) : Measured n false false true s (stopPulse (count^[n] s1)) := by
  rw [stopPulse_of_running ((count_iterate_sameControl n s1).run.trans hrun)]
  exact ⟨(counted_iterate n s1).congr hta htf rfl rfl, ⟨rfl, rfl⟩, by simp⟩

/-- Every way in which a pulse-width measurement can go. -/
theorem pulseSeen_counterEvents {s : State} (h : countMode s.tmrc s.adcr = .pulse) (es : List ClockEvent) :
    PulseSeen s.tmrc.te es s (counterEvents s es) where
  unarmed harmed hrun := by
    rw [counterEvents_waiting h hrun (.inl harmed)]
    exact Measured.ofCounts 0 rfl rfl rfl harmed hrun
  waits harmed hrun hnone := by
    rw [counterEvents_waiting h hrun (.inr hnone)]
    exact Measured.ofCounts 0 rfl rfl rfl harmed hrun
  starts wait pulse harmed hrun hes hwait hpulse := by
    rw [hes, ← List.append_nil pulse, counterEvents_from_start [] h harmed hrun hwait hpulse, List.append_nil,
      startPulse_of_armed harmed hrun]
    exact Measured.ofCounts _ rfl rfl rfl harmed rfl
  whole wait pulse after harmed hrun hes hwait hpulse := by
    rw [hes, counterEvents_from_start _ h harmed hrun hwait hpulse]
    have hstop := counterEvents_from_stop after (count_startPulse_control (clocksIn pulse) harmed hrun) h rfl
    rw [startPulse_of_armed harmed hrun] at hstop ⊢
    exact hstop ▸ Measured.ofStop _ rfl rfl rfl
  runs hrun hpulse := by
    rw [counterEvents_running h hrun hpulse]
    exact Measured.ofCounts _ rfl rfl rfl rfl hrun
  stops pulse after hrun hes hpulse := by
    rw [hes, counterEvents_append, counterEvents_running h hrun hpulse,
      counterEvents_from_stop after (count_iterate_sameControl _ s) h hrun]
    exact Measured.ofStop _ rfl rfl hrun

/-- Where the counter runs with TON = 1 and TON is as given after the step, a measurement that it sees is one of the step. -/
theorem Measured.ofRun {k : Nat} {armed run ended : Bool} {s s1 s2 s3 : State} (h : Measured k armed run ended s s2)
    (htimer : s.timer = s1.timer) (htf : s.intc.tf = s1.intc.tf) (hton : s.tmrc.ton = true)
    (htimer' : s3.timer = s2.timer) (htf' : s3.intc.tf = s2.intc.tf) (hton' : s3.tmrc.ton = (s1.tmrc.ton && s2.tmrc.ton)) :
    Measured k armed run ended s1 s3 where
  counted := h.counted.congr (by rw [htimer]) htf (by rw [htimer']) htf'
  marks := by rw [htimer']; exact h.marks
  ton := by rw [hton', h.ton, hton, Bool.true_and]

theorem PulseSeen.ofRun {te : Bool} {es : List ClockEvent} {s s1 s2 s3 : State} (h : PulseSeen te es s s2)
    (htimer : s.timer = s1.timer) (htf : s.intc.tf = s1.intc.tf) (hton : s.tmrc.ton = true)
    (htimer' : s3.timer = s2.timer) (htf' : s3.intc.tf = s2.intc.tf) (hton' : s3.tmrc.ton = (s1.tmrc.ton && s2.tmrc.ton)) :
    PulseSeen te es s1 s3 := by
  have measured {k : Nat} {armed run ended : Bool} (h : Measured k armed run ended s s2) :
      Measured k armed run ended s1 s3 := h.ofRun htimer htf hton htimer' htf' hton'
  obtain ⟨unarmed, waits, starts, whole, runs, stops⟩ := h
  rw [htimer] at unarmed waits starts whole runs stops
  exact ⟨fun h1 h2 => measured (unarmed h1 h2), fun h1 h2 h3 => measured (waits h1 h2 h3),
    fun w p h1 h2 h3 h4 h5 => measured (starts w p h1 h2 h3 h4 h5),
    fun w p a h1 h2 h3 h4 h5 => measured (whole w p a h1 h2 h3 h4 h5), fun h1 h2 => measured (runs h1 h2),
    fun p a h1 h2 h3 => measured (stops p a h1 h2 h3)⟩

/-- The mode of a counter that is on. -/
theorem countMode_on {t : Tmrc} (h : t.ton = true) (a : Adcr) : countMode t a = selectedMode a.adc t.tm1 t.tm0 := if_pos h

/-- Settles O54: the counter runs in one of five modes, on what it sees. -/
theorem counterInAStep : Obligations.CounterInAStep := by
  refine ⟨readsRunningCounter_iff, ?_⟩
  intro before s1 s' clocks cyc drawn e on free he hon hfree hp hno
  refine ⟨fun hb hs => ?_, fun hton => ?_⟩
  · obtain ⟨s3, h3, hend⟩ := period_end hp (he ▸ hno)
    cases (timerPeriod_off (s := dropSample s1) hb hs).symm.trans h3
    exact ⟨congrArg Timer.ta hend.timer, congrArg Timer.tb hend.timer, hend.request⟩
  obtain ⟨k, pins, r, s4, hseen, ⟨rfl, hadcr, hr, hintc⟩, hrun, htimer, htf, hton'⟩ := period_runs he hon hton hp hno
  rw [← hfree] at hseen
  have hmode := countMode_on hton r.adcr
  have counted {n : Nat} (h : s4 = count^[n] r) : Counted n s1 s' :=
    (h ▸ counted_iterate n r).congr (by rw [hr]) (by rw [hintc]) (by rw [htimer]) htf
  have converted {n j : Nat} (h : Converted n j r s4) : Converted n j s1 s' := h.congr hr (by rw [hintc]) htimer htf
  refine ⟨fun hadc h1 h0 => ?_, fun hadc h1 h0 => ?_, fun hadc h1 h0 => ?_, fun hadc h1 h0 => ?_, fun hadc h1 h0 => ?_⟩ <;>
    rw [hadcr, hadc, h1, h0, ← hadcr] at hmode
  · rw [runCounter_counts (.inl hmode), counterEvents_timer hmode, clockEvents_clocks] at hrun
    cases hrun
    exact ⟨k, hseen.le, hseen.all, hseen.drawn, counted rfl⟩
  · rw [runCounter_counts (.inr (.inl hmode)), counterEvents_event hmode] at hrun
    cases hrun
    exact ⟨_, hseen.count_le _, fun hall => hseen.count_eq hall _, counted rfl⟩
  · rw [runCounter_counts (.inr (.inr hmode))] at hrun
    cases hrun
    exact ⟨k, hseen.le, pins, hseen.all, hseen.drawn, hseen.sublist, hseen.pins,
      (pulseSeen_counterEvents hmode _).ofRun hr (by rw [hintc]) hton htimer htf hton'⟩
  · rw [runCounter_converts (.inl hmode)] at hrun
    have hconv := converted_converterEvents (.inl ⟨hmode, rfl⟩) hrun
    rw [show (clockEvents k pins).count .clk = k from clockEvents_clocks k pins] at hconv
    exact ⟨k, hseen.le, _, hseen.count_le _, hseen.all, hseen.drawn, fun hall => hseen.count_eq hall _,
      converted hconv⟩
  · rw [runCounter_converts (.inr hmode)] at hrun
    exact ⟨_, hseen.count_le _, _, hseen.count_le _, fun hall => ⟨hseen.count_eq hall _, hseen.count_eq hall _⟩,
      converted (converted_converterEvents (.inr ⟨hmode, rfl⟩) hrun)⟩

end Sys2Proof.Machine
end

