-- ==== Sys2Proof/Proofs/PortPads.lean ====
section
/-! What the pads of port A carry (O35). -/

namespace Sys2Proof.Machine

open Sys2Proof Sys2Proof.Config

theorem padFunction_of_input {s : State} {k : Nat} (h : s.port.pac.getLsbD k = true) :
    padFunction s k = .input s.par.mask.paPullHigh := by simp [padFunction, h]

theorem padFunction_of_output {s : State} {k : Nat} (h : s.port.pac.getLsbD k = false) :
    padFunction s k = outputPad s.par.mask s.port.latch k := by simp [padFunction, h]

theorem outputPad_buzzer {mask : MaskOptions} (h : mask.pa01Bz = true) (latch : Byte) :
    outputPad mask latch 0 = buzzerPad0 latch ∧ outputPad mask latch 1 = buzzerPad1 latch := by
  simp [outputPad, h]

theorem outputPad_carrier {mask : MaskOptions} (h : mask.pa2El = true) (latch : Byte) :
    outputPad mask latch 2 = carrierPad2 latch := by simp [outputPad, h]

/-- A line that no mask option takes drives its latch. -/
theorem outputPad_plain {mask : MaskOptions} {k : Nat} (hbz : k < 2 → mask.pa01Bz = false)
    (hel : k = 2 → mask.pa2El = false) (latch : Byte) : outputPad mask latch k = .level (latch.getLsbD k) := by
  have h0 : ¬((mask.pa01Bz : Prop) ∧ k = 0) := fun ⟨hon, hk⟩ => by simp [hbz (by omega)] at hon
  have h1 : ¬((mask.pa01Bz : Prop) ∧ k = 1) := fun ⟨hon, hk⟩ => by simp [hbz (by omega)] at hon
  have h2 : ¬((mask.pa2El : Prop) ∧ k = 2) := fun ⟨hon, hk⟩ => by simp [hel hk] at hon
  rw [outputPad, if_neg h0, if_neg h1, if_neg h2]

/-- The third row of the buzzer table, for PA1 (R342). -/
theorem buzzerPad1_eq (latch : Byte) : buzzerPad1 latch =
    if latch.getLsbD 0 = false ∧ latch.getLsbD 1 = false then .buzzerBar else .level false := by
  unfold buzzerPad1
  cases latch.getLsbD 0 <;> cases latch.getLsbD 1 <;> rfl

/-- Settles O35, line by line. -/
theorem padFunctions : Obligations.PadFunctions := by
  intro s k
  refine ⟨padFunction_of_input, fun hout => ?_, rfl⟩
  rw [padFunction_of_output hout]
  refine ⟨?_, ?_, ?_, fun hbz hel => outputPad_plain hbz (fun hk => hel (Fin.ext hk)) _, fun a => ?_⟩
  · rintro rfl hbz
    exact (outputPad_buzzer hbz _).1
  · rintro rfl hbz
    exact (outputPad_buzzer hbz _).2.trans (buzzerPad1_eq _)
  · rintro rfl hel
    exact outputPad_carrier hel _
  · exact ⟨_, rfl, (portRead_bit s.port k).trans (by rw [hout]; rfl)⟩

end Sys2Proof.Machine
end

