-- ==== Sys2Proof/Proofs/Timing.lean ====
section
/-! The cycle table (O37). The line of the table that an instruction stands in says which of the classes of the statement it is in, and
a skip is taken where the PC is two addresses further. -/

namespace Sys2Proof.Machine

open Sys2Proof

/-! ## The lines of the table -/

theorem targetsPcl_iff (m : DAddr) (s : State) : targetsPcl m s = true ↔ resolve s m = .ok (.bank0 0x06) := by
  unfold targetsPcl
  cases resolve s m <;> simp [isPcl_iff]

theorem cycles_of_storing {i : Instr} {m : DAddr} (h : timingClass i = .storing m) (s s1 : State) :
    (resolve s m = .ok (.bank0 0x06) → cycles i s s1 = 2) ∧ (resolve s m ≠ .ok (.bank0 0x06) → cycles i s s1 = 1) := by
  simp only [cycles, h, targetsPcl_iff]
  exact ⟨fun hpcl => if_pos hpcl, fun hpcl => if_neg hpcl⟩

theorem cycles_of_table {i : Instr} {m : DAddr} (h : timingClass i = .table m) (s s1 : State) :
    (resolve s m = .ok (.bank0 0x06) → cycles i s s1 = 3) ∧ (resolve s m ≠ .ok (.bank0 0x06) → cycles i s s1 = 2) := by
  simp only [cycles, h, targetsPcl_iff]
  exact ⟨fun hpcl => if_pos hpcl, fun hpcl => if_neg hpcl⟩

theorem cycles_of_two {i : Instr} (h : timingClass i = .two) (s s1 : State) : cycles i s s1 = 2 := by
  simp only [cycles, h]

/-- The PC is two addresses further exactly under the condition, and else one. -/
def SkipsIf (p : Prop) (s s1 : State) : Prop := (p → s1.pc = s.pc + 2) ∧ (¬p → s1.pc = s.pc + 1)

theorem skipsIf_of_skipAddress {p : Prop} {c : Bool} {s s1 : State} (h : s1.pc = skipAddress s c) (hc : c = true ↔ p) :
    SkipsIf p s s1 := by
  rw [SkipsIf, ← hc, h]
  cases c <;> simp [skipAddress]

theorem cycles_of_skipping {i : Instr} {p : Prop} {s s1 : State} (h : timingClass i = .skipping) (hskip : SkipsIf p s s1) :
    (p → cycles i s s1 = 2) ∧ (¬p → cycles i s s1 = 1) := by
  have hne : s.pc + 1 ≠ s.pc + 2 := by bv_omega
  simp only [cycles, h]
  exact ⟨fun hp => if_pos (hskip.1 hp), fun hp => if_neg (hskip.2 hp ▸ hne)⟩

/-! ## The skips -/

/-- SIZ and SDZ, where they answer a next state, skip on the operand values that make the result 00H. -/
theorem memAndSkip_skips {m : DAddr} {f : Byte → Byte} {s s1 : State} {t : Target} {v : Byte} {p : Prop} [Decidable p]
    (h : Operand .other m s t v) (hz : f v = 0 ↔ p) (hnext : memAndSkip m f s = .next s1) : SkipsIf p s s1 := by
  by_cases ht : t = .bank0 0x06
  · subst ht
    rw [memAndSkip_pcl h.1] at hnext
    cases hnext
  · obtain ⟨t', ht', h1⟩ := withTarget_next hnext
    cases h.1.symm.trans ht'
    split at h1
    · cases h1
    · obtain ⟨v', s2, hread, h2⟩ := withRead_next h1
      obtain ⟨d, hd⟩ := operand_read m s t v h
      cases hd.symm.trans hread
      obtain ⟨s3, hwrite, h3⟩ := withWrite_next h2
      cases h3
      have hpc : s3.pc = s.pc + 1 := (memWrite_kept _ _ _ s _ _ d rfl hwrite).pc ht
      rw [skipIf_zero_eq hpc hz]
      exact skipsIf_of_skipAddress rfl decide_eq_true_iff

/-- An instruction that may skip does so on the operand values that the table of skips gives for it. -/
theorem skippingForms_skip {m : DAddr} {b : Nat} {s s1 : State} {t : Target} {v : Byte} (h : Operand .other m s t v)
    {q : Instr × Prop} (hq : q ∈ skippingForms m b v) (hnext : exec q.1 s = .next s1) :
    timingClass q.1 = .skipping ∧ SkipsIf q.2 s s1 := by
  obtain ⟨d, hread⟩ := readingOp_operand m s t v h
  have tests {i : Instr} {test : Byte → Bool} {p : Prop} (hi : exec i s = testAndSkip m test s) (hp : test v = true ↔ p)
      (hnext : exec i s = .next s1) : SkipsIf p s s1 := by
    rw [exec_of_testAndSkip hread hi] at hnext
    cases hnext
    exact skipsIf_of_skipAddress rfl hp
  have toAcc {i : Instr} {f : Byte → Byte} {p : Prop} [Decidable p] (hi : exec i s = accAndSkip m f s) (hz : f v = 0 ↔ p)
      (hnext : exec i s = .next s1) : SkipsIf p s s1 := by
    rw [exec_of_accAndSkip hread hz hi] at hnext
    cases hnext
    exact skipsIf_of_skipAddress rfl decide_eq_true_iff
  simp only [skippingForms, List.mem_cons, List.not_mem_nil, or_false] at hq
  rcases hq with rfl | rfl | rfl | rfl | rfl | rfl | rfl | rfl <;> refine ⟨rfl, ?_⟩
  · exact tests (test := fun v => v == 0) rfl beq_iff_eq hnext
  · exact toAcc (f := id) rfl Iff.rfl hnext
  · exact tests (test := fun v => !v.getLsbD b) rfl (by simp) hnext
  · exact tests (test := fun v => v.getLsbD b) rfl Iff.rfl hnext
  · exact memAndSkip_skips (f := fun v => v + 1) h (increment_eq_zero_iff v) hnext
  · exact memAndSkip_skips (f := fun v => v - 1) h (decrement_eq_zero_iff v) hnext
  · exact toAcc (f := fun v => v + 1) rfl (increment_eq_zero_iff v) hnext
  · exact toAcc (f := fun v => v - 1) rfl (decrement_eq_zero_iff v) hnext

/-! ## The classes of the statement -/

theorem timingClass_storingForms (m : DAddr) (b : Nat) : ∀ i ∈ storingForms m b, timingClass i = .storing m := by
  simp [storingForms, timingClass]

theorem storingForms_of_timingClass {i : Instr} {m : DAddr} (h : timingClass i = .storing m) : ∃ b, i ∈ storingForms m b := by
  cases i
  case clrBit _ b => cases h; exact ⟨b, by simp [storingForms]⟩
  case setBit _ b => cases h; exact ⟨b, by simp [storingForms]⟩
  all_goals cases h
  all_goals exact ⟨0, by simp [storingForms]⟩

theorem skippingForms_of_timingClass {i : Instr} (h : timingClass i = .skipping) :
    ∃ m b v, i ∈ (skippingForms m b v).map Prod.fst := by
  cases i
  case szBit m b => exact ⟨m, b, 0, by simp [skippingForms]⟩
  case snzBit m b => exact ⟨m, b, 0, by simp [skippingForms]⟩
  case sz m | sza m | siz m | sdz m | siza m | sdza m => exact ⟨m, 0, 0, by simp [skippingForms]⟩
  all_goals cases h

theorem branches_of_timingClass {i : Instr} (h : timingClass i = .two) :
    ∃ a x, i ∈ [Instr.jmp a, .call a, .ret, .retAx x, .reti] := by
  cases i
  case jmp a | call a => exact ⟨a, 0, by simp⟩
  case retAx x => exact ⟨0, x, by simp⟩
  case ret | reti => exact ⟨0, 0, by simp⟩
  all_goals cases h

theorem tableReads_of_timingClass {i : Instr} {m : DAddr} (h : timingClass i = .table m) : i = .tabrdc m ∨ i = .tabrdl m := by
  cases i
  case tabrdc | tabrdl => cases h; simp
  all_goals cases h

/-- Settles O37, by the line of the table. -/
theorem instructionCycles : Obligations.InstructionCycles := by
  intro s s1 m b a x
  refine ⟨fun i hi => cycles_of_storing (timingClass_storingForms m b i hi) s s1, fun t v h _ q hq hnext => ?_, fun i hi => ?_,
    fun i hi => ?_, fun i hforms hbranch => ?_⟩
  · obtain ⟨hclass, hskip⟩ := skippingForms_skip h hq hnext
    exact cycles_of_skipping hclass hskip
  · have hclass : timingClass i = .two := by
      revert i
      simp [timingClass]
    exact cycles_of_two hclass s s1
  · have hclass : timingClass i = .table m := by
      revert i
      simp [timingClass]
    exact cycles_of_table hclass s s1
  · cases hclass : timingClass i with
    | one | moving => simp only [cycles, hclass]
    | storing m' =>
      obtain ⟨b', hmem⟩ := storingForms_of_timingClass hclass
      exact absurd hmem (hforms m' b' 0).1
    | skipping =>
      obtain ⟨m', b', v', hmem⟩ := skippingForms_of_timingClass hclass
      exact absurd hmem (hforms m' b' v').2.1
    | two =>
      obtain ⟨a', x', hmem⟩ := branches_of_timingClass hclass
      exact absurd hmem (hbranch a' x')
    | table m' =>
      obtain ⟨_, _, hdc, hdl⟩ := hforms m' 0 0
      exact (tableReads_of_timingClass hclass).elim (absurd · hdc) (absurd · hdl)

end Sys2Proof.Machine
end

