-- ==== Sys2Proof/Proofs/Halt.lean ====
section
/-! A core in HALT: what a step of it does with the oscillator off (O58), and what ends it (O60). -/

namespace Sys2Proof.Machine

open Sys2Proof Sys2Proof.Config

/-! ## The step of a core in HALT -/

/-- A counter that does not count outside timer mode is off or in timer mode. -/
theorem countMode_of_quiet {s : State} (hquiet : countsOutside s = false) (hmode : countMode s.tmrc s.adcr ≠ .unused)
    (hton : s.tmrc.ton = true) : countMode s.tmrc s.adcr = .timer := by
  rw [countMode_on hton] at hmode ⊢
  simp only [countsOutside, hton, Bool.true_and, Bool.or_eq_false_iff] at hquiet
  obtain ⟨hadc, htm0⟩ := hquiet
  rw [hadc, htm0] at hmode ⊢
  cases htm1 : s.tmrc.tm1 with
  | true => rfl
  | false => exact absurd (by rw [htm1]; rfl) hmode

/-- In HALT the counter counts the clocks, if it is on (R362). -/
theorem timerPeriod_of_quiet {s : State} (hquiet : countsOutside s = false) (hmode : countMode s.tmrc s.adcr ≠ .unused)
    (n : Nat) (e : EnvSample) : timerPeriod s n false e (dropSample s) =
      .ok (if s.tmrc.ton then count^[n] (dropSample s) else dropSample s) := by
  cases hton : s.tmrc.ton with
  | false => exact timerPeriod_off hton hton
  | true =>
    have htimer : countMode (dropSample s).tmrc (dropSample s).adcr = .timer := countMode_of_quiet hquiet hmode hton
    have hrun : timerPeriod s n false e (dropSample s) = runCounter n e.pins (dropSample s) := by
      simp [timerPeriod, hton]
    rw [hrun, runCounter_counts (.inl htimer), counterEvents_timer htimer, clockEvents_clocks]
    rfl

/-- The clocks of a step in HALT: one if the oscillator runs (R362). -/
def haltClocks (s : State) : Nat := if s.par.mask.oscOnAtHalt then 1 else 0

theorem haltClocks_le (s : State) : haltClocks s ≤ 1 := by
  unfold haltClocks
  split <;> omega

/-- A core in HALT always answers a step. -/
theorem step_of_halted {s : State} (hinv : s.Inv) (hhalt : s.halted = true) (hres : s.resLow = false) :
    step s = period s (haltClocks s) 0 false s ∧ ∃ s', step s = .next s' := by
  have hquiet := hinv.haltMode hhalt
  have hstep : step s = period s (haltClocks s) 0 false s := by
    simp [step, hres, hhalt, haltedStep, hquiet, haltClocks, oscillatorRuns]
  exact ⟨hstep, _, hstep.trans (period_of_timerPeriod (timerPeriod_of_quiet hquiet hinv.mode _ _))⟩

/-- The counter at the end of a step in HALT. -/
def haltCount (s : State) : State := if s.tmrc.ton then count^[haltClocks s] (dropSample s) else dropSample s

/-- Without a reset the step leaves the program its state, counts its clock, and ends as every period does. -/
theorem halted_step {s : State} (hinv : s.Inv) (hhalt : s.halted = true) (hres : s.resLow = false)
    (hno : NoReset (haltClocks s) (nextSample s) s) : ∃ s', step s = .next s' ∧ SameProgramState s s' ∧
      LeftByCounter s (haltCount s) ∧ PeriodEnd (haltClocks s) s.intc.tf (nextSample s) (haltCount s) s' := by
  obtain ⟨hstep, s', hs'⟩ := step_of_halted hinv hhalt hres
  have hp : period s (haltClocks s) 0 false s = .next s' := hstep ▸ hs'
  obtain ⟨s3, h3, hend⟩ := period_end hp hno
  cases (timerPeriod_of_quiet (hinv.haltMode hhalt) hinv.mode _ _).symm.trans h3
  exact ⟨s', hs', (period_keeps hp hno).program, timerPeriod_leaves h3, hend⟩

/-! ## The oscillator off -/

/-- Nothing wakes a core whose oscillator is off but a port stimulus. -/
theorem no_wake_of_stopped {s : State} (h : s.par.mask.oscOnAtHalt = false) (tf tbf : Bool) :
    timerWakes tf s = false ∧ timeBaseWakes tbf s = false := by
  simp [timerWakes, timeBaseWakes, h]

theorem portWakes_of_noStimulus {e : EnvSample} {s : State} (h : NoStimulus e s) : portWakes e s = false := by
  rcases h with h | h <;> simp [portWakes, h]

/-- The interrupt check of a core in HALT. -/
theorem boundary_of_halted {s : State} (h : s.halted = true) (e : EnvSample) :
    boundary e s = { s with entering := none, slipped := false } := by
  simp only [boundary, pendingInterrupt_of_asleep (.inl h)]

/-- Settles O58: no clock moves the counter, the time base or the watchdog, and nothing wakes the core. -/
theorem stoppedOscillatorFreezesTheChip : Obligations.StoppedOscillatorFreezesTheChip := by
  intro s hinv hhalt hres hosc hpower hlow hstim
  have hclocks : haltClocks s = 0 := by simp [haltClocks, hosc]
  obtain ⟨hstep, _⟩ := step_of_halted hinv hhalt hres
  have h3 := timerPeriod_of_quiet (hinv.haltMode hhalt) hinv.mode 0 (nextSample s)
  have hcount : (if s.tmrc.ton then count^[0] (dropSample s) else dropSample s) = dropSample s := ite_self _
  rw [hcount] at h3
  rw [hstep, hclocks, period_of_timerPeriod h3]
  obtain ⟨tbf, heq, htbf⟩ := otherDevices_eq (clocks := 0) (s := dropSample s) 0 s.adcr.bon s.intc.tf
    ⟨hpower, hlow, fun _ h => absurd h (by decide)⟩
  have htbf : tbf = s.intc.tbf := Bool.eq_iff_iff.mpr (htbf.trans
    ⟨fun h => h.elim id fun ⟨j, hfirst, hlast, _⟩ => by omega, .inl⟩)
  have hsleeps : ((dropSample s).halted && !timerWakes s.intc.tf (dropSample s) && !timeBaseWakes tbf (dropSample s) &&
      !portWakes (nextSample s) (dropSample s)) = s.halted := by
    obtain ⟨htimer, hbase⟩ := no_wake_of_stopped (s := dropSample s) hosc s.intc.tf tbf
    have hport : portWakes (nextSample s) (dropSample s) = false := portWakes_of_noStimulus hstim
    rw [htimer, hbase, hport]
    simp
  rw [hsleeps, htbf] at heq
  rw [heq, boundary_of_halted ?halted]
  case halted => exact hhalt
  simp [dropSample, hres]

/-! ## The ways out -/

/-- The core wakes for one of the three reasons. -/
theorem awake_iff {clocks : Nat} {tf : Bool} {e : EnvSample} {s s' : State} (hend : PeriodEnd clocks tf e s s')
    (hhalt : s.halted = true) : s'.halted = false ↔
      timerWakes tf s = true ∨ timeBaseWakes s'.intc.tbf s = true ∨ portWakes e s = true := by
  rw [hend.halted, hhalt]
  cases timerWakes tf s <;> cases timeBaseWakes s'.intc.tbf s <;> cases portWakes e s <;> decide

theorem count_tf_iff (s : State) : (count s).intc.tf = true ↔ s.intc.tf = true ∨ s.timer.ta = 0xFFFF := by
  unfold count
  split <;> simp_all

/-- The counter overflows in a step in HALT on its one clock, at FFFFH (R332, R362). -/
theorem haltCount_tf_iff (s : State) : (haltCount s).intc.tf = true ↔ s.intc.tf = true ∨
    s.par.mask.oscOnAtHalt = true ∧ s.tmrc.ton = true ∧ s.timer.ta = 0xFFFF := by
  unfold haltCount haltClocks
  cases s.tmrc.ton <;> cases s.par.mask.oscOnAtHalt <;> simp [count_tf_iff]

theorem haltCount_of_max {s : State} (hosc : s.par.mask.oscOnAtHalt = true) (hton : s.tmrc.ton = true)
    (hmax : s.timer.ta = 0xFFFF) : (haltCount s).timer.ta = s.timer.tb := by
  have hcount : haltCount s = count (dropSample s) := by simp [haltCount, haltClocks, hosc, hton]
  rw [hcount, count_of_max (s := dropSample s) hmax]
  rfl

/-- What the one clock of a step in HALT does to TBF. -/
theorem halted_tbf_iff {s s' : State} {e : EnvSample} (hleft : LeftByCounter s (haltCount s))
    (hend : PeriodEnd (haltClocks s) s.intc.tf e (haltCount s) s') (hosc : s.par.mask.oscOnAtHalt = true) :
    s'.intc.tbf = true ↔ s.intc.tbf = true ∨ (s.mft.toNat + 1) % 2 ^ (8 + s.rt.toNat) = 0 := by
  have hclocks : haltClocks s = 1 := by simp [haltClocks, hosc]
  have hnone : ¬∃ j, 1 ≤ j ∧ j ≤ 0 ∧ (s.mft.toNat + (j + 1)) % 2 ^ (8 + s.rt.toNat) = 0 := fun ⟨j, _, _, _⟩ => by omega
  rw [hend.tbf, hleft.tbf, hleft.mft, hleft.rt, hclocks, exists_clock_succ]
  simp only [hnone, or_false]

/-- Settles O60: the three wake-ups, each by what makes its condition true in the one clock. -/
theorem wakeUpFromHalt : Obligations.WakeUpFromHalt := by
  intro s timeOut overflow hinv hhalt hres hno htimeOut hoverflow
  have hclocks : NoReset (haltClocks s) (nextSample s) s := by
    obtain ⟨hpower, hlow, hsilent⟩ := hno
    refine ⟨hpower, hlow, fun hen hpos => ?_⟩
    have hone : haltClocks s = 1 := Nat.le_antisymm (haltClocks_le s) hpos
    rw [hone]
    exact hsilent hen (by decide)
  obtain ⟨s', hstep, hprog, hleft, hend⟩ := halted_step hinv hhalt hres hclocks
  have hcounts := haltCount_tf_iff s
  rw [← hoverflow] at hcounts
  have htimer : timerWakes s.intc.tf (haltCount s) = true ↔ overflow ∧ s.intc.tf = false ∧ s.par.tfWakesHalt = true := by
    simp only [timerWakes, hleft.par, Bool.and_eq_true, hcounts, Bool.not_eq_true']
    constructor
    · rintro ⟨⟨⟨_, hopen⟩, hfirst⟩, hset⟩
      exact ⟨hset.resolve_left (by simp [hfirst]), hfirst, hopen⟩
    · rintro ⟨hover, hfirst, hopen⟩
      exact ⟨⟨⟨(hoverflow.mp hover).1, hopen⟩, hfirst⟩, .inr hover⟩
  have hbase : timeBaseWakes s'.intc.tbf (haltCount s) = true ↔ timeOut ∧ s.tbfAtHalt = false := by
    simp only [timeBaseWakes, hleft.par, hleft.tbfAtHalt, Bool.and_eq_true, Bool.not_eq_true', htimeOut]
    constructor
    · rintro ⟨⟨hosc, hfirst⟩, hset⟩
      have hclear := hinv.haltTimeBase hhalt hosc hfirst
      exact ⟨⟨hosc, ((halted_tbf_iff hleft hend hosc).mp hset).resolve_left (by simp [hclear])⟩, hfirst⟩
    · rintro ⟨⟨hosc, hmod⟩, hfirst⟩
      exact ⟨⟨hosc, hfirst⟩, (halted_tbf_iff hleft hend hosc).mpr (.inr hmod)⟩
  have hport : portWakes (nextSample s) (haltCount s) = true ↔
      (nextSample s).paWake = true ∧ (nextSample s).pads ≠ s.port.pads := by
    simp [portWakes, hleft.port]
  refine ⟨s', hstep, hprog, ?_, fun htime => ?_, fun hover => ?_⟩
  · rw [awake_iff hend (hleft.halted.trans hhalt), htimer, hbase, hport]
    exact or_rotate
  · obtain ⟨hosc, hmod⟩ := htimeOut.mp htime
    exact (halted_tbf_iff hleft hend hosc).mpr (.inr hmod)
  · obtain ⟨hosc, hton, hmax⟩ := hoverflow.mp hover
    exact ⟨hend.request.trans (hcounts.mpr (.inr hover)), by rw [hend.timer, haltCount_of_max hosc hton hmax]⟩

end Sys2Proof.Machine
end

