-- ==== Sys2Proof/Proofs/Acknowledge.lean ====
section
/-! When an acknowledgeable interrupt is entered (O44). The mark of an acknowledge put off lasts to the next boundary: only a reset
drops it in between, and after a chip reset no interrupt is acknowledgeable, while the warm reset finds no core that was running when
the step began, because HALT clears the watchdog. -/

namespace Sys2Proof.Machine

open Sys2Proof Sys2Proof.Config

/-! ## The mark within a step -/

theorem chipReset_disables (k : ChipReset) (s : State) : (chipReset k s).intc.emi = false := by cases k <;> rfl

/-- Where interrupts are enabled after it, what happened at the pads was no reset. -/
theorem samplePads_of_enabled {e : EnvSample} {s : State} (h : (samplePads e s).intc.emi = true) :
    (samplePads e s).slipped = s.slipped ∧ s.intc.emi = true := by
  have hpads : padEvents e s = portWake e s := by
    have hemi : (padEvents e s).intc.emi = true := h
    rcases padEvents_cases e s with ⟨_, heq⟩ | ⟨_, _, ⟨_, heq⟩ | ⟨_, heq⟩⟩ | ⟨_, _, heq⟩
    · rw [heq, chipReset_disables] at hemi; cases hemi
    · rw [heq, chipReset_disables] at hemi; cases hemi
    · rw [heq, chipReset_disables] at hemi; cases hemi
    · exact heq
  rw [samplePads, hpads, portWake_eq] at h ⊢
  exact ⟨rfl, h⟩

/-- So with the watchdog, where no core in HALT is old enough for the warm reset. -/
theorem runWdt_of_enabled {n : Nat} {e : EnvSample} {s : State} (h : (runWdt n e s).intc.emi = true)
    (hyoung : s.halted = true → s.wdt.age + n < 0x8000) : (runWdt n e s).slipped = s.slipped := by
  rcases runWdt_cases n e s with ⟨heq, _⟩ | ⟨_, hstrike, ⟨hhalt, _⟩ | ⟨_, heq⟩⟩
  · rw [heq]; rfl
  · obtain ⟨_, hold, _⟩ := (wdtTimesOut_ageWdt_iff n e s).mp hstrike
    have := hyoung hhalt
    omega
  · rw [heq, chipReset_disables] at h; cases h

theorem otherDevices_of_enabled {clocks cyc : Nat} {b tf : Bool} {e : EnvSample} {s : State}
    (h : (otherDevices clocks cyc b tf e s).intc.emi = true) (hyoung : s.halted = true → s.wdt.age + clocks < 0x8000) :
    (otherDevices clocks cyc b tf e s).slipped = s.slipped := by
  obtain ⟨tbf, heq, _⟩ := timeBase_and_wakes clocks tf s
  unfold otherDevices at h ⊢
  rw [heq] at h ⊢
  obtain ⟨hpads, hlvd⟩ := samplePads_of_enabled h
  refine hpads.trans ((runLvd_slipped _ _ _ _).trans (runWdt_of_enabled hlvd fun hhalt => hyoung ?_))
  simp only [Bool.and_eq_true] at hhalt
  exact hhalt.1.1

/-- An instruction keeps the mark, and if it is a HALT the watchdog is young. -/
theorem exec_slipped {i : Instr} {s s1 : State} (hrun : s.halted = false) (h : exec i s = .next s1) :
    s1.slipped = s.slipped ∧ (s1.halted = true → s1.wdt.age + 4 * cycles i s s1 < 0x8000) := by
  by_cases hi : i = .halt
  · subst hi
    obtain ⟨_, rfl⟩ := execHalt_next h
    exact ⟨rfl, fun _ => by simp [cycles, timingClass]⟩
  · have k := exec_kept h hi
    exact ⟨k.boundary.2, fun hhalt => by simp [k.halted, hrun] at hhalt⟩

/-! ## The boundary -/

/-- Every step of a chip that is not held in reset ends as a period does, and an instruction brings its mark to the end of it. -/
theorem step_period {s s1 : State} (hres : s.resLow = false) (hstep : step s = .next s1) :
    ∃ before clocks cyc drawn s0, period before clocks cyc drawn s0 = .next s1 ∧
      (s.halted = false → s.entering = none →
        s0.slipped = s.slipped ∧ (s0.halted = true → s0.wdt.age + clocks < 0x8000)) := by
  rcases step_cases hstep with ⟨hheld, _⟩ | ⟨_, hhalt, _, hp⟩ | ⟨_, _, k, hent, hp⟩ | ⟨_, hrun, _, i, s0, _, hexec, hp⟩
  · simp [hres] at hheld
  · exact ⟨_, _, _, _, _, hp, fun hrun _ => by simp [hhalt] at hrun⟩
  · exact ⟨_, _, _, _, _, hp, fun _ hnone => by simp [hent] at hnone⟩
  · exact ⟨_, _, _, _, _, hp, fun _ _ => exec_slipped hrun hexec⟩

/-- The boundary after which an interrupt is acknowledgeable decides to enter it, or puts it off and sets its mark. -/
theorem boundary_of_pending {e : EnvSample} {s : State} {k : IntSource} (h : pendingInterrupt (boundary e s) = some k) :
    s.intc.emi = true ∧ ((boundary e s).entering = some k ∨ ((boundary e s).par.intSlip = true ∧ s.slipped = false ∧
      (boundary e s).entering = none ∧ (boundary e s).slipped = true)) := by
  have hsame : pendingInterrupt s = some k := by
    obtain ⟨_, _, heq⟩ := boundary_eq e s
    rwa [heq, pendingInterrupt_entering] at h
  obtain ⟨_, _, hemi, _⟩ := pendingInterrupt_runs hsame
  refine ⟨hemi, ?_⟩
  rcases boundary_cases e s with ⟨hnone, _⟩ | ⟨k', hsome, ⟨hopen, _, hclear, heq⟩ | ⟨_, heq⟩⟩
  · rw [hnone] at hsame; cases hsame
  · rw [heq]; exact .inr ⟨hopen, hclear, rfl, rfl⟩
  · cases hsome.symm.trans hsame
    rw [heq]; exact .inl rfl

/-- The step after a boundary that has decided to enter an interrupt enters it. -/
theorem step_of_entering {s : State} {k : IntSource} (hhalt : s.halted = false) (hres : s.resLow = false)
    (h : s.entering = some k) : step s = period s 8 2 false (takeInterrupt k s) := by
  simp [step, hres, hhalt, h, entryStep]

/-- Settles O44: the boundary at the end of the step's period decides, and an instruction brings it the mark it found. -/
theorem interruptIsEnteredAtTheBoundary : Obligations.InterruptIsEnteredAtTheBoundary := by
  intro s s1 k hres hstep hpending
  obtain ⟨hhalt1, hres1, _⟩ := pendingInterrupt_runs hpending
  obtain ⟨before, clocks, cyc, drawn, s0, hp, hmark⟩ := step_period hres hstep
  obtain ⟨s3, h3, rfl⟩ := period_cases hp
  have hleft := timerPeriod_leaves h3
  obtain ⟨hemi, hdecides⟩ := boundary_of_pending hpending
  refine ⟨fun hclosed => hdecides.resolve_right fun ⟨hopen, _⟩ => ?_, step_of_entering hhalt1 hres1,
    fun hother => (hdecides.resolve_left hother).2.2, fun hslip hrun hent => hdecides.resolve_right fun ⟨_, hclear, _⟩ => ?_⟩
  · exact absurd (hclosed.symm.trans hopen) (by decide)
  · obtain ⟨hkept, hyoung⟩ := hmark hrun hent
    have hsame := otherDevices_of_enabled hemi fun hh => by rw [hleft.wdt]; exact hyoung (hleft.halted ▸ hh)
    rw [hsame, hleft.slipped, hkept, hslip] at hclear
    cases hclear

end Sys2Proof.Machine
end

