-- ==== Sys2Proof/Proofs/ResetPad.lean ====
section
/-! The RES pad and power-on (O50): a sample that brings either resets the chip, and the interrupt check after it finds interrupts
disabled. Which reset RES brings is decided by whether the core is still in HALT, so the sleep of a period is followed to its end. -/

namespace Sys2Proof.Machine

open Sys2Proof Sys2Proof.Config

/-! ## A chip held in reset -/

/-- A core that is not in HALT finds at the pads a reset or nothing. -/
theorem padEvents_of_running (e : EnvSample) {s : State} (hrun : s.halted = false) :
    padEvents e s = if e.powerOn then chipReset .por s else if e.resLow then chipReset .resN s else s := by
  have hport : portWake e s = s := by simp [portWake, hrun]
  rw [padEvents, hport, hrun]
  rfl

/-- A chip held in reset stays as a reset leaves it, also in the step in which RES is released. -/
theorem heldStep_atReset {s : State} (h : AtReset s) : AtReset (heldStep s) := by
  obtain ⟨_, _, hrun, _⟩ := id h
  have hpads : AtReset (padEvents (nextSample s) (dropSample s)) := by
    rw [padEvents_of_running _ (by exact hrun)]
    split
    · exact chipReset_atReset .por _
    · split
      · exact chipReset_atReset .resN _
      · exact h
  exact hpads

/-- Without a power-on it keeps the registers that RES does not touch. -/
theorem heldStep_keeps_registers {s : State} (hrun : s.halted = false) (hpower : (nextSample s).powerOn = false) :
    (heldStep s).acc = s.acc ∧ (heldStep s).mp0 = s.mp0 ∧ (heldStep s).mp1 = s.mp1 ∧ (heldStep s).tblp = s.tblp ∧
      (heldStep s).tblh = s.tblh ∧ (heldStep s).flags = s.flags := by
  rw [heldStep, samplePads, padEvents_of_running _ (by exact hrun), hpower, if_neg (by decide)]
  split <;> exact ⟨rfl, rfl, rfl, rfl, rfl, rfl⟩

/-! ## Which reset a sample brings -/

/-- The end of a period whose sample brings a reset. -/
theorem boundary_of_padReset {e : EnvSample} {s : State} {k : ChipReset} (h : padEvents e s = chipReset k s) :
    (boundary e (samplePads e s)).pc = 0 ∧
      (boundary e (samplePads e s)).flags = s.flags.afterReset k (s.draws + 2) := by
  obtain ⟨_, _, _, _, _, heq, _⟩ := chipReset_registers k s
  rw [boundary_of_disabled ?disabled, samplePads, h, heq]
  case disabled => rw [samplePads, h]; exact chipReset_disables k s
  exact ⟨rfl, rfl⟩

theorem boundary_of_powerOn {e : EnvSample} (hpower : e.powerOn = true) (s : State) :
    (boundary e (samplePads e s)).pc = 0 ∧ (boundary e (samplePads e s)).flags.timeOut = false ∧
      (boundary e (samplePads e s)).flags.pdf = false := by
  obtain ⟨hpc, hflags⟩ := boundary_of_padReset (s := s) (k := .por) (if_pos hpower)
  rw [hflags]
  exact ⟨hpc, rfl, rfl⟩

theorem boundary_of_resLow {e : EnvSample} (hpower : e.powerOn = false) (hlow : e.resLow = true) (s : State) :
    (boundary e (samplePads e s)).pc = 0 ∧ (boundary e (samplePads e s)).flags =
      if s.halted then { s.flags with timeOut := false, pdf := true } else s.flags := by
  obtain ⟨hpc, hflags⟩ := boundary_of_padReset (e := e) (s := s) (k := if s.halted then .resH else .resN)
    (by rw [padEvents, if_neg (by simp [hpower]), if_pos hlow])
  rw [hflags]
  refine ⟨hpc, ?_⟩
  split <;> rfl

/-- RES low at the end of a period without a watchdog time-out finds the core in HALT, if nothing has woken it. -/
theorem otherDevices_of_resLow {clocks : Nat} {e : EnvSample} {s : State} (cyc : Nat) (b tf : Bool) (hpower : e.powerOn = false)
    (hlow : e.resLow = true) (hsilent : WatchdogSilent clocks e s) : ∃ tbf : Bool,
      (tbf = true ↔ s.intc.tbf = true ∨ ∃ j, 1 ≤ j ∧ j ≤ clocks ∧ (s.mft.toNat + j) % 2 ^ (8 + s.rt.toNat) = 0) ∧
      (boundary e (otherDevices clocks cyc b tf e s)).pc = 0 ∧ (boundary e (otherDevices clocks cyc b tf e s)).flags =
        if s.halted && !timerWakes tf s && !timeBaseWakes tbf s then { s.flags with timeOut := false, pdf := true }
        else s.flags := by
  obtain ⟨tbf, heq, htbf⟩ := timeBase_and_wakes clocks tf s
  refine ⟨tbf, htbf, ?_⟩
  rw [otherDevices, heq, runWdt_silent ?silent]
  case silent => exact hsilent
  exact boundary_of_resLow hpower hlow _

/-! ## The sleep to the end of a period -/

/-- A counter that is off, or in timer mode and not near enough to FFFFH, does not set TF. -/
theorem timerPeriod_keeps_request {before s s' : State} {n : Nat} {drawn : Bool} {e : EnvSample}
    (h : timerPeriod before n drawn e s = .ok s')
    (hfew : before.tmrc.ton = false ∧ s.tmrc.ton = false ∨
      countMode s.tmrc s.adcr = .timer ∧ s.timer.ta.toNat + n ≤ 0xFFFF) : s'.intc.tf = s.intc.tf := by
  rcases hfew with ⟨hb, hs⟩ | ⟨hmode, hle⟩
  · cases (timerPeriod_off hb hs).symm.trans h
    rfl
  · have hton : s.tmrc.ton = true := by
      by_contra hoff
      simp [countMode, hoff] at hmode
    rcases timerPeriod_cases h with ⟨_, hoff, _⟩ | ⟨k, pins, s1, hfree, hall, hrun, rfl⟩
    · simp [hton] at hoff
    · have hk : k ≤ n := by
        by_cases hf : before.tmrc.ton ≠ s.tmrc.ton ∨ drawn = true
        · exact (hfree hf).1 ▸ drawnClocks_le n e
        · exact (hall hf).1.le
      simp only [hton, if_true] at hrun ⊢
      rw [runCounter_counts (.inl hmode), counterEvents_timer hmode, clockEvents_clocks,
        count_iterate_of_le k (by omega)] at hrun
      cases hrun
      rfl

/-- A core that the chip does not wake of its own finds no wake-up by the counter or the time base. -/
theorem no_wake_of_sleepsOn {before s s3 : State} {clocks : Nat} {drawn tbf : Bool} {e : EnvSample}
    (h3 : timerPeriod before clocks drawn e (dropSample s) = .ok s3) (hsleep : SleepsOn clocks before s)
    (htbf : tbf = true ↔ s3.intc.tbf = true ∨ ∃ j, 1 ≤ j ∧ j ≤ clocks ∧ (s3.mft.toNat + j) % 2 ^ (8 + s3.rt.toNat) = 0) :
    timerWakes s.intc.tf s3 = false ∧ timeBaseWakes tbf s3 = false := by
  have hleft := timerPeriod_leaves h3
  rw [hleft.tbf, hleft.mft, hleft.rt] at htbf
  cases hosc : s.par.mask.oscOnAtHalt with
  | false => exact no_wake_of_stopped (by rw [hleft.par, hosc]) _ _
  | true =>
    obtain ⟨hbase, htimer⟩ := hsleep hosc
    constructor
    · rw [timerWakes, hleft.par]
      rcases htimer with hclosed | hset | hfew
      · simp [hclosed]
      · simp [hset]
      · have hsame : s3.intc.tf = (dropSample s).intc.tf := timerPeriod_keeps_request h3 hfew
        simp [hsame]
    · rw [timeBaseWakes, hleft.tbfAtHalt]
      rcases hbase with hfirst | ⟨hclear, hnone⟩
      · simp [hfirst]
      · have hstill : tbf = false := Bool.eq_false_iff.mpr fun h => by
          rcases htbf.mp h with hset | ⟨j, hlow, hhigh, hmod⟩
          · simp [hclear] at hset
          · exact hnone j hlow hhigh hmod
        simp [hstill]

/-- Settles O50: a held chip by its own step, and every other sample at the end of its period. -/
theorem resetPadHoldsTheChip : Obligations.ResetPadHoldsTheChip := by
  refine ⟨fun s s' hinv hstep => ?_, ?_⟩
  · have hheld (h : s.resLow = true) : s' = heldStep s := by
      rcases step_cases hstep with ⟨_, heq⟩ | ⟨hhigh, _⟩ | ⟨hhigh, _⟩ | ⟨hhigh, _⟩
      · exact heq
      all_goals simp [h] at hhigh
    refine ⟨fun h => ?_, fun h hpower => ?_, fun h hpower => ?_⟩
    · rcases h with h | h
      · exact hheld h ▸ heldStep_atReset (hinv.held h)
      · exact (everyStepKeepsTheInvariant s s' hinv hstep).1.held h
    · obtain ⟨_, _, hrun, _⟩ := hinv.held h
      exact hheld h ▸ heldStep_keeps_registers hrun hpower
    · rw [hheld h, heldStep, samplePads, padEvents, if_pos hpower]
      exact ⟨rfl, rfl⟩
  · rintro before s1 s' clocks cyc drawn e rfl hp
    obtain ⟨s3, h3, rfl⟩ := period_cases hp
    have hleft := timerPeriod_leaves h3
    refine ⟨fun hpower => boundary_of_powerOn hpower _, fun hpower hlow hsilent => ?_⟩
    have hsilent3 : WatchdogSilent clocks (nextSample s1) s3 := by
      rw [WatchdogSilent, hleft.par, hleft.wdt]
      exact hsilent
    obtain ⟨tbf, htbf, hpc, hflags⟩ := otherDevices_of_resLow cyc before.adcr.bon s1.intc.tf hpower hlow hsilent3
    rw [hleft.flags, hleft.halted] at hflags
    refine ⟨fun hrun => ⟨hpc, by simpa [hrun] using hflags⟩, fun hhalt hsleep => ⟨hpc, ?_⟩⟩
    obtain ⟨htimer, hbase⟩ := no_wake_of_sleepsOn h3 hsleep htbf
    simpa [hhalt, htimer, hbase] using hflags

end Sys2Proof.Machine
end

