-- ==== Sys2Proof/Proofs/EndsOfARun.lean ====
section
/-! The two ends of a run (O59). A core in permanent HALT is in HALT after every step, because none of the three wake-ups happens. An
idle loop has three places, the JMP to itself and the two addresses of the loop with CLR WDT, and a step leads from each to the
next. -/

namespace Sys2Proof.Machine

open Sys2Proof Sys2Proof.Config

/-! ## Permanent HALT -/

/-- The watchdog of a part that is in permanent HALT stands still or is disabled. -/
theorem PermanentHalt.noReset {s : State} {e : EnvSample} (h : PermanentHalt s) (hpower : e.powerOn = false)
    (hlow : e.resLow = false) : NoReset (haltClocks s) e s := by
  obtain ⟨_, _, _, hosc⟩ := h
  refine ⟨hpower, hlow, fun hen hpos => ?_⟩
  cases hstop : s.par.mask.oscOnAtHalt with
  | false => simp [haltClocks, hstop] at hpos
  | true => exact absurd (hosc hstop).1 (by simp [hen])

/-- Counting in HALT leaves the counter's control as it was. -/
theorem haltCount_tmrc (s : State) : (haltCount s).tmrc = s.tmrc := by
  unfold haltCount
  split
  · exact (count_iterate_sameControl _ _).tmrc
  · rfl

/-- Neither the counter nor the time base wakes a core in permanent HALT. -/
theorem PermanentHalt.no_wake {s : State} (h : PermanentHalt s) (hleft : LeftByCounter s (haltCount s)) (tbf : Bool) :
    timerWakes s.intc.tf (haltCount s) = false ∧ timeBaseWakes tbf (haltCount s) = false := by
  obtain ⟨_, _, _, hosc⟩ := h
  cases hstop : s.par.mask.oscOnAtHalt with
  | false => exact no_wake_of_stopped (by rw [hleft.par, hstop]) _ _
  | true =>
    obtain ⟨_, hfirst, hcounter⟩ := hosc hstop
    refine ⟨?_, by simp [timeBaseWakes, hleft.tbfAtHalt, hfirst]⟩
    rw [timerWakes, hleft.par]
    rcases hcounter with hoff | hclosed
    · have hsame : haltCount s = dropSample s := by simp [haltCount, hoff]
      simp [hsame]
    · simp [hclosed]

theorem permanentHalt_lasts {s : State} (hinv : s.Inv) (hpower : (nextSample s).powerOn = false)
    (hlow : (nextSample s).resLow = false) (hperm : PermanentHalt s) (hstim : NoStimulus (nextSample s) s) :
    ∃ s', step s = .next s' ∧ PermanentHalt s' ∧ SameProgramState s s' := by
  obtain ⟨hhalt, hres, hquiet, hosc⟩ := id hperm
  obtain ⟨s', hstep, hprog, hleft, hend⟩ := halted_step hinv hhalt hres (hperm.noReset hpower hlow)
  refine ⟨s', hstep, ⟨?_, hend.resLow, ?_, ?_⟩, hprog⟩
  · obtain ⟨htimer, hbase⟩ := hperm.no_wake hleft s'.intc.tbf
    have hport : portWakes (nextSample s) (haltCount s) = false :=
      portWakes_of_noStimulus (hstim.imp_right fun h => h.trans (by rw [hleft.port]))
    simp [hend.halted, htimer, hbase, hport, hleft.halted, hhalt]
  · obtain ⟨_, _, _, _, hadc, _, _⟩ := hprog.modes
    rwa [countsOutside, hend.tmrc, haltCount_tmrc, hadc]
  · rw [hprog.parameters.2, hprog.watchdog.2.2, hend.tmrc, haltCount_tmrc]
    exact hosc

/-! ## The idle loops -/

/-- What a step leaves to a core in an idle loop: it is in the loop again, with the program's state as it was but for the PC and
what CLR WDT clears, and where an interrupt is to be entered it is the one that is acknowledgeable. -/
structure LoopStep (s s' : State) : Prop where
  loop : AtLoop s'
  selfJump : AtSelfJump s → SameProgramState s s'
  program : SameProgramState { s with
    pc := s'.pc, flags := { s.flags with timeOut := s'.flags.timeOut, pdf := s'.flags.pdf }, wdt := s'.wdt } s'
  entry : s'.entering = none ∨ s'.entering = pendingInterrupt s'

/-- The step of a running core that takes an instruction of a loop. -/
theorem instr_step {s s1 : State} {i : Instr} {n : Nat} (hinv : s.Inv) (hat : RunsAt i s) (hent : s.entering = none)
    (hexec : exec i s = .next s1) (hcycles : 4 * cycles i s s1 = n) (hrun : s1.halted = false)
    (hadc : s.adcr.adc = true → s.tmrc.ton = false ∧ s1.tmrc.ton = false) (hno : NoReset n (nextSample s1) s1) :
    ∃ s', step s = .next s' ∧ SameProgramState s1 s' ∧ s'.halted = false ∧ s'.resLow = false ∧
      s'.wdt.age = s1.wdt.age + n ∧ (s'.entering = none ∨ s'.entering = pendingInterrupt s') := by
  obtain ⟨hdec, hhalt, hres⟩ := hat
  subst hcycles
  obtain ⟨s', hstep, hprog, hruns, _⟩ := stepKeepsWhatTheInstructionDid s s1 i hinv hres hhalt hent hdec hexec hadc hno
  obtain ⟨s3, h3, hend⟩ := period_end ((step_of_exec_next hres hhalt hent hdec hexec).symm.trans hstep) hno
  refine ⟨s', hstep, hprog, hruns hrun, hend.resLow, ?_, hend.entry⟩
  rw [hend.wdt, (timerPeriod_leaves h3).wdt]

/-- The program is read alike in every state of a run. -/
theorem SameProgramState.decode {s s' : State} (h : SameProgramState s s') (p : PAddr) :
    s'.par.enc.decode (romRead s' p) = s.par.enc.decode (romRead s p) := by
  rw [romRead, romRead, h.parameters.1, h.parameters.2]

theorem SameProgramState.pc {s s' : State} (h : SameProgramState s s') : s'.pc = s.pc := h.control.1

/-- An instruction that changes only the PC and what CLR WDT clears leaves a step that changes no more of the program's state. -/
theorem SameProgramState.butClears {s s1 s' : State} (h : SameProgramState s1 s') {pc : PAddr} {timeOut pdf : Bool} {wdt : Wdt}
    (hs1 : s1 = { s with pc := pc, flags := { s.flags with timeOut := timeOut, pdf := pdf }, wdt := wdt }) :
    SameProgramState { s with
      pc := s'.pc, flags := { s.flags with timeOut := s'.flags.timeOut, pdf := s'.flags.pdf }, wdt := s'.wdt } s' := by
  subst hs1
  obtain ⟨hregisters, ⟨_, h0, h1, hsp, hflags⟩, hinterrupts, hport, hmodes, hbuffer, hmem, ⟨_, _, htbf⟩, hparameters⟩ := h
  exact ⟨hregisters, ⟨rfl, h0, h1, hsp, by rw [hflags]⟩, hinterrupts, hport, hmodes, hbuffer, hmem, ⟨rfl, rfl, htbf⟩,
    hparameters⟩

/-! ## The three places -/

/-- A JMP to itself leads to itself. -/
theorem selfJump_step {s : State} (hinv : s.Inv) (hpower : (nextSample s).powerOn = false)
    (hlow : (nextSample s).resLow = false) (hent : s.entering = none) (hadc : s.adcr.adc = true → s.tmrc.ton = false)
    (hsilent : WatchdogSilent 8 (nextSample s) s) (hat : AtSelfJump s) : ∃ s', step s = .next s' ∧ LoopStep s s' := by
  obtain ⟨s', hstep, hprog, hrun, hres, _, hentry⟩ := instr_step (s1 := s) (n := 8) hinv hat hent rfl rfl hat.2.1
    (fun h => ⟨hadc h, hadc h⟩) ⟨hpower, hlow, hsilent⟩
  have hdec : s'.par.enc.decode (fetchWord s') = .ok (.jmp s'.pc) := by
    rw [fetchWord, hprog.decode, hprog.pc]
    exact hat.1
  exact ⟨s', hstep, .inl ⟨hdec, hrun, hres⟩, fun _ => hprog, hprog.butClears rfl, hentry⟩

/-- Whether it clears the watchdog or not, CLR WDT changes the PC and what it clears alone. -/
theorem clearWdtIf_advance (c : Bool) (s : State) : ∃ timeOut pdf wdt, clearWdtIf c s.advance =
    { s with pc := s.pc + 1, flags := { s.flags with timeOut := timeOut, pdf := pdf }, wdt := wdt } := by
  cases c with
  | false => exact ⟨s.flags.timeOut, s.flags.pdf, s.wdt, rfl⟩
  | true => exact ⟨_, _, _, rfl⟩

/-- In the loop of two CLR WDT leads to the JMP, with the watchdog four clocks old. -/
theorem clrWdt_step {s : State} {l : PAddr} (hinv : s.Inv) (hpower : (nextSample s).powerOn = false)
    (hlow : (nextSample s).resLow = false) (hent : s.entering = none) (hadc : s.adcr.adc = true → s.tmrc.ton = false)
    (hclr : s.par.enc.decode (romRead s l) = .ok .clrWdt) (hjmp : s.par.enc.decode (romRead s (l + 1)) = .ok (.jmp l))
    (hat : RunsAt .clrWdt s) (hpc : s.pc = l) : ∃ s', step s = .next s' ∧ LoopStep s s' := by
  have hcleared : s.par.mask.wdtEn = true → (clearWdtIf s.par.mask.wdtEn s.advance).wdt.age = 0 := fun hen => by
    rw [hen, clearWdtIf_true]
  have hsilent : WatchdogSilent 4 (nextSample s) (clearWdtIf s.par.mask.wdtEn s.advance) := fun hen _ => by
    rw [hcleared hen]
    exact ⟨by decide, fun h => absurd h (by decide)⟩
  obtain ⟨s', hstep, hprog, hrun, hres, hage, hentry⟩ := instr_step (n := 4) hinv hat hent (exec_clrWdt s) rfl hat.2.1
    (fun h => ⟨hadc h, hadc h⟩) ⟨hpower, hlow, hsilent⟩
  obtain ⟨_, _, _, hclears⟩ := clearWdtIf_advance s.par.mask.wdtEn s
  have hpc' : s'.pc = l + 1 := hprog.pc.trans (congrArg (· + 1) hpc)
  have hclr' : s'.par.enc.decode (romRead s' l) = .ok .clrWdt := (hprog.decode l).trans hclr
  have hjmp' : s'.par.enc.decode (romRead s' (l + 1)) = .ok (.jmp l) := (hprog.decode (l + 1)).trans hjmp
  refine ⟨s', hstep, .inr ⟨l, hclr', hjmp', .inr ⟨⟨by rwa [fetchWord, hpc'], hrun, hres⟩, hpc', fun hen => ?_⟩⟩,
    fun hself => ?_, hprog.butClears hclears, hentry⟩
  · rw [hprog.parameters.2] at hen
    rw [hage, hcleared hen]
  · cases hat.1.symm.trans hself.1

/-- And the JMP leads back to CLR WDT, long before the watchdog times out. -/
theorem jumpBack_step {s : State} {l : PAddr} (hinv : s.Inv) (hpower : (nextSample s).powerOn = false)
    (hlow : (nextSample s).resLow = false) (hent : s.entering = none) (hadc : s.adcr.adc = true → s.tmrc.ton = false)
    (hclr : s.par.enc.decode (romRead s l) = .ok .clrWdt) (hjmp : s.par.enc.decode (romRead s (l + 1)) = .ok (.jmp l))
    (hat : RunsAt (.jmp l) s) (hpc : s.pc = l + 1) (hage : s.par.mask.wdtEn = true → s.wdt.age ≤ 4) :
    ∃ s', step s = .next s' ∧ LoopStep s s' := by
  have hsilent : WatchdogSilent 8 (nextSample s) s := fun hen _ => by
    have hyoung : s.wdt.age ≤ 4 := hage hen
    exact ⟨by omega, fun h => by omega⟩
  obtain ⟨s', hstep, hprog, hrun, hres, _, hentry⟩ := instr_step (s1 := { s with pc := l }) (n := 8) hinv hat hent rfl rfl
    hat.2.1 (fun h => ⟨hadc h, hadc h⟩) ⟨hpower, hlow, hsilent⟩
  have hpc' : s'.pc = l := hprog.pc
  have hclr' : s'.par.enc.decode (romRead s' l) = .ok .clrWdt := (hprog.decode l).trans hclr
  have hjmp' : s'.par.enc.decode (romRead s' (l + 1)) = .ok (.jmp l) := (hprog.decode (l + 1)).trans hjmp
  refine ⟨s', hstep, .inr ⟨l, hclr', hjmp', .inl ⟨⟨by rwa [fetchWord, hpc'], hrun, hres⟩, hpc'⟩⟩, fun hself => ?_,
    hprog.butClears rfl, hentry⟩
  have hsame : Except.ok (Instr.jmp s.pc) = .ok (.jmp l) := hself.1.symm.trans hat.1
  simp [hpc] at hsame

/-! ## The obligation -/

/-- A step from any place of a loop. -/
theorem loop_step {s : State} (hinv : s.Inv) (hpower : (nextSample s).powerOn = false) (hlow : (nextSample s).resLow = false)
    (hent : s.entering = none) (hadc : s.adcr.adc = true → s.tmrc.ton = false)
    (hsilent : AtSelfJump s → WatchdogSilent 8 (nextSample s) s) (h : AtLoop s) : ∃ s', step s = .next s' ∧ LoopStep s s' := by
  rcases h with hself | ⟨l, hclr, hjmp, ⟨hat, hpc⟩ | ⟨hat, hpc, hage⟩⟩
  · exact selfJump_step hinv hpower hlow hent hadc (hsilent hself) hself
  · exact clrWdt_step hinv hpower hlow hent hadc hclr hjmp hat hpc
  · exact jumpBack_step hinv hpower hlow hent hadc hclr hjmp hat hpc hage

theorem LoopStep.emi {s s' : State} (h : LoopStep s s') : s'.intc.emi = s.intc.emi := h.program.interrupts.1

/-- With interrupts disabled the loop lasts. -/
theorem LoopStep.idle {s s' : State} (h : LoopStep s s') (hs : IdleLoop s) : IdleLoop s' := by
  obtain ⟨_, hoff, _⟩ := hs
  have hemi : s'.intc.emi = false := h.emi.trans hoff
  have hnone : pendingInterrupt s' = none := by simp [pendingInterrupt, hemi]
  exact ⟨h.loop, hemi, h.entry.elim id fun hp => hp.trans hnone⟩

/-- The interrupt that is pending is acknowledgeable (R305). -/
theorem acknowledgeable_of_pending {s : State} {k : IntSource} (h : pendingInterrupt s = some k) : Acknowledgeable k s := by
  obtain ⟨hhalt, hres, _⟩ := pendingInterrupt_runs h
  obtain ⟨htimer, hbase⟩ := (acknowledgeCondition s).1 hhalt hres
  cases k with
  | timer => exact htimer.mp h
  | timeBase => exact (hbase.mp h).1

/-- With interrupts enabled it lasts until one is entered. -/
theorem LoopStep.openIdle {s s' : State} (h : LoopStep s s') (hs : OpenIdleLoop s) :
    OpenIdleLoop s' ∨ ∃ k, s'.entering = some k ∧ Acknowledgeable k s' := by
  obtain ⟨_, hon, _⟩ := hs
  cases hent : s'.entering with
  | none => exact .inl ⟨h.loop, h.emi.trans hon, hent⟩
  | some k =>
    have hpending : pendingInterrupt s' = some k := h.entry.elim (fun hn => by simp [hent] at hn) fun hp => hp ▸ hent
    exact .inr ⟨k, rfl, acknowledgeable_of_pending hpending⟩

/-- Settles O59: permanent HALT by its wake-ups, and the loops place by place. -/
theorem endsOfARunLast : Obligations.EndsOfARunLast := by
  intro s hinv hpower hlow
  refine ⟨permanentHalt_lasts hinv hpower hlow, fun hloop hsilent hadc => ?_⟩
  obtain ⟨hat, hent⟩ : AtLoop s ∧ s.entering = none := by
    rcases hloop with ⟨hat, _, hent⟩ | ⟨hat, _, hent⟩ <;> exact ⟨hat, hent⟩
  obtain ⟨s', hstep, h⟩ := loop_step hinv hpower hlow hent hadc hsilent hat
  exact ⟨s', hstep, h.loop, h.selfJump, h.program, h.idle, h.openIdle⟩

end Sys2Proof.Machine
end
